-- ==== Sys2Proof/Word.lean ====
section
/-! DEFINITION. The word types of SDO-CORE: 64-bit registers and command words (00_scope R8, R9), bytes of QB, SYM and BITS. -/

namespace Sys2Proof

/-- A 64-bit register value, command word or binary64 pattern (00_scope R8, R10). -/
abbrev Word := BitVec 64

/-- A byte of QB, SYM or BITS (10_state R43, R45, R46). -/
abbrev Byte := BitVec 8

end Sys2Proof
end

