-- ==== Sys2Proof/Config.lean ====
section
/-! DEFINITION. What an implementation fixes (00_scope R7) and the one free value of the block (20_memory R67). -/

namespace Sys2Proof

/-- The named parameters of 00_scope R7. They are OPEN in the spec, so they are plain data that State carries and no step changes: a statement
about every state is a statement about every value of them. The upper bounds 2^32 − 1 of the capacities are the width of the two fields. -/
structure Params where
  /-- `CORE_BASE`, the byte address of register offset 0 in the host's address space. -/
  coreBase : Nat
  /-- `SYM_CAP`, the capacity of SYM in bytes. -/
  symCap : BitVec 32
  /-- `BIT_CAP`, the capacity of BITS in bytes. -/
  bitCap : BitVec 32
deriving DecidableEq, Repr

/-- The bounds 00_scope R7 puts on the parameters. -/
structure Params.Ok (p : Params) : Prop where
  base_aligned : p.coreBase % 256 = 0
  symCap_min : 192 ≤ p.symCap.toNat
  bitCap_min : 1 ≤ p.bitCap.toNat

/-- The parameters of `State.reset`: the capacities 95_test_vectors takes where a vector does not say otherwise.
DESIGN CHOICE (log 3), unsafe: the spec leaves all three OPEN. -/
def Params.vectors : Params := { coreBase := 0, symCap := 4096#32, bitCap := 4096#32 }

/-- The value of the n-th read that 20_memory R67 leaves unspecified ("The model takes it as a draw: a free input under no law").
A free value (log 4), safe: it has no body, so nothing can be proved of it. -/
opaque Config.busyRead : Nat → Word

end Sys2Proof
end

