-- ==== Sys2Proof/Syntax.lean ====
section
/-! DEFINITION. The fourteen commands of SDO-CORE (30_encoding R93), one constructor per row of spec/opcode_table.json. -/

namespace Sys2Proof

/-- A decoded command. Operands are the unsigned integers of 30_encoding R92; their ranges are checked by `Instr.wellFormed` (log 12). -/
inductive Instr where
  /-- NOP (45_orchestration R190). -/
  | nop
  /-- QM_BUILD q, form Q (42_quantizer R134). -/
  | qmBuild (q : Nat)
  /-- FDCT (41_transform R115). -/
  | fdct
  /-- IDCT (41_transform R116). -/
  | idct
  /-- QUANT (42_quantizer R136). -/
  | quant
  /-- DEQUANT (42_quantizer R140). -/
  | dequant
  /-- ZZ_SCAN (43_zigzag R152). -/
  | zzScan
  /-- ZZ_UNSCAN (43_zigzag R153). -/
  | zzUnscan
  /-- HUFF_ENC (44_huffman R170). -/
  | huffEnc
  /-- HUFF_DEC (44_huffman R177). -/
  | huffDec
  /-- LSHIFT_DN (45_orchestration R192). -/
  | lshiftDn
  /-- LSHIFT_UP (45_orchestration R193). -/
  | lshiftUp
  /-- RUN_PUT r, form R (45_orchestration R195). -/
  | runPut (r : Nat)
  /-- RUN_GET r, form R (45_orchestration R196). -/
  | runGet (r : Nat)
deriving DecidableEq, Repr

end Sys2Proof
end

