-- ==== Sys2Proof/WellFormed.lean ====
section
/-! DEFINITION. Which commands have an encoding: the operand ranges of 30_encoding R92 and R99. -/

namespace Sys2Proof

/-- An operand fits its field: Q in 0..255, R in 0..2^24−1 (30_encoding R92). A Q outside 1..99 is well formed: it is a legal encoding that
raises E_QUALITY when executed. -/
def Instr.wellFormed : Instr → Bool
  | .qmBuild q => decide (q < 2 ^ 8)
  | .runPut r => decide (r < 2 ^ 24)
  | .runGet r => decide (r < 2 ^ 24)
  | .nop => true
  | .fdct => true
  | .idct => true
  | .quant => true
  | .dequant => true
  | .zzScan => true
  | .zzUnscan => true
  | .huffEnc => true
  | .huffDec => true
  | .lshiftDn => true
  | .lshiftUp => true

end Sys2Proof
end

