-- ==== Sys2Proof/Decode.lean ====
section
/-! DEFINITION. The decoder of 30_encoding R96, total on all 2^64 words and rejecting by name, and the encoder written from R91 and R93. -/

namespace Sys2Proof

/-- Why a word is illegal (30_encoding R95). -/
inductive DecodeError where
  /-- w[63:32] is not 0. -/
  | reservedHigh
  /-- w[7:0] is no opcode of 30_encoding R93. -/
  | unassignedOpcode
  /-- w[31:8] is not 0 in form N. -/
  | operandInFormN
  /-- w[31:16] is not 0 in form Q. -/
  | operandInFormQ
deriving DecidableEq, Repr

/-- `w[7:0]`, the field OPC (30_encoding R90). -/
def opcField (w : Word) : BitVec 8 := w.extractLsb' 0 8

/-- `w[31:8]`, the field OPERAND (30_encoding R90). -/
def operandField (w : Word) : BitVec 24 := w.extractLsb' 8 24

/-- `w[15:8]`, the operand Q of form Q (30_encoding R91). -/
def qualityField (w : Word) : BitVec 8 := w.extractLsb' 8 8

/-- `w[31:16]`, zero in form Q (30_encoding R91). -/
def formQHighField (w : Word) : BitVec 16 := w.extractLsb' 16 16

/-- `w[63:32]`, the field RSV (30_encoding R90). -/
def reservedField (w : Word) : BitVec 32 := w.extractLsb' 32 32

/-- Form N: the word stands for `i` when OPERAND is 0 (30_encoding R91, R96). -/
def decodeFormN (w : Word) (i : Instr) : Except DecodeError Instr :=
  if operandField w = 0 then .ok i else .error .operandInFormN

/-- Form Q: QM_BUILD with Q = zext(w[15:8]) (30_encoding R91, R92, R96). -/
def decodeFormQ (w : Word) : Except DecodeError Instr :=
  if formQHighField w = 0 then .ok (.qmBuild (qualityField w).toNat) else .error .operandInFormQ

/-- `Decode(w)` (30_encoding R96). -/
def decode (w : Word) : Except DecodeError Instr :=
  if reservedField w ≠ 0 then .error .reservedHigh
  else match (opcField w).toNat with
    | 0x00 => decodeFormN w .nop
    | 0x01 => decodeFormQ w
    | 0x10 => decodeFormN w .fdct
    | 0x11 => decodeFormN w .idct
    | 0x20 => decodeFormN w .quant
    | 0x21 => decodeFormN w .dequant
    | 0x30 => decodeFormN w .zzScan
    | 0x31 => decodeFormN w .zzUnscan
    | 0x40 => decodeFormN w .huffEnc
    | 0x41 => decodeFormN w .huffDec
    | 0x50 => decodeFormN w .lshiftDn
    | 0x51 => decodeFormN w .lshiftUp
    | 0x58 => .ok (.runPut (operandField w).toNat)
    | 0x59 => .ok (.runGet (operandField w).toNat)
    | _ => .error .unassignedOpcode

/-- The opcode of a command (30_encoding R93). -/
def Instr.opcode : Instr → BitVec 8
  | .nop => 0x00#8
  | .qmBuild _ => 0x01#8
  | .fdct => 0x10#8
  | .idct => 0x11#8
  | .quant => 0x20#8
  | .dequant => 0x21#8
  | .zzScan => 0x30#8
  | .zzUnscan => 0x31#8
  | .huffEnc => 0x40#8
  | .huffDec => 0x41#8
  | .lshiftDn => 0x50#8
  | .lshiftUp => 0x51#8
  | .runPut _ => 0x58#8
  | .runGet _ => 0x59#8

/-- The operand as the number that stands in w[31:8] (30_encoding R91). -/
def Instr.operand : Instr → Nat
  | .qmBuild q => q
  | .runPut r => r
  | .runGet r => r
  | .nop => 0
  | .fdct => 0
  | .idct => 0
  | .quant => 0
  | .dequant => 0
  | .zzScan => 0
  | .zzUnscan => 0
  | .huffEnc => 0
  | .huffDec => 0
  | .lshiftDn => 0
  | .lshiftUp => 0

/-- The command word of an instruction: OPC in 7:0, the operand in 31:8, zeros above (30_encoding R90, R99). -/
def encode (i : Instr) : Word := 0#32 ++ BitVec.ofNat 24 i.operand ++ i.opcode

/-- The mask of the instruction's row in 30_encoding R93. -/
def Instr.tableMask : Instr → Word
  | .qmBuild _ => 0xFFFFFFFFFFFF00FF#64
  | .runPut _ => 0xFFFFFFFF000000FF#64
  | .runGet _ => 0xFFFFFFFF000000FF#64
  | .nop => 0xFFFFFFFFFFFFFFFF#64
  | .fdct => 0xFFFFFFFFFFFFFFFF#64
  | .idct => 0xFFFFFFFFFFFFFFFF#64
  | .quant => 0xFFFFFFFFFFFFFFFF#64
  | .dequant => 0xFFFFFFFFFFFFFFFF#64
  | .zzScan => 0xFFFFFFFFFFFFFFFF#64
  | .zzUnscan => 0xFFFFFFFFFFFFFFFF#64
  | .huffEnc => 0xFFFFFFFFFFFFFFFF#64
  | .huffDec => 0xFFFFFFFFFFFFFFFF#64
  | .lshiftDn => 0xFFFFFFFFFFFFFFFF#64
  | .lshiftUp => 0xFFFFFFFFFFFFFFFF#64

/-- The match value of the instruction's row in 30_encoding R93. -/
def Instr.tableMatch : Instr → Word
  | .nop => 0x0000000000000000#64
  | .qmBuild _ => 0x0000000000000001#64
  | .fdct => 0x0000000000000010#64
  | .idct => 0x0000000000000011#64
  | .quant => 0x0000000000000020#64
  | .dequant => 0x0000000000000021#64
  | .zzScan => 0x0000000000000030#64
  | .zzUnscan => 0x0000000000000031#64
  | .huffEnc => 0x0000000000000040#64
  | .huffDec => 0x0000000000000041#64
  | .lshiftDn => 0x0000000000000050#64
  | .lshiftUp => 0x0000000000000051#64
  | .runPut _ => 0x0000000000000058#64
  | .runGet _ => 0x0000000000000059#64

/-- The instruction the decoder reads from a word given as the table numbers its bits; bits above `nbits` are 0. -/
def decodeTableWord (nbits w : Nat) : Option Instr :=
  match decode (BitVec.ofNat 64 (w % 2 ^ nbits)) with
  | .ok i => some i
  | .error _ => none

/-- The byte lane `b` of a register value, if a bus shows lanes: bits `8b+7 : 8b`, little-endian (20_memory R62). No admitted access observes it. -/
def byteLane (w : Word) (b : Fin 8) : Byte := w.extractLsb' (8 * b.val) 8

/-- The register value whose eight byte lanes are given, lane 0 first (20_memory R62). -/
def ofByteLanes (b0 b1 b2 b3 b4 b5 b6 b7 : Byte) : Word := b7 ++ b6 ++ b5 ++ b4 ++ b3 ++ b2 ++ b1 ++ b0

end Sys2Proof
end

