-- ==== Sys2Proof/Machine/State.lean ====
section
/-! DEFINITION. The state of SDO-CORE as plain data, the reasons a step can stop, and the state after power-on (10_state, 70_reset R240). -/

namespace Sys2Proof.Machine

/-- The 32 slots of the register window (10_state section 2): 25 registers and the 7 reserved offsets 0x0C8 to 0x0F8. -/
inductive Reg where
  | id | caps | ctrl | status | irqEn | cmd | errInfo | quality | symCount | bitCount | bitLen
  | blkIdx | blkData | qbIdx | qbData | qmIdx | qmData | symAddr | symData | bitAddr | bitData
  | htIdx | htData | romIdx | romData
  | reserved (k : Fin 7)
deriving DecidableEq, Repr

/-- What a host access does: a read, or a write of a 64-bit value (00_scope R13, 30_encoding R94). -/
inductive AccessKind where
  | read
  | write (w : Word)
deriving DecidableEq, Repr

/-- One access of the host: its byte address, its size in bytes, and what it does. Only some are admitted (20_memory R61). -/
structure Access where
  addr : Nat
  size : Nat
  kind : AccessKind
deriving DecidableEq, Repr

/-- One coming step of the two agents (00_scope R15), or a reset from the platform (70_reset R243). The order of a list of them is the
interleaving (log 1). -/
inductive Event where
  /-- The host makes an access. -/
  | host (a : Access)
  /-- The sequencer takes its step: it completes what is in flight, if anything is. -/
  | sequencer
  /-- "A platform reset input, if there is one, has the effect of a power-on reset" (70_reset R243). -/
  | platformReset
deriving DecidableEq, Repr

/-- The direction of a bus transaction (30_encoding R94). -/
inductive Direction where
  | read
  | write
deriving DecidableEq, Repr

/-- A transaction the host has made: the register, the direction, and the value read or written (30_encoding R94). -/
structure Transaction where
  reg : Reg
  dir : Direction
  data : Word
deriving DecidableEq, Repr

/-- The error codes (60_exceptions R211). -/
inductive ErrorCode where
  | illegal | busy | quality | noQm | range | symCount | bitCap | bitLen | trunc | table | noMatch | partialCode | symCap | port
deriving DecidableEq, Repr

/-- What the sequencer has in flight (10_state R49). -/
inductive Pending where
  /-- Nothing: BUSY reads 0. -/
  | none
  /-- An accepted command word not yet completed. -/
  | cmd (w : Word)
  /-- A reset initialisation (70_reset R241). -/
  | init
deriving DecidableEq, Repr

/-- An entry of the Huffman table HT (10_state R47). -/
structure HtEntry where
  len : BitVec 6
  pattern : BitVec 48
deriving DecidableEq, Repr

/-- A byte memory (SYM or BITS): cells at strictly rising addresses, no cell equal to 0, which is what an unlisted address reads as
(10_state R45 and R46: "Reset value: every byte 0"). -/
abbrev Memory := List Host.Cell

/-- Why the machine stops. -/
inductive Fault where
  /-- A host access that 20_memory R61 does not admit: another size than 8 bytes, not aligned to 8, or outside the window. Raised by
  `hostStep`. "The model gives such an access no step: the host is stuck." Safe: nothing can be proved of a run that makes one (log 5). -/
  | accessNotAdmitted
deriving DecidableEq, Repr

/-- Why an instruction has no meaning. -/
inductive Refusal where
  /-- Raised by `exec` for an instruction that is not modelled yet; no arm of `exec` raises it in this model. Safe. -/
  | notModelled (mnemonic : String)
deriving DecidableEq, Repr

/-- The state of the block (10_state), the ghost error log (60_exceptions R226), and the model's three own fields. -/
structure State where
  /-- The parameters, of which CAPS shows the capacities (10_state R23, 00_scope R7). No step changes them. -/
  params : Params
  /-- The operation in flight; STATUS.BUSY is 1 when it is not `none` (10_state R49). -/
  pending : Pending
  /-- STATUS.DONE (10_state R25). -/
  done : Bool
  /-- STATUS.ERR (10_state R25). -/
  err : Bool
  /-- STATUS.QOOR (10_state R25). -/
  qoor : Bool
  /-- STATUS.QM_VALID (10_state R25). -/
  qmValid : Bool
  /-- STATUS.ERRCODE (10_state R25). -/
  errCode : BitVec 8
  /-- IRQ_EN.DONE_EN (10_state R27). -/
  doneEn : Bool
  /-- IRQ_EN.ERR_EN (10_state R27). -/
  errEn : Bool
  /-- CMD, the last accepted command word (10_state R28). -/
  cmd : Word
  /-- ERRINFO (10_state R29). -/
  errInfo : Word
  /-- QUALITY (10_state R30). -/
  quality : BitVec 8
  /-- SYM_COUNT (10_state R31). -/
  symCount : BitVec 32
  /-- BIT_COUNT (10_state R32). -/
  bitCount : Word
  /-- BIT_LEN (10_state R33). -/
  bitLen : BitVec 32
  /-- BLK_IDX (10_state R34). -/
  blkIdx : BitVec 6
  /-- QB_IDX (10_state R35). -/
  qbIdx : BitVec 6
  /-- QM_IDX (10_state R36). -/
  qmIdx : BitVec 6
  /-- SYM_ADDR (10_state R37). -/
  symAddr : BitVec 32
  /-- BIT_ADDR (10_state R38). -/
  bitAddr : BitVec 32
  /-- HT_IDX (10_state R39). -/
  htIdx : BitVec 8
  /-- ROM_IDX.SEL (10_state R40). -/
  romSel : BitVec 2
  /-- ROM_IDX.IDX (10_state R40). -/
  romIdx : BitVec 6
  /-- BLK, 64 binary64 patterns (10_state R42). -/
  blk : Vector Word 64
  /-- QB, 64 bytes (10_state R43). -/
  qb : Vector Byte 64
  /-- QM, 64 unsigned 16-bit entries (10_state R44). -/
  qm : Vector (BitVec 16) 64
  /-- SYM, SYM_CAP bytes (10_state R45). -/
  sym : Memory
  /-- BITS, BIT_CAP bytes (10_state R46). -/
  bits : Memory
  /-- HT, 256 entries, one per byte value (10_state R47). -/
  ht : Vector HtEntry 256
  /-- The ghost error log: every (code, info) passed to Record, oldest first (60_exceptions R226). No architectural state depends on it. -/
  errorLog : List (ErrorCode × Word)
  /-- The model's own (log 1): the coming steps of host and sequencer, next first. -/
  events : List Event
  /-- The model's own (log 2): the transactions the host has made, newest first. No architectural state depends on it. -/
  history : List Transaction
  /-- The model's own (log 4): how many unspecified values have been read; the argument of `Config.busyRead`. -/
  draws : Nat
deriving DecidableEq, Repr

/-- The state after power-on with the given parameters (70_reset R240, R243). The last three fields are the model's own. -/
def State.resetWith (p : Params) : State where
  params := p
  pending := .init
  done := false
  err := false
  qoor := false
  qmValid := false
  errCode := 0
  doneEn := false
  errEn := false
  cmd := 0
  errInfo := 0
  quality := 0
  symCount := 0
  bitCount := 0
  bitLen := 0
  blkIdx := 0
  qbIdx := 0
  qmIdx := 0
  symAddr := 0
  bitAddr := 0
  htIdx := 0
  romSel := 0
  romIdx := 0
  blk := Vector.replicate 64 0
  qb := Vector.replicate 64 0
  qm := Vector.replicate 64 0
  sym := []
  bits := []
  ht := Vector.replicate 256 { len := 0, pattern := 0 }
  errorLog := []
  events := []
  history := []
  draws := 0

/-- The machine right after power-on (70_reset R243), with the parameters of log 3 and no host access to come (log 1). -/
def State.reset : State := State.resetWith Params.vectors

end Sys2Proof.Machine
end

