-- ==== Sys2Proof/Machine/Ops.lean ====
section
/-! DEFINITION. The named operations over buffers, memories and the error record: reading and writing a byte, recording an error (60_exceptions R213),
completing a command (20_memory R70), and clearing the record (60_exceptions R224). -/

namespace Sys2Proof.Machine

/-- The table of `n` entries whose entry k is `f k`. -/
def tab {n : Nat} {α : Type} (f : Fin n → α) : Vector α n := ⟨⟨List.ofFn f⟩, by simp⟩

/-- The entry of a 64-entry buffer at a 6-bit index (20_memory R60). -/
def at6 {α : Type} (v : Vector α 64) (i : BitVec 6) : α := v[i.toNat]'i.isLt

/-- The entry of HT for a byte value (10_state R47). -/
def at8 (v : Vector HtEntry 256) (i : BitVec 8) : HtEntry := v[i.toNat]'i.isLt

/-- A 64-entry buffer with the entry at a 6-bit index replaced. -/
def set6 {α : Type} (v : Vector α 64) (i : BitVec 6) (x : α) : Vector α 64 := v.set i.toNat x i.isLt

/-- HT with the entry for a byte value replaced. -/
def set8 (v : Vector HtEntry 256) (i : BitVec 8) (x : HtEntry) : Vector HtEntry 256 := v.set i.toNat x i.isLt

/-- The canonical form of a byte memory: addresses strictly rising, no cell holds 0. -/
abbrev Memory.wf (m : Memory) : Prop := m.Pairwise (fun c d => c.1 < d.1) ∧ ∀ c ∈ m, c.2 ≠ 0

/-- Every listed address is below `cap`. -/
abbrev Memory.below (m : Memory) (cap : Nat) : Prop := ∀ c ∈ m, c.1 < cap

/-- The byte at an address; an unlisted address reads 0, the reset content of SYM and BITS (10_state R45, R46). -/
def Memory.read : Memory → Nat → Byte
  | [], _ => 0
  | (b, u) :: m, a => if a = b then u else Memory.read m a

/-- Write one byte, keeping the canonical form. -/
def Memory.write : Memory → Nat → Byte → Memory
  | [], a, v => if v = 0 then [] else [(a, v)]
  | (b, u) :: m, a, v =>
    if a < b then (if v = 0 then (b, u) :: m else (a, v) :: (b, u) :: m)
    else if a = b then (if v = 0 then m else (a, v) :: m)
    else (b, u) :: Memory.write m a v

/-- Write bytes at ascending addresses from `a` on (20_memory R62). -/
def Memory.writeBytes (m : Memory) (a : Nat) : List Byte → Memory
  | [] => m
  | v :: vs => Memory.writeBytes (Memory.write m a v) (a + 1) vs

/-- The `n` bytes at ascending addresses from `a` on. -/
def Memory.readBytes (m : Memory) (a n : Nat) : List Byte := (List.range n).map fun k => Memory.read m (a + k)

/-- ERRCODE of an error (60_exceptions R211). -/
def ErrorCode.byte : ErrorCode → BitVec 8
  | .illegal => 0x01#8
  | .busy => 0x02#8
  | .quality => 0x03#8
  | .noQm => 0x04#8
  | .range => 0x05#8
  | .symCount => 0x06#8
  | .bitCap => 0x07#8
  | .bitLen => 0x08#8
  | .trunc => 0x09#8
  | .table => 0x0A#8
  | .noMatch => 0x0B#8
  | .partialCode => 0x0C#8
  | .symCap => 0x0D#8
  | .port => 0x0E#8

/-- `Record(code, info)` (60_exceptions R213): the first error since ERR was cleared is the one held. The ghost log takes every one (R226). -/
def State.record (s : State) (c : ErrorCode) (info : Word) : State :=
  if s.err then { s with errorLog := s.errorLog ++ [(c, info)] }
  else { s with err := true, errCode := c.byte, errInfo := info, errorLog := s.errorLog ++ [(c, info)] }

/-- The end of the completion step: DONE ← 1, pending ← none (20_memory R70). -/
def State.finish (s : State) : State := { s with done := true, pending := .none }

/-- A command that succeeds: its effects are those of `t`, all applied at completion (20_memory R70). -/
def succeed (t : State) : Host.Outcome State Fault Refusal := .next t.finish

/-- A command that does `raise Error(code, info)`: only the record, DONE and pending change (60_exceptions R213, R214, R223). -/
def raiseError (s : State) (c : ErrorCode) (info : Word) : Host.Outcome State Fault Refusal := .next (s.record c info).finish

/-- The return from an error: ERR, ERRCODE and ERRINFO are cleared (10_state R26, 60_exceptions R224). -/
def State.clearError (s : State) : State := { s with err := false, errCode := 0, errInfo := 0 }

/-- A reset from the platform: the effect of a power-on reset (70_reset R243), the ghost error log emptied with the rest (R240). The parameters and
the model's own fields stay (log 18). -/
def State.powerOn (s : State) : State :=
  { State.resetWith s.params with events := s.events, history := s.history, draws := s.draws }

/-- A soft reset (70_reset R242): all state takes its reset value and pending is Init. The ghost error log and the model's own fields stay
(log 18), and so do the parameters. -/
def State.softReset (s : State) : State :=
  { State.resetWith s.params with
    errorLog := s.errorLog, events := s.events, history := s.history, draws := s.draws }

end Sys2Proof.Machine
end

