-- ==== Sys2Proof/Machine/Operands.lean ====
section
/-! DEFINITION. The operand forms of the commands: the quality Q and the run index R (30_encoding R92, 45_orchestration R194). -/

namespace Sys2Proof.Machine

/-- Q is a quality the block accepts: 1..99 (42_quantizer R134). -/
def qualityOk (q : Nat) : Bool := decide (1 ≤ q ∧ q ≤ 99)

/-- The address in SYM of the first byte of run r (45_orchestration R194). -/
def runBase (r : Nat) : Nat := 64 * r

/-- Run r is in range: 64·r + 64 ≤ SYM_CAP (45_orchestration R194). -/
def runInRange (s : State) (r : Nat) : Bool := decide (runBase r + 64 ≤ s.params.symCap.toNat)

/-- The input of HUFF_ENC, SYM[0 .. SYM_COUNT−1] (44_huffman R160). -/
def huffInput (s : State) : List Byte := s.sym.readBytes 0 s.symCount.toNat

end Sys2Proof.Machine
end

