-- ==== Sys2Proof/Machine/Huffman.lean ====
section
/-! DEFINITION. The Huffman encoder and decoder with the bitstream packer and unpacker: HUFF_ENC and HUFF_DEC (44_huffman). The frequency counts, the
tree, the packer's and the decoder's positions live inside one command (10_state R50). -/

namespace Sys2Proof.Machine

/-- A merge tree: a leaf holds a symbol, an internal node holds child0 and child1 (44_huffman R162). -/
inductive HuffTree where
  | leaf (s : Byte)
  | node (child0 child1 : HuffTree)
deriving DecidableEq, Repr

/-- A node of the pool, with its weight and its sequence number (44_huffman R162). -/
structure HuffNode where
  weight : Nat
  seq : Nat
  tree : HuffTree
deriving DecidableEq, Repr

/-- The 256 byte values in ascending order. -/
def allBytes : List Byte := (List.range 256).map fun n => BitVec.ofNat 8 n

/-- The distinct symbols of the input in ascending order (44_huffman R161). -/
def presentSymbols (input : List Byte) : List Byte := allBytes.filter fun s => decide (0 < input.count s)

/-- One leaf per present symbol: weight cnt[s], seq in ascending symbol order (44_huffman R162). -/
def leafNodes (input : List Byte) : List HuffNode :=
  (presentSymbols input).zipIdx.map fun p => { weight := input.count p.1, seq := p.2, tree := .leaf p.1 }

/-- (weight, seq) compared lexicographically (44_huffman R163). -/
def HuffNode.before (a b : HuffNode) : Bool := decide (a.weight < b.weight ∨ (a.weight = b.weight ∧ a.seq < b.seq))

/-- The node of the pool with the smallest (weight, seq), and the pool without it (44_huffman R163). -/
def takeLowest : List HuffNode → Option (HuffNode × List HuffNode)
  | [] => none
  | n :: ns =>
    match takeLowest ns with
    | none => some (n, [])
    | some (m, rest) => if n.before m then some (n, ns) else some (m, n :: rest)

/-- The merge loop (44_huffman R163): the two lowest nodes become the children of a new node, which takes the next seq, until one node is left. `fuel`
is the number of merges still allowed; each removes one node from the pool. -/
def mergePool : Nat → Nat → List HuffNode → List HuffNode
  | 0, _, pool => pool
  | fuel + 1, next, pool =>
    match takeLowest pool with
    | none => pool
    | some (a, pool1) =>
      match takeLowest pool1 with
      | none => pool
      | some (b, pool2) =>
        mergePool fuel (next + 1) ({ weight := a.weight + b.weight, seq := next, tree := .node a.tree b.tree } :: pool2)

/-- Every leaf's symbol with its path from the root, first edge first: false is the edge to child0, bit 0 (44_huffman R164). -/
def treePaths : HuffTree → List (Byte × List Bool)
  | .leaf s => [(s, [])]
  | .node a b => (treePaths a).map (fun p => (p.1, false :: p.2)) ++ (treePaths b).map (fun p => (p.1, true :: p.2))

/-- The codes of a tree: its paths, but the one bit 0 for the tree of a single symbol (44_huffman R164, R165). -/
def treeCodes : HuffTree → List (Byte × List Bool)
  | .leaf s => [(s, [false])]
  | .node a b => treePaths (.node a b)

/-- The codes of the present symbols; none for the empty input (44_huffman R165, R170). -/
def symbolCodes (input : List Byte) : List (Byte × List Bool) :=
  let leaves := leafNodes input
  match mergePool leaves.length leaves.length leaves with
  | [] => []
  | root :: _ => treeCodes root.tree

/-- A bit string as a binary number, first bit most significant (44_huffman R164). -/
def bitsValue (p : List Bool) : Nat := p.foldl (fun n b => 2 * n + b.toNat) 0

/-- The HT entry of a code (44_huffman R164). -/
def entryOfCode (p : List Bool) : HtEntry := { len := BitVec.ofNat 6 p.length, pattern := BitVec.ofNat 48 (bitsValue p) }

/-- HT[s] as HUFF_ENC writes it: the symbol's code, (0, 0) if it is not present (44_huffman R164). -/
def entryOfSymbol (codes : List (Byte × List Bool)) (s : Byte) : HtEntry :=
  match codes.find? fun p => p.1 == s with
  | some p => entryOfCode p.2
  | none => { len := 0, pattern := 0 }

/-- The table HUFF_ENC writes (44_huffman R170). -/
def codeTable (codes : List (Byte × List Bool)) : Vector HtEntry 256 := tab fun k => entryOfSymbol codes (BitVec.ofNat 8 k.val)

/-- The bits of an entry's code in the order they are sent: PATTERN bit LEN−1 first (10_state R47, 44_huffman R166). -/
def codeBits (e : HtEntry) : List Bool := (List.range e.len.toNat).map fun i => e.pattern.getLsbD (e.len.toNat - 1 - i)

/-- T, the total number of code bits of the input (44_huffman R167). -/
def totalBits (t : Vector HtEntry 256) (input : List Byte) : Nat := (input.map fun s => (at8 t s).len.toNat).sum

/-- The stream: the codes of the input in input order, with no separator (44_huffman R167). -/
def codeStream (t : Vector HtEntry 256) (input : List Byte) : List Bool := input.flatMap fun s => codeBits (at8 t s)

/-- ceil(T / 8) (44_huffman R167). -/
def bytesFor (bits : Nat) : Nat := (bits + 7) / 8

/-- Byte `i` of the packed stream: stream bit 8i in bit 7, and so on; bits past the end of the stream are the pad bits 0 (44_huffman R166, R167). -/
def packByte (stream : List Bool) (i : Nat) : Byte :=
  BitVec.ofNat 8 (bitsValue ((List.range 8).map fun j => stream.getD (8 * i + j) false))

/-- The bytes BITS[0 .. L−1] of a stream (44_huffman R167). -/
def packStream (stream : List Bool) : List Byte := (List.range (bytesFor stream.length)).map (packByte stream)

/-- HUFF_ENC (44_huffman R170, R171): E_SYMCOUNT, then E_BITCAP, else HT, BITS[0..L−1], BIT_COUNT and BIT_LEN are written. -/
def execHuffEnc (s : State) : Host.Outcome State Fault Refusal :=
  if s.params.symCap < s.symCount then raiseError s .symCount (s.symCount.setWidth 64)
  else
    let input := huffInput s
    let table := codeTable (symbolCodes input)
    let total := totalBits table input
    if s.params.bitCap.toNat < bytesFor total then raiseError s .bitCap (BitVec.ofNat 64 total)
    else succeed { s with
      ht := table
      bits := s.bits.writeBytes 0 (packStream (codeStream table input))
      bitCount := BitVec.ofNat 64 total
      bitLen := BitVec.ofNat 32 (bytesFor total) }

/-- `bit(i)` of the stream in BITS (44_huffman R166). -/
def streamBit (bits : Memory) (i : Nat) : Bool := (bits.read (i / 8)).getLsbD (7 - i % 8)

/-- HT[s] is well formed: LEN ≤ 48 and PATTERN < 2^LEN (44_huffman R176). -/
def entryWellFormed (e : HtEntry) : Bool := decide (e.len.toNat ≤ 48 ∧ e.pattern.toNat < 2 ^ e.len.toNat)

/-- The lowest symbol whose entry is malformed (44_huffman R176). -/
def firstMalformed (t : Vector HtEntry 256) : Option Byte := allBytes.find? fun s => !entryWellFormed (at8 t s)

/-- The longest LEN of the table (44_huffman R177). -/
def maxLen (t : Vector HtEntry 256) : Nat := allBytes.foldl (fun m s => max m (at8 t s).len.toNat) 0

/-- The smallest symbol whose code is the prefix read so far, matched by (length, value) (44_huffman R177, R178). -/
def matchCode (t : Vector HtEntry 256) (plen pat : Nat) : Option Byte :=
  allBytes.find? fun s => (at8 t s).len.toNat == plen && (at8 t s).pattern.toNat == pat

/-- Where the decoder stands: the symbols put out, newest first, the prefix and the number of bits read (44_huffman R177). -/
structure Walk where
  out : List Byte
  plen : Nat
  pat : Nat
  pos : Nat
deriving DecidableEq, Repr

/-- One turn of the decoder's loop, on the stream bit at `pos` (44_huffman R177). -/
def walkBit (t : Vector HtEntry 256) (symCap longest : Nat) (b : Bool) (k : Walk) : Except (ErrorCode × Word) Walk :=
  let pat := 2 * k.pat + b.toNat
  let pos := k.pos + 1
  let plen := k.plen + 1
  match matchCode t plen pat with
  | some s =>
    if k.out.length = symCap then .error (.symCap, BitVec.ofNat 64 pos)
    else .ok { out := s :: k.out, plen := 0, pat := 0, pos := pos }
  | none =>
    if longest ≤ plen then .error (.noMatch, BitVec.ofNat 64 pos)
    else .ok { out := k.out, plen := plen, pat := pat, pos := pos }

/-- The decoder's loop over the remaining `n` bits of the stream (44_huffman R177). -/
def walkStream (t : Vector HtEntry 256) (stream : Nat → Bool) (symCap longest : Nat) : Nat → Walk → Except (ErrorCode × Word) Walk
  | 0, k => .ok k
  | n + 1, k =>
    match walkBit t symCap longest (stream k.pos) k with
    | .error e => .error e
    | .ok k' => walkStream t stream symCap longest n k'

/-- The symbols of a stream of `n` bits, or the walk's error; a stream that ends inside a code is E_PARTIAL (44_huffman R177, R179). -/
def decodeStream (t : Vector HtEntry 256) (stream : Nat → Bool) (symCap n : Nat) : Except (ErrorCode × Word) (List Byte) :=
  match walkStream t stream symCap (maxLen t) n { out := [], plen := 0, pat := 0, pos := 0 } with
  | .error e => .error e
  | .ok k => if k.plen = 0 then .ok k.out.reverse else .error (.partialCode, BitVec.ofNat 64 (k.pos - k.plen))

/-- HUFF_DEC (44_huffman R174 to R179): E_BITLEN, E_TRUNC, E_TABLE, then the walk; on success SYM[0..|out|−1] and SYM_COUNT are written. -/
def execHuffDec (s : State) : Host.Outcome State Fault Refusal :=
  if s.params.bitCap < s.bitLen then raiseError s .bitLen (s.bitLen.setWidth 64)
  else if 8 * s.bitLen.toNat < s.bitCount.toNat then raiseError s .trunc s.bitCount
  else match firstMalformed s.ht with
    | some b => raiseError s .table (b.setWidth 64)
    | none =>
      match decodeStream s.ht (streamBit s.bits) s.params.symCap.toNat s.bitCount.toNat with
      | .error e => raiseError s e.1 e.2
      | .ok out => succeed { s with sym := s.sym.writeBytes 0 out, symCount := BitVec.ofNat 32 out.length }

end Sys2Proof.Machine
end

