-- ==== Sys2Proof/Machine/Float.lean ====
section
/-! DEFINITION. IEEE 754 binary64 arithmetic under roundTiesToEven on bit patterns (00_scope R10, R11). A finite value is an integer number of
units of 2^−1074, so sums and products are computed exactly in integers and rounded once (log 13). -/

namespace Sys2Proof.Machine

/-- The biased exponent, bits 62:52 (00_scope R10). -/
def expField (x : Word) : Nat := (x.extractLsb' 52 11).toNat

/-- The fraction, bits 51:0 (00_scope R10). -/
def fracField (x : Word) : Nat := (x.extractLsb' 0 52).toNat

/-- The sign, bit 63: true is negative (00_scope R10). -/
def isNeg (x : Word) : Bool := x.msb

/-- `x` is a NaN: exponent all ones, fraction not 0. -/
def isNaN (x : Word) : Bool := expField x == 2047 && fracField x != 0

/-- `x` is +∞ or −∞: exponent all ones, fraction 0. -/
def isInf (x : Word) : Bool := expField x == 2047 && fracField x == 0

/-- `x` is finite. -/
def isFinite (x : Word) : Bool := expField x != 2047

/-- The canonical quiet NaN (00_scope R11). -/
def qNaN : Word := 0x7FF8000000000000#64

/-- +0.0. -/
def plusZero : Word := 0#64

/-- −0.0. -/
def minusZero : Word := 0x8000000000000000#64

/-- 128.0 (45_orchestration R192, R193). -/
def f128 : Word := 0x4060000000000000#64

/-- 0.25 (41_transform R111, R114). -/
def quarter : Word := 0x3FD0000000000000#64

/-- The magnitude of a finite pattern in units of 2^−1074: subnormals have no implicit bit (00_scope R10: "Subnormal inputs and outputs are
kept, never flushed"). -/
def magUnits (x : Word) : Nat :=
  if expField x = 0 then fracField x else (2 ^ 52 + fracField x) * 2 ^ (expField x - 1)

/-- The value of a finite pattern in units of 2^−1074. -/
def units (x : Word) : Int := if isNeg x then -(magUnits x : Int) else (magUnits x : Int)

/-- Bits 62:0 of RN(n · 2^(−1074−extra)): the binary64 magnitude nearest to it, ties to even, ∞ on overflow (00_scope R10). `drop` is the number of
low bits of `n` below the last kept place; the exponent and the fraction come out as one number, so a carry out of the fraction moves into the
exponent. -/
def roundMag (n extra : Nat) : Nat :=
  let drop := max (n.log2 - 52) extra
  let kept := n / 2 ^ drop
  let lost := n % 2 ^ drop
  let up := if 2 ^ drop < 2 * lost then 1 else if 2 * lost = 2 ^ drop then kept % 2 else 0
  min (0x7FF * 2 ^ 52) ((drop - extra) * 2 ^ 52 + kept + up)

/-- The pattern with the given sign whose magnitude is RN(n · 2^(−1074−extra)). -/
def packF (neg : Bool) (n extra : Nat) : Word :=
  BitVec.ofNat 64 ((if neg then 2 ^ 63 else 0) + roundMag n extra)

/-- `addF(a,b)` (00_scope R10, R11). An exact zero sum is +0.0 unless both operands are −0.0. -/
def addF (a b : Word) : Word :=
  if isNaN a || isNaN b then qNaN
  else if isInf a then (if isInf b && isNeg a != isNeg b then qNaN else a)
  else if isInf b then b
  else
    let sum := units a + units b
    if sum = 0 then (if isNeg a && isNeg b then minusZero else plusZero)
    else packF (decide (sum < 0)) sum.natAbs 0

/-- The pattern with the other sign bit. -/
def negF (x : Word) : Word := x ^^^ minusZero

/-- `subF(a,b)` (00_scope R10, R11). -/
def subF (a b : Word) : Word := addF a (negF b)

/-- `mulF(a,b)` (00_scope R10, R11). -/
def mulF (a b : Word) : Word :=
  if isNaN a || isNaN b then qNaN
  else if isInf a || isInf b then
    (if (isFinite a && magUnits a == 0) || (isFinite b && magUnits b == 0) then qNaN
     else if isNeg a != isNeg b then 0xFFF0000000000000#64 else 0x7FF0000000000000#64)
  else packF (isNeg a != isNeg b) (magUnits a * magUnits b) 1074

/-- `toF(i)`, the exact f64 of an integer with |i| ≤ 2^53 (00_scope R10). -/
def toF (i : Int) : Word := packF (decide (i < 0)) (i.natAbs * 2 ^ 1074) 0

/-- `trunc(x)`: a finite pattern rounded toward zero to an integer (00_scope R9, 42_quantizer R135). -/
def truncF (x : Word) : Int := (units x).tdiv (2 ^ 1074)

end Sys2Proof.Machine
end

