-- ==== Sys2Proof/Machine/Orchestration.lean ====
section
/-! DEFINITION. The orchestration commands: NOP, the level shifts, and moving a run between QB and SYM (45_orchestration). -/

namespace Sys2Proof.Machine

/-- NOP: nothing but DONE (45_orchestration R190). -/
def execNop (s : State) : Host.Outcome State Fault Refusal := succeed s

/-- LSHIFT_DN: BLK[k] ← subF(BLK[k], 128.0) (45_orchestration R192). It cannot fail. -/
def execLshiftDn (s : State) : Host.Outcome State Fault Refusal :=
  succeed { s with blk := tab fun k => subF s.blk[k] f128 }

/-- LSHIFT_UP: BLK[k] ← addF(BLK[k], 128.0), with no rounding and no clamp (45_orchestration R193). It cannot fail. -/
def execLshiftUp (s : State) : Host.Outcome State Fault Refusal :=
  succeed { s with blk := tab fun k => addF s.blk[k] f128 }

/-- RUN_PUT r (45_orchestration R195): E_RANGE, else SYM[64r + k] ← QB[k]. -/
def execRunPut (r : Nat) (s : State) : Host.Outcome State Fault Refusal :=
  if runInRange s r then succeed { s with sym := s.sym.writeBytes (runBase r) s.qb.toList }
  else raiseError s .range (BitVec.ofNat 64 r)

/-- RUN_GET r (45_orchestration R196): E_RANGE, else QB[k] ← SYM[64r + k]. -/
def execRunGet (r : Nat) (s : State) : Host.Outcome State Fault Refusal :=
  if runInRange s r then succeed { s with qb := tab fun k => s.sym.read (runBase r + k.val) }
  else raiseError s .range (BitVec.ofNat 64 r)

end Sys2Proof.Machine
end

