-- ==== Sys2Proof/Machine/Flags.lean ====
section
/-! DEFINITION. The STATUS bits, the STATUS word and its write-1-to-clear write, and the interrupt output (10_state R25 to R27, 60_exceptions R220). -/

namespace Sys2Proof.Machine

/-- STATUS.BUSY: 1 exactly when `pending ≠ none` (10_state R49). -/
def State.busy (s : State) : Bool :=
  match s.pending with
  | .none => false
  | .cmd _ => true
  | .init => true

/-- The value a STATUS read returns (10_state R25). -/
def State.statusWord (s : State) : Word :=
  0#48 ++ s.errCode ++ 0#3 ++ BitVec.ofBool s.qmValid ++ BitVec.ofBool s.qoor ++ BitVec.ofBool s.err ++ BitVec.ofBool s.done
    ++ BitVec.ofBool s.busy

/-- A STATUS write (10_state R26): bits 1, 2 and 3 clear DONE, the error record and QOOR; nothing else changes. -/
def State.writeStatus (s : State) (w : Word) : State :=
  let s1 := if w.getLsbD 1 then { s with done := false } else s
  let s2 := if w.getLsbD 2 then s1.clearError else s1
  if w.getLsbD 3 then { s2 with qoor := false } else s2

/-- The value an IRQ_EN read returns (10_state R27). -/
def State.irqEnWord (s : State) : Word := 0#62 ++ BitVec.ofBool s.errEn ++ BitVec.ofBool s.doneEn

/-- An IRQ_EN write stores w[1:0] (10_state R27). -/
def State.writeIrqEn (s : State) (w : Word) : State := { s with doneEn := w.getLsbD 0, errEn := w.getLsbD 1 }

/-- The interrupt output (60_exceptions R220). -/
def State.irq (s : State) : Bool := (s.done && s.doneEn) || (s.err && s.errEn)

/-- `set QOOR` when some element was out of range; QOOR is sticky (42_quantizer R136, R137). -/
def stickyQoor (old any : Bool) : Bool := old || any

end Sys2Proof.Machine
end

