-- ==== Sys2Proof/Machine/Rom.lean ====
section
/-! DEFINITION. The constant ROMs COS, ALPHA, BQM and ZZ (10_state R48) and the linear index k = 8·i + j of 00_scope R12. -/

namespace Sys2Proof.Machine

/-- The first index i of the linear index k = 8·i + j (00_scope R12). -/
def rowOf (k : Fin 64) : Fin 8 := ⟨k.val / 8, by omega⟩

/-- The second index j of the linear index k = 8·i + j (00_scope R12). -/
def colOf (k : Fin 64) : Fin 8 := ⟨k.val % 8, by omega⟩

/-- The linear index 8·i + j (00_scope R12). -/
def cell (i j : Fin 8) : Fin 64 := ⟨8 * i.val + j.val, by omega⟩

/-- Row p = 0 of COS (41_transform R110). -/
def cosRow0 : List Word :=
  [0x3FF0000000000000#64, 0x3FEF6297CFF75CB0#64, 0x3FED906BCF328D46#64, 0x3FEA9B66290EA1A3#64,
   0x3FE6A09E667F3BCD#64, 0x3FE1C73B39AE68C8#64, 0x3FD87DE2A6AEA963#64, 0x3FC8F8B83C69A60B#64]

/-- Row p = 1 of COS (41_transform R110). -/
def cosRow1 : List Word :=
  [0x3FF0000000000000#64, 0x3FEA9B66290EA1A3#64, 0x3FD87DE2A6AEA963#64, 0xBFC8F8B83C69A60B#64,
   0xBFE6A09E667F3BCD#64, 0xBFEF6297CFF75CB0#64, 0xBFED906BCF328D46#64, 0xBFE1C73B39AE68C8#64]

/-- Row p = 2 of COS (41_transform R110). -/
def cosRow2 : List Word :=
  [0x3FF0000000000000#64, 0x3FE1C73B39AE68C8#64, 0xBFD87DE2A6AEA963#64, 0xBFEF6297CFF75CB0#64,
   0xBFE6A09E667F3BCD#64, 0x3FC8F8B83C69A60B#64, 0x3FED906BCF328D46#64, 0x3FEA9B66290EA1A3#64]

/-- Row p = 3 of COS (41_transform R110). -/
def cosRow3 : List Word :=
  [0x3FF0000000000000#64, 0x3FC8F8B83C69A60B#64, 0xBFED906BCF328D46#64, 0xBFE1C73B39AE68C8#64,
   0x3FE6A09E667F3BCD#64, 0x3FEA9B66290EA1A3#64, 0xBFD87DE2A6AEA963#64, 0xBFEF6297CFF75CB0#64]

/-- Row p = 4 of COS (41_transform R110). -/
def cosRow4 : List Word :=
  [0x3FF0000000000000#64, 0xBFC8F8B83C69A60B#64, 0xBFED906BCF328D46#64, 0x3FE1C73B39AE68C8#64,
   0x3FE6A09E667F3BCD#64, 0xBFEA9B66290EA1A3#64, 0xBFD87DE2A6AEA963#64, 0x3FEF6297CFF75CB0#64]

/-- Row p = 5 of COS (41_transform R110). -/
def cosRow5 : List Word :=
  [0x3FF0000000000000#64, 0xBFE1C73B39AE68C8#64, 0xBFD87DE2A6AEA963#64, 0x3FEF6297CFF75CB0#64,
   0xBFE6A09E667F3BCD#64, 0xBFC8F8B83C69A60B#64, 0x3FED906BCF328D46#64, 0xBFEA9B66290EA1A3#64]

/-- Row p = 6 of COS (41_transform R110). -/
def cosRow6 : List Word :=
  [0x3FF0000000000000#64, 0xBFEA9B66290EA1A3#64, 0x3FD87DE2A6AEA963#64, 0x3FC8F8B83C69A60B#64,
   0xBFE6A09E667F3BCD#64, 0x3FEF6297CFF75CB0#64, 0xBFED906BCF328D46#64, 0x3FE1C73B39AE68C8#64]

/-- Row p = 7 of COS (41_transform R110). -/
def cosRow7 : List Word :=
  [0x3FF0000000000000#64, 0xBFEF6297CFF75CB0#64, 0x3FED906BCF328D46#64, 0xBFEA9B66290EA1A3#64,
   0x3FE6A09E667F3BCD#64, 0xBFE1C73B39AE68C8#64, 0x3FD87DE2A6AEA963#64, 0xBFC8F8B83C69A60B#64]

/-- The COS ROM in linear order (41_transform R110). -/
def cosTable : Vector Word 64 :=
  ⟨⟨cosRow0 ++ cosRow1 ++ cosRow2 ++ cosRow3 ++ cosRow4 ++ cosRow5 ++ cosRow6 ++ cosRow7⟩, rfl⟩

/-- `COS[p][q]` (41_transform R110). -/
def cosRom (p q : Fin 8) : Word := cosTable[cell p q]

/-- `ALPHA[u][v]` (41_transform R111): 0.5, RN(1/√2) or 1.0. -/
def alphaRom (u v : Fin 8) : Word :=
  if u = 0 ∧ v = 0 then 0x3FE0000000000000#64
  else if u = 0 ∨ v = 0 then 0x3FE6A09E667F3BCD#64
  else 0x3FF0000000000000#64

/-- The BQM ROM in linear order (42_quantizer R130). The numbers are the spec's, which marks them general knowledge (log 7). -/
def bqmList : List (BitVec 8) :=
  [16, 11, 10, 16, 24, 40, 51, 61] ++
  [12, 12, 14, 19, 26, 58, 60, 55] ++
  [14, 13, 16, 24, 40, 57, 69, 56] ++
  [14, 17, 22, 29, 51, 87, 80, 62] ++
  [18, 22, 37, 56, 68, 109, 103, 77] ++
  [24, 35, 55, 64, 81, 104, 113, 92] ++
  [49, 64, 78, 87, 103, 121, 120, 101] ++
  [72, 92, 95, 98, 112, 100, 103, 99]

/-- `BQM[k]` (42_quantizer R130). -/
def bqmTable : Vector (BitVec 8) 64 := ⟨⟨bqmList⟩, rfl⟩

/-- The ZZ ROM in linear order: entry k is the scan position of element k (43_zigzag R150). The numbers are the spec's, which marks them general
knowledge (log 7). -/
def zzList : List (Fin 64) :=
  [0, 1, 5, 6, 14, 15, 27, 28] ++
  [2, 4, 7, 13, 16, 26, 29, 42] ++
  [3, 8, 12, 17, 25, 30, 41, 43] ++
  [9, 11, 18, 24, 31, 40, 44, 53] ++
  [10, 19, 23, 32, 39, 45, 52, 54] ++
  [20, 22, 33, 38, 46, 51, 55, 60] ++
  [21, 34, 37, 47, 50, 56, 59, 61] ++
  [35, 36, 48, 49, 57, 58, 62, 63]

/-- `ZZ[k]` (43_zigzag R150). -/
def zzTable : Vector (Fin 64) 64 := ⟨⟨zzList⟩, rfl⟩

/-- What ROM_DATA returns for SEL and k = IDX (10_state R40). -/
def romWord (sel : BitVec 2) (k : Fin 64) : Word :=
  match sel.toNat with
  | 0 => cosTable[k]
  | 1 => (bqmTable[k]).setWidth 64
  | 2 => BitVec.ofNat 64 (zzTable[k]).val
  | _ => alphaRom (rowOf k) (colOf k)

end Sys2Proof.Machine
end

