-- ==== Sys2Proof/Machine/Quantizer.lean ====
section
/-! DEFINITION. The quantizer: QM_BUILD, QUANT and DEQUANT (42_quantizer). -/

namespace Sys2Proof.Machine

/-- `mult(q)` (42_quantizer R131). -/
def mult (q : Nat) : Nat := if q < 50 then 5000 / q else 200 - 2 * q

/-- `QMEntry(q, b)` (42_quantizer R132). -/
def qmEntry (q b : Nat) : Nat := max 1 ((mult q * b + 50) / 100)

/-- The matrix QM_BUILD derives from quality q (42_quantizer R134). -/
def qmMatrix (q : Nat) : Vector (BitVec 16) 64 := tab fun k => BitVec.ofNat 16 (qmEntry q (bqmTable[k]).toNat)

/-- `QElem(c, m)`: the byte, and whether c lies outside the integer range (42_quantizer R135). No saturation (R138). -/
def qElem (c : Word) (m : Nat) : Byte × Bool :=
  if !isFinite c then (0, true)
  else
    let t := truncF c
    if t < -2 ^ 31 ∨ 2 ^ 31 - 1 < t then (0, true) else (BitVec.ofInt 8 (t.tdiv m), false)

/-- `DQElem(b, m) = toF(s8(b) × m)` (42_quantizer R139). -/
def dqElem (b : Byte) (m : Nat) : Word := toF (b.toInt * m)

/-- QM_BUILD q (42_quantizer R134): E_QUALITY outside 1..99, else QM, QUALITY and QM_VALID are written. -/
def execQmBuild (q : Nat) (s : State) : Host.Outcome State Fault Refusal :=
  if qualityOk q then succeed { s with qm := qmMatrix q, quality := BitVec.ofNat 8 q, qmValid := true }
  else raiseError s .quality (BitVec.ofNat 64 q)

/-- The bytes QUANT writes (42_quantizer R136). -/
def quantBytes (s : State) : Vector Byte 64 := tab fun k => (qElem s.blk[k] (s.qm[k]).toNat).1

/-- Some element of BLK lies outside the quantizer's integer range (42_quantizer R136). -/
def quantOutOfRange (s : State) : Bool := (List.finRange 64).any fun k => (qElem s.blk[k] (s.qm[k]).toNat).2

/-- QUANT (42_quantizer R136): E_NOQM with info 0x20 if no QM_BUILD has succeeded, else QB is written and QOOR set if needed. -/
def execQuant (s : State) : Host.Outcome State Fault Refusal :=
  if s.qmValid then succeed { s with qb := quantBytes s, qoor := stickyQoor s.qoor (quantOutOfRange s) }
  else raiseError s .noQm 0x20#64

/-- The elements DEQUANT writes (42_quantizer R140). -/
def dequantBlock (s : State) : Vector Word 64 := tab fun k => dqElem s.qb[k] (s.qm[k]).toNat

/-- DEQUANT (42_quantizer R140): E_NOQM with info 0x21 if no QM_BUILD has succeeded, else BLK is written. -/
def execDequant (s : State) : Host.Outcome State Fault Refusal :=
  if s.qmValid then succeed { s with blk := dequantBlock s } else raiseError s .noQm 0x21#64

end Sys2Proof.Machine
end

