-- ==== Sys2Proof/Machine/Transform.lean ====
section
/-! DEFINITION. The transform unit: FDCT and IDCT as the reference functions of 41_transform R113 and R114, bit for bit (R118: the conforming
TRANSFORM, log 6). -/

namespace Sys2Proof.Machine

/-- `K[u][v] = 0.25 × ALPHA[u][v]`, exact (41_transform R111). -/
def scaleK (u v : Fin 8) : Word := mulF quarter (alphaRom u v)

/-- A sum over x in 0..7, y in 0..7, y running fastest, that starts from +0.0 and adds the terms in loop order (41_transform R112). -/
def doubleSum (term : Fin 8 → Fin 8 → Word) : Word :=
  (List.finRange 8).foldl (fun s x => (List.finRange 8).foldl (fun s y => addF s (term x y)) s) plusZero

/-- `out[u][v]` of `fdct_ref` (41_transform R113). -/
def fdctAt (b : Vector Word 64) (u v : Fin 8) : Word :=
  mulF (doubleSum fun x y => mulF (mulF b[cell x y] (cosRom x u)) (cosRom y v)) (scaleK u v)

/-- `out[x][y]` of `idct_ref` (41_transform R114). -/
def idctAt (d : Vector Word 64) (x y : Fin 8) : Word :=
  mulF (doubleSum fun u v => mulF (mulF (mulF d[cell u v] (cosRom x u)) (cosRom y v)) (alphaRom u v)) quarter

/-- `fdct_ref` (41_transform R113). -/
def fdctRef (b : Vector Word 64) : Vector Word 64 := tab fun k => fdctAt b (rowOf k) (colOf k)

/-- `idct_ref` (41_transform R114). -/
def idctRef (d : Vector Word 64) : Vector Word 64 := tab fun k => idctAt d (rowOf k) (colOf k)

/-- FDCT: BLK ← fdct_ref(BLK) (41_transform R115). It cannot fail. -/
def execFdct (s : State) : Host.Outcome State Fault Refusal := succeed { s with blk := fdctRef s.blk }

/-- IDCT: BLK ← idct_ref(BLK) (41_transform R116). It cannot fail. -/
def execIdct (s : State) : Host.Outcome State Fault Refusal := succeed { s with blk := idctRef s.blk }

end Sys2Proof.Machine
end

