-- ==== Sys2Proof/Machine/Zigzag.lean ====
section
/-! DEFINITION. The zigzag unit: ZZ_SCAN and ZZ_UNSCAN permute QB in place (43_zigzag). -/

namespace Sys2Proof.Machine

/-- ZZ_SCAN's permutation: `for k in 0..63: QB[ZZ[k]] <- old[k]` (43_zigzag R152). -/
def zzScanned (old : Vector Byte 64) : Vector Byte 64 :=
  (List.finRange 64).foldl (fun q k => q.set (zzTable[k]).val old[k] (zzTable[k]).isLt) old

/-- ZZ_UNSCAN's permutation: `for k in 0..63: QB[k] <- old[ZZ[k]]` (43_zigzag R153). -/
def zzUnscanned (old : Vector Byte 64) : Vector Byte 64 := tab fun k => old[zzTable[k]]

/-- ZZ_SCAN (43_zigzag R152). It cannot fail. -/
def execZzScan (s : State) : Host.Outcome State Fault Refusal := succeed { s with qb := zzScanned s.qb }

/-- ZZ_UNSCAN (43_zigzag R153). It cannot fail. -/
def execZzUnscan (s : State) : Host.Outcome State Fault Refusal := succeed { s with qb := zzUnscanned s.qb }

end Sys2Proof.Machine
end

