-- ==== Sys2Proof/Machine/Dispatch.lean ====
section
/-! DEFINITION. One arm per command: what the completion step of 20_memory R70 does with the command in flight. -/

namespace Sys2Proof.Machine

/-- The completion of command `i` in state `s`: its effects or its error record, DONE ← 1, pending ← none (20_memory R70). -/
def exec (i : Instr) (s : State) : Host.Outcome State Fault Refusal :=
  match i with
  | .nop => Sys2Proof.Machine.execNop s
  | .qmBuild q => Sys2Proof.Machine.execQmBuild q s
  | .fdct => Sys2Proof.Machine.execFdct s
  | .idct => Sys2Proof.Machine.execIdct s
  | .quant => Sys2Proof.Machine.execQuant s
  | .dequant => Sys2Proof.Machine.execDequant s
  | .zzScan => Sys2Proof.Machine.execZzScan s
  | .zzUnscan => Sys2Proof.Machine.execZzUnscan s
  | .huffEnc => Sys2Proof.Machine.execHuffEnc s
  | .huffDec => Sys2Proof.Machine.execHuffDec s
  | .lshiftDn => Sys2Proof.Machine.execLshiftDn s
  | .lshiftUp => Sys2Proof.Machine.execLshiftUp s
  | .runPut r => Sys2Proof.Machine.execRunPut r s
  | .runGet r => Sys2Proof.Machine.execRunGet r s

end Sys2Proof.Machine
end

