-- ==== Sys2Proof/Machine/Registers.lean ====
section
/-! DEFINITION. The register window: which accesses are admitted, what a read returns and what a write does, idle and while BUSY (10_state R22 to R41,
20_memory R61 to R67). -/

namespace Sys2Proof.Machine

/-- The register of a 64-bit slot of the window, slot = offset / 8 (10_state section 2). -/
def Reg.ofSlot : Nat → Reg
  | 0 => .id
  | 1 => .caps
  | 2 => .ctrl
  | 3 => .status
  | 4 => .irqEn
  | 5 => .cmd
  | 6 => .errInfo
  | 7 => .quality
  | 8 => .symCount
  | 9 => .bitCount
  | 10 => .bitLen
  | 11 => .blkIdx
  | 12 => .blkData
  | 13 => .qbIdx
  | 14 => .qbData
  | 15 => .qmIdx
  | 16 => .qmData
  | 17 => .symAddr
  | 18 => .symData
  | 19 => .bitAddr
  | 20 => .bitData
  | 21 => .htIdx
  | 22 => .htData
  | 23 => .romIdx
  | 24 => .romData
  | n => .reserved (Fin.ofNat 7 (n - 25))

/-- The offset of a register in the window (10_state section 2). -/
def Reg.offset : Reg → Nat
  | .id => 0x000
  | .caps => 0x008
  | .ctrl => 0x010
  | .status => 0x018
  | .irqEn => 0x020
  | .cmd => 0x028
  | .errInfo => 0x030
  | .quality => 0x038
  | .symCount => 0x040
  | .bitCount => 0x048
  | .bitLen => 0x050
  | .blkIdx => 0x058
  | .blkData => 0x060
  | .qbIdx => 0x068
  | .qbData => 0x070
  | .qmIdx => 0x078
  | .qmData => 0x080
  | .symAddr => 0x088
  | .symData => 0x090
  | .bitAddr => 0x098
  | .bitData => 0x0A0
  | .htIdx => 0x0A8
  | .htData => 0x0B0
  | .romIdx => 0x0B8
  | .romData => 0x0C0
  | .reserved k => 0x0C8 + 8 * k.val

/-- The register an access reaches, if it is admitted: 8 bytes at CORE_BASE + off with off mod 8 = 0 and off ≤ 0xF8 (20_memory R61). -/
def Access.reg? (p : Params) (a : Access) : Option Reg :=
  if a.size = 8 ∧ p.coreBase ≤ a.addr ∧ a.addr - p.coreBase ≤ 0xF8 ∧ (a.addr - p.coreBase) % 8 = 0 then
    some (Reg.ofSlot ((a.addr - p.coreBase) / 8))
  else none

/-- ID always reads this constant (10_state R22). -/
def idWord : Word := 0x53444F434F520007#64

/-- CAPS reads BIT_CAP above SYM_CAP (10_state R23). -/
def State.capsWord (s : State) : Word := s.params.bitCap ++ s.params.symCap

/-- An HT entry as HT_DATA shows it (10_state R39). -/
def htWord (e : HtEntry) : Word := 0#10 ++ e.len ++ e.pattern

/-- The HT entry an HT_DATA write stores, with no check (10_state R39). -/
def htOfWord (w : Word) : HtEntry := { len := w.extractLsb' 48 6, pattern := w.extractLsb' 0 48 }

/-- The information of E_PORT: the offset above the address (20_memory R66). -/
def portInfo (r : Reg) (addr : BitVec 32) : Word := BitVec.ofNat 32 r.offset ++ addr

/-- A SYM_DATA read (10_state R37, 20_memory R63, R66). -/
def State.readSymData (s : State) : Word × State :=
  if s.symAddr < s.params.symCap then ((s.sym.read s.symAddr.toNat).setWidth 64, { s with symAddr := s.symAddr + 1 })
  else (0, s.record .port (portInfo .symData s.symAddr))

/-- A BIT_DATA read (10_state R38, 20_memory R63, R66). -/
def State.readBitData (s : State) : Word × State :=
  if s.bitAddr < s.params.bitCap then ((s.bits.read s.bitAddr.toNat).setWidth 64, { s with bitAddr := s.bitAddr + 1 })
  else (0, s.record .port (portInfo .bitData s.bitAddr))

/-- A SYM_DATA write (10_state R37, 20_memory R63, R66). -/
def State.writeSymData (s : State) (w : Word) : State :=
  if s.symAddr < s.params.symCap then
    { s with sym := s.sym.write s.symAddr.toNat (w.extractLsb' 0 8), symAddr := s.symAddr + 1 }
  else s.record .port (portInfo .symData s.symAddr)

/-- A BIT_DATA write (10_state R38, 20_memory R63, R66). -/
def State.writeBitData (s : State) (w : Word) : State :=
  if s.bitAddr < s.params.bitCap then
    { s with bits := s.bits.write s.bitAddr.toNat (w.extractLsb' 0 8), bitAddr := s.bitAddr + 1 }
  else s.record .port (portInfo .bitData s.bitAddr)

/-- A read of a register as when idle: the value returned and the state after (10_state R22 to R41, 20_memory R63, R65). -/
def State.readReg (s : State) : Reg → Word × State
  | .id => (idWord, s)
  | .caps => (s.capsWord, s)
  | .ctrl => (0, s)
  | .status => (s.statusWord, s)
  | .irqEn => (s.irqEnWord, s)
  | .cmd => (s.cmd, s)
  | .errInfo => (s.errInfo, s)
  | .quality => (s.quality.setWidth 64, s)
  | .symCount => (s.symCount.setWidth 64, s)
  | .bitCount => (s.bitCount, s)
  | .bitLen => (s.bitLen.setWidth 64, s)
  | .blkIdx => (s.blkIdx.setWidth 64, s)
  | .blkData => (at6 s.blk s.blkIdx, { s with blkIdx := s.blkIdx + 1 })
  | .qbIdx => (s.qbIdx.setWidth 64, s)
  | .qbData => ((at6 s.qb s.qbIdx).setWidth 64, { s with qbIdx := s.qbIdx + 1 })
  | .qmIdx => (s.qmIdx.setWidth 64, s)
  | .qmData => ((at6 s.qm s.qmIdx).setWidth 64, { s with qmIdx := s.qmIdx + 1 })
  | .symAddr => (s.symAddr.setWidth 64, s)
  | .symData => s.readSymData
  | .bitAddr => (s.bitAddr.setWidth 64, s)
  | .bitData => s.readBitData
  | .htIdx => (s.htIdx.setWidth 64, s)
  | .htData => (htWord (at8 s.ht s.htIdx), { s with htIdx := s.htIdx + 1 })
  | .romIdx => (0#54 ++ s.romSel ++ 0#2 ++ s.romIdx, s)
  | .romData => (romWord s.romSel ⟨s.romIdx.toNat, s.romIdx.isLt⟩, { s with romIdx := s.romIdx + 1 })
  | .reserved _ => (0, s)

/-- A write of a register as when idle (10_state R22 to R41, 20_memory R63, R64). Read-only registers and reserved slots ignore it. -/
def State.writeReg (s : State) (w : Word) : Reg → State
  | .id => s
  | .caps => s
  | .ctrl => if w.getLsbD 0 then s.softReset else s
  | .status => s.writeStatus w
  | .irqEn => s.writeIrqEn w
  | .cmd => { s with cmd := w, pending := .cmd w }
  | .errInfo => s
  | .quality => s
  | .symCount => { s with symCount := w.extractLsb' 0 32 }
  | .bitCount => { s with bitCount := w }
  | .bitLen => { s with bitLen := w.extractLsb' 0 32 }
  | .blkIdx => { s with blkIdx := w.extractLsb' 0 6 }
  | .blkData => { s with blk := set6 s.blk s.blkIdx w, blkIdx := s.blkIdx + 1 }
  | .qbIdx => { s with qbIdx := w.extractLsb' 0 6 }
  | .qbData => { s with qb := set6 s.qb s.qbIdx (w.extractLsb' 0 8), qbIdx := s.qbIdx + 1 }
  | .qmIdx => { s with qmIdx := w.extractLsb' 0 6 }
  | .qmData => s
  | .symAddr => { s with symAddr := w.extractLsb' 0 32 }
  | .symData => s.writeSymData w
  | .bitAddr => { s with bitAddr := w.extractLsb' 0 32 }
  | .bitData => s.writeBitData w
  | .htIdx => { s with htIdx := w.extractLsb' 0 8 }
  | .htData => { s with ht := set8 s.ht s.htIdx (htOfWord w), htIdx := s.htIdx + 1 }
  | .romIdx => { s with romSel := w.extractLsb' 8 2, romIdx := w.extractLsb' 0 6 }
  | .romData => s
  | .reserved _ => s

/-- The registers a read of which returns its value while BUSY = 1 (20_memory R67). -/
def Reg.readableWhileBusy : Reg → Bool
  | .id | .caps | .ctrl | .status | .irqEn | .cmd | .errInfo | .reserved _ => true
  | .quality | .symCount | .bitCount | .bitLen | .blkIdx | .blkData | .qbIdx | .qbData | .qmIdx | .qmData | .symAddr | .symData
  | .bitAddr | .bitData | .htIdx | .htData | .romIdx | .romData => false

/-- The registers a write of which is not refused while BUSY = 1; a reserved slot ignores it as when idle (20_memory R67). -/
def Reg.writableWhileBusy : Reg → Bool
  | .ctrl | .status | .irqEn | .reserved _ => true
  | .id | .caps | .cmd | .errInfo | .quality | .symCount | .bitCount | .bitLen | .blkIdx | .blkData | .qbIdx | .qbData | .qmIdx
  | .qmData | .symAddr | .symData | .bitAddr | .bitData | .htIdx | .htData | .romIdx | .romData => false

/-- A host read: as when idle, or while BUSY the unspecified value of 20_memory R67, with no side effect on the block (log 4). -/
def State.hostRead (s : State) (r : Reg) : Word × State :=
  if s.busy && !r.readableWhileBusy then (Config.busyRead s.draws, { s with draws := s.draws + 1 }) else s.readReg r

/-- A host write: as when idle, or while BUSY refused with E_BUSY and info = the offset (20_memory R67, 60_exceptions R215). -/
def State.hostWrite (s : State) (r : Reg) (w : Word) : State :=
  if s.busy && !r.writableWhileBusy then s.record .busy (BitVec.ofNat 64 r.offset) else s.writeReg w r

/-- The model's record of a transaction the host has made (log 2). -/
def State.noteTransaction (s : State) (t : Transaction) : State := { s with history := t :: s.history }

/-- One access of the host (00_scope R15). An access 20_memory R61 does not admit has no step: a fault (log 5). -/
def hostStep (a : Access) (s : State) : Host.Outcome State Fault Refusal :=
  match a.reg? s.params with
  | none => .fault .accessNotAdmitted
  | some r =>
    match a.kind with
    | .read => .next ((s.hostRead r).2.noteTransaction { reg := r, dir := .read, data := (s.hostRead r).1 })
    | .write w => .next ((s.hostWrite r w).noteTransaction { reg := r, dir := .write, data := w })

end Sys2Proof.Machine
end

