-- ==== Sys2Proof/Machine/Sequencer.lean ====
section
/-! DEFINITION. The sequencer's step: completing a command or a reset initialisation (20_memory R70, 30_encoding R96, R97, 70_reset R241). -/

namespace Sys2Proof.Machine

/-- The completion of the command word `w` (20_memory R70): the decoded command, or E_ILLEGAL with the word (30_encoding R97). -/
def completeWord (w : Word) (s : State) : Host.Outcome State Fault Refusal :=
  match decode w with
  | .ok i => exec i s
  | .error _ => raiseError s .illegal w

/-- The sequencer's step (10_state R49, 20_memory R70, 70_reset R241). With nothing in flight it has no step to take and the state stays (log 1). -/
def sequencerStep (s : State) : Host.Outcome State Fault Refusal :=
  match s.pending with
  | .none => .next s
  | .init => .next { s with pending := .none }
  | .cmd w => completeWord w s

/-- The state in which the sequencer completes the command word `w` at its next step: `w` has been accepted by a CMD write, which the history notes
(10_state R28, 70_reset R254), and, if events are to come, the sequencer's turn stands before them (log 8). -/
def acceptNext (w : Word) (s : State) : State :=
  { s with
    cmd := w
    pending := .cmd w
    history := { reg := .cmd, dir := .write, data := w } :: s.history
    events := match s.events with
      | [] => []
      | e :: es => .sequencer :: e :: es }

end Sys2Proof.Machine
end

