-- ==== Sys2Proof/Machine/Step.lean ====
section
/-! DEFINITION. One step of the machine: a host access, a completion step or a reset from the platform, in the order the state's events give (00_scope R15, 60_exceptions R216). -/

namespace Sys2Proof.Machine

/-- One step: the next event; when no event is left the sequencer completes what is in flight, as its weak fairness asks (70_reset R253, log 1). -/
def step (s : State) : Host.Outcome State Fault Refusal :=
  match s.events with
  | [] => sequencerStep s
  | .sequencer :: es => sequencerStep { s with events := es }
  | .host a :: es => hostStep a { s with events := es }
  | .platformReset :: es => .next ({ s with events := es } : State).powerOn

/-- `s` with the command word `w` accepted, so that the very next step decodes and completes it (log 8). -/
def State.withFetchWord (s : State) (nbits w : Nat) : State := acceptNext (BitVec.ofNat 64 (w % 2 ^ nbits)) s

end Sys2Proof.Machine
end

