-- ==== Sys2Proof/Safety.lean ====
section
/-! DEFINITION. What claims about runs use: the invariant of the machine, the launch predicate Clean (70_reset R245), a run without errors
(60_exceptions R226), the end of a run (70_reset R254), correct rounding (00_scope R10), the terms of a transform's sums (41_transform R112 to R114),
the checks and the start of a Huffman decode (44_huffman R174 to R177), and the host accesses of a busy period (70_reset R252). -/

namespace Sys2Proof.Machine

/-- What holds of every state a run reaches. -/
structure State.Inv (s : State) : Prop where
  /-- The bounds of 00_scope R7. -/
  params_ok : s.params.Ok
  /-- SYM is in canonical form and lies below SYM_CAP (10_state R45). -/
  sym_wf : s.sym.wf
  sym_below : s.sym.below s.params.symCap.toNat
  /-- BITS is in canonical form and lies below BIT_CAP (10_state R46). -/
  bits_wf : s.bits.wf
  bits_below : s.bits.below s.params.bitCap.toNat
  /-- ERRCODE and ERRINFO are 0 while ERR = 0 (10_state R25, R29). -/
  no_record : s.err = false → s.errCode = 0 ∧ s.errInfo = 0
  /-- What ERRCODE and ERRINFO hold while ERR = 1 is an error of the ghost log (60_exceptions R213, R226). -/
  record_logged : s.err = true → ∃ c : ErrorCode, (c, s.errInfo) ∈ s.errorLog ∧ s.errCode = c.byte
  /-- While QM_VALID = 1, QM is the matrix of QUALITY, which lies in 1..99 (10_state R30, R44). -/
  matrix_valid : s.qmValid = true → qualityOk s.quality.toNat = true ∧ s.qm = qmMatrix s.quality.toNat
  /-- While QM_VALID = 0, QM and QUALITY hold their reset values (10_state R30, R44). -/
  matrix_reset : s.qmValid = false → s.quality = 0 ∧ s.qm = Vector.replicate 64 0
  /-- A command in flight is the word in CMD (10_state R28). -/
  in_flight : ∀ w, s.pending = .cmd w → s.cmd = w

/-- The launch predicate `Clean(s)` (70_reset R245). -/
structure State.Clean (s : State) : Prop where
  idle : s.pending = .none
  not_done : s.done = false
  no_err : s.err = false
  no_code : s.errCode = 0
  no_info : s.errInfo = 0
  no_qoor : s.qoor = false
  no_log : s.errorLog = []
  no_irq : s.irq = false

/-- "No error in this run": the ghost log is empty (60_exceptions R226). -/
def State.noError (s : State) : Prop := s.errorLog = []

/-- The host has read STATUS with BUSY = 0 since its last CMD write; the history stands newest first (70_reset R254). A program with no CMD write needs
such a read as well, and one made before the run's start counts for it, since the whole history is scanned: R254 says neither, DESIGN CHOICE (log 19). -/
def observedIdle : List Transaction → Bool
  | [] => false
  | t :: ts =>
    if t.reg = .cmd ∧ t.dir = .write then false
    else if t.reg = .status ∧ t.dir = .read ∧ t.data.getLsbD 0 = false then true
    else observedIdle ts

/-- The host program has issued its last transaction: no host access is left among the coming events (70_reset R254). A sequencer's turn or a reset
from the platform that stands there is no transaction of the host's. -/
def State.hostDone (s : State) : Prop := ∀ a, Event.host a ∉ s.events

/-- The run has ended: no host access is left, nothing is in flight, and the host has seen it (70_reset R254). -/
def State.runEnded (s : State) : Prop := s.hostDone ∧ s.pending = .none ∧ observedIdle s.history = true

/-- "The observation at the end": the architectural state and the ghost error log, without the model's own fields (70_reset R254). -/
def State.observation (s : State) : State := { s with events := [], history := [], draws := 0 }

/-- `r` is the result of rounding e · 2^(−1074−extra) as 00_scope R10 asks, roundTiesToEven: it is no NaN; it is infinite, with the sign of e, exactly
when |e| reaches half a unit beyond the largest finite value; otherwise no finite value is nearer to e, and when another one is equally near the last bit
of `r` is 0. The sign of a zero result is not part of it. -/
structure IsRounded (r : Word) (e : Int) (extra : Nat) : Prop where
  not_nan : isNaN r = false
  overflow : isInf r = true ↔ (2 ^ 54 - 1) * 2 ^ 2044 * 2 ^ extra ≤ |e|
  overflow_sign : isInf r = true → isNeg r = decide (e < 0)
  nearest : isFinite r = true → ∀ c : Word, isFinite c = true → |units r * 2 ^ extra - e| ≤ |units c * 2 ^ extra - e|
  ties_even : isFinite r = true → ∀ c : Word, isFinite c = true → units c ≠ units r →
    |units r * 2 ^ extra - e| = |units c * 2 ^ extra - e| → r.getLsbD 0 = false

/-- The sum of the first `n` terms, from +0.0 and in their order (41_transform R112). -/
def runningSum (terms : List Word) (n : Nat) : Word := (terms.take n).foldl addF plusZero

/-- "its sum meets ∞ of both signs" (41_transform R119): at some term the sum so far and the term are infinities of opposite signs. -/
def MeetsBothInfinities (terms : List Word) : Prop :=
  ∃ n t, terms[n]? = some t ∧ isInf (runningSum terms n) = true ∧ isInf t = true ∧ isNeg (runningSum terms n) ≠ isNeg t

/-- The terms of FDCT's output (u, v) in loop order (41_transform R113). -/
def fdctTerms (b : Vector Word 64) (u v : Fin 8) : List Word :=
  (List.finRange 64).map fun k => mulF (mulF b[k] (cosRom (rowOf k) u)) (cosRom (colOf k) v)

/-- The terms of IDCT's output (x, y) in loop order (41_transform R114). -/
def idctTerms (d : Vector Word 64) (x y : Fin 8) : List Word :=
  (List.finRange 64).map fun k => mulF (mulF (mulF d[k] (cosRom x (rowOf k))) (cosRom y (colOf k))) (alphaRom (rowOf k) (colOf k))

/-- An access that writes CTRL with bit 0 = 1: the soft reset (10_state R24). -/
def Access.isSoftReset (p : Params) (a : Access) : Bool :=
  match a.reg? p, a.kind with
  | some .ctrl, .write w => w.getLsbD 0
  | _, _ => false

/-- The three checks before the decoder's walk pass (44_huffman R174 to R176). -/
structure State.DecodeChecksPass (s : State) : Prop where
  length_ok : s.bitLen.toNat ≤ s.params.bitCap.toNat
  count_ok : s.bitCount.toNat ≤ 8 * s.bitLen.toNat
  table_ok : ∀ b : Byte, (at8 s.ht b).len.toNat ≤ 48 ∧ (at8 s.ht b).pattern.toNat < 2 ^ (at8 s.ht b).len.toNat

/-- The decoder of `s` goes through its first `n` stream bits without an error and then stands at `k` (44_huffman R177). -/
def State.DecoderStandsAt (s : State) (n : Nat) (k : Walk) : Prop :=
  walkStream s.ht (streamBit s.bits) s.params.symCap.toNat (maxLen s.ht) n { out := [], plen := 0, pat := 0, pos := 0 } = .ok k

/-- `b` is the smallest symbol whose entry in the table is (plen, pat) (44_huffman R177, R178: `min(M)`). -/
def IsLowestMatch (t : Vector HtEntry 256) (plen pat : Nat) (b : Byte) : Prop :=
  (at8 t b).len.toNat = plen ∧ (at8 t b).pattern.toNat = pat
  ∧ ∀ d : Byte, d < b → ¬ ((at8 t d).len.toNat = plen ∧ (at8 t d).pattern.toNat = pat)

/-- The state after the host's accesses `as`, in order, with no sequencer step between them. -/
def afterAccesses : List Access → State → Host.Outcome State Fault Refusal
  | [], s => .next s
  | a :: as, s =>
    match hostStep a s with
    | .next t => afterAccesses as t
    | .fault f => .fault f
    | .refused r => .refused r

end Sys2Proof.Machine
end

