-- ==== Sys2Proof/Certificates/Slice0/Obligations.lean ====
section
/-! DEFINITION. The statements for the provers. Each docstring names the rules of spec/ it formalises. In the statements about a command,
`t = { s with … }` is the command's frame: every register, flag, buffer and byte of memory not named there is as before. -/

open Sys2Proof Sys2Proof.Machine

/-! Encoding. -/

/-- 30_encoding R91 to R93, R96: decoding the word of a well-formed command gives the command back. -/
def Obligations.DecodeOfEncodeIsIdentity : Prop :=
  ∀ i : Instr, i.wellFormed = true → decode (encode i) = .ok i

/-- 30_encoding R91 to R93, R96: a word that decodes is the word of its command, and the command is well formed. -/
def Obligations.EncodeOfDecodeIsIdentity : Prop :=
  ∀ (w : Word) (i : Instr), decode w = .ok i → encode i = w ∧ i.wellFormed = true

/-- 30_encoding R93, R95: a word decodes exactly when `(w AND mask) = match` for some row, and then to a command of that row. -/
def Obligations.DecodeFollowsOpcodeMap : Prop :=
  ∀ w : Word,
    (∀ i : Instr, decode w = .ok i → w &&& i.tableMask = i.tableMatch)
    ∧ (∀ i : Instr, w &&& i.tableMask = i.tableMatch → ∃ j, decode w = .ok j ∧ j.opcode = i.opcode)
    ∧ ((∃ e, decode w = .error e) ↔ ∀ i : Instr, w &&& i.tableMask ≠ i.tableMatch)

/-- 30_encoding R93, R97, R99: a few words decode to the commands they stand for, and R97's two examples are illegal. -/
def Obligations.SampleWordsDecode : Prop :=
  decode 0x0000000000003201#64 = .ok (.qmBuild 50)
  ∧ decode 0x0000000000000010#64 = .ok .fdct
  ∧ decode 0x0000000000000030#64 = .ok .zzScan
  ∧ decode 0x0000000000000041#64 = .ok .huffDec
  ∧ decode 0x0000000000000258#64 = .ok (.runPut 2)
  ∧ decode 0x00000000FFFFFF59#64 = .ok (.runGet 0xFFFFFF)
  ∧ decode 0x0000000000000012#64 = .error .unassignedOpcode
  ∧ decode 0x0000000000000110#64 = .error .operandInFormN

/-- 20_memory R61 and 10_state section 2: an access is admitted exactly when it moves 8 bytes at CORE_BASE plus a register's offset, and then it reaches
that register. -/
def Obligations.AdmittedAccessesAreRegisterOffsets : Prop :=
  ∀ (p : Params) (a : Access) (r : Reg), a.reg? p = some r ↔ a.size = 8 ∧ a.addr = p.coreBase + r.offset

/-! Steps. -/

/-- 20_memory R70, 30_encoding R96: with a command in flight that decodes to `i`, the sequencer's step is `exec i`; on the state after
`withFetchWord`, which stands for an accepted CMD write (log 8), it is the very next step. -/
def Obligations.StepRunsDecodedCommand : Prop :=
  (∀ (s : State) (w : Word) (i : Instr), s.pending = .cmd w → decode w = .ok i →
    (s.events = [] → step s = exec i s)
    ∧ ∀ es, s.events = .sequencer :: es → step s = exec i { s with events := es })
  ∧ ∀ (s : State) (nbits w : Nat) (i : Instr), decodeTableWord nbits w = some i →
      step (s.withFetchWord nbits w)
        = exec i { s with
            cmd := BitVec.ofNat 64 (w % 2 ^ nbits), pending := .cmd (BitVec.ofNat 64 (w % 2 ^ nbits))
            history := { reg := .cmd, dir := .write, data := BitVec.ofNat 64 (w % 2 ^ nbits) } :: s.history }

/-- 30_encoding R97: an illegal word completes by raising E_ILLEGAL with the word, and nothing else; it sets DONE. R97's two examples are illegal. -/
def Obligations.IllegalWordRaisesIllegal : Prop :=
  (∀ (s : State) (w : Word) (e : DecodeError), s.pending = .cmd w → decode w = .error e →
    sequencerStep s = .next { s.record .illegal w with done := true, pending := .none }
    ∧ (s.err = false → sequencerStep s = .next { s with
        err := true, errCode := 0x01#8, errInfo := w, errorLog := s.errorLog ++ [(.illegal, w)], done := true, pending := .none }))
  ∧ (∃ e, decode 0x0000000000000012#64 = .error e) ∧ (∃ e, decode 0x0000000000000110#64 = .error e)

/-- 00_scope R15, 60_exceptions R216: a step at a host access of register `r` is that one access, noted in the model's history (log 2). -/
def Obligations.StepMakesHostAccess : Prop :=
  ∀ (s : State) (a : Access) (es : List Event) (r : Reg), s.events = .host a :: es → a.reg? s.params = some r →
    (a.kind = .read →
      ∀ v t, ({ s with events := es } : State).hostRead r = (v, t) →
        step s = .next { t with history := { reg := r, dir := .read, data := v } :: t.history })
    ∧ (∀ w, a.kind = .write w →
      ∀ t, ({ s with events := es } : State).hostWrite r w = t →
        step s = .next { t with history := { reg := r, dir := .write, data := w } :: t.history })

/-- 20_memory R61: a step stops only at a host access that is not admitted, and there it always does; no step is refused. That the stop is a fault is the
model's choice (log 5). -/
def Obligations.OnlyUnadmittedAccessesStop : Prop :=
  ∀ s : State,
    ((∃ t, step s = .next t) ∨ step s = .fault .accessNotAdmitted)
    ∧ (step s = .fault .accessNotAdmitted ↔ ∃ a es, s.events = .host a :: es ∧ a.reg? s.params = none)

/-! Reset. -/

/-- 70_reset R240, R241, R243, R245: the state after power-on, for all values of the parameters; completing Init sets pending to none, changes nothing
else, and leaves a state that satisfies Clean. A reset from the platform has the effect of a power-on reset; that the model's own fields (events, history,
draws) stay is the model's choice (log 18). -/
def Obligations.PowerOnState : Prop :=
  (∀ (p : Params) (s : State), s = State.resetWith p →
    s.pending = .init ∧ s.statusWord = 1#64 ∧ s.done = false ∧ s.err = false ∧ s.qoor = false ∧ s.qmValid = false ∧ s.errCode = 0
    ∧ s.doneEn = false ∧ s.errEn = false ∧ s.cmd = 0 ∧ s.errInfo = 0 ∧ s.quality = 0 ∧ s.symCount = 0 ∧ s.bitCount = 0 ∧ s.bitLen = 0
    ∧ s.blkIdx = 0 ∧ s.qbIdx = 0 ∧ s.qmIdx = 0 ∧ s.symAddr = 0 ∧ s.bitAddr = 0 ∧ s.htIdx = 0 ∧ s.romSel = 0 ∧ s.romIdx = 0
    ∧ (∀ k : Fin 64, s.blk[k] = 0 ∧ s.qb[k] = 0 ∧ s.qm[k] = 0)
    ∧ (∀ a, s.sym.read a = 0 ∧ s.bits.read a = 0)
    ∧ (∀ b, at8 s.ht b = { len := 0, pattern := 0 })
    ∧ s.irq = false ∧ s.errorLog = []
    ∧ (s.readReg .id).1 = 0x53444F434F520007#64 ∧ (s.readReg .caps).1 = p.bitCap ++ p.symCap ∧ (s.readReg .ctrl).1 = 0
    ∧ ∃ t, sequencerStep s = .next t ∧ t.Clean)
  ∧ (∀ s : State, s.pending = .init → sequencerStep s = .next { s with pending := .none })
  ∧ ∀ (s : State) (es : List Event), s.events = .platformReset :: es →
    step s = .next { State.resetWith s.params with events := es, history := s.history, draws := s.draws }

/-- 70_reset R242: a CTRL write with bit 0 = 1 is accepted in every state, busy or not, and leaves the reset state with the ghost log kept; a write with
bit 0 = 0 has no effect. That the model's own fields (events, history, draws) stay is the model's choice (log 18). -/
def Obligations.SoftResetClearsAllState : Prop :=
  ∀ (s : State) (w : Word),
    (w.getLsbD 0 = true →
      s.hostWrite .ctrl w = { State.resetWith s.params with
        errorLog := s.errorLog, events := s.events, history := s.history, draws := s.draws })
    ∧ (w.getLsbD 0 = false → s.hostWrite .ctrl w = s)

/-! The transform unit and the level shifts. -/

/-- 41_transform R113 to R116: FDCT and IDCT replace BLK by the direct double sums, the terms added in the stated order, and change nothing
else. That the transform is this pair is the spec's decision R118 (log 6). -/
def Obligations.TransformsWriteDirectSums : Prop :=
  ∀ s : State,
    (∃ t, exec .fdct s = .next t
      ∧ (∀ u v : Fin 8, t.blk[cell u v] =
          mulF ((List.finRange 8).foldl (fun acc x => (List.finRange 8).foldl (fun acc y =>
              addF acc (mulF (mulF s.blk[cell x y] (cosRom x u)) (cosRom y v))) acc) plusZero)
            (mulF quarter (alphaRom u v)))
      ∧ t = { s with blk := t.blk, done := true, pending := .none })
    ∧ (∃ t, exec .idct s = .next t
      ∧ (∀ x y : Fin 8, t.blk[cell x y] =
          mulF ((List.finRange 8).foldl (fun acc u => (List.finRange 8).foldl (fun acc v =>
              addF acc (mulF (mulF (mulF s.blk[cell u v] (cosRom x u)) (cosRom y v)) (alphaRom u v))) acc) plusZero)
            quarter)
      ∧ t = { s with blk := t.blk, done := true, pending := .none })

/-- 41_transform R119: a block of zeros of either sign transforms to +0.0 everywhere, and a NaN element gives qNaN in every output, forward and
inverse. With no NaN and an infinite element, an output is qNaN when its sum meets infinities of both signs, and otherwise infinite with the sign of its
infinite terms. -/
def Obligations.TransformOfZerosAndNaNs : Prop :=
  ∀ b : Vector Word 64,
    ((∀ k : Fin 64, b[k] = plusZero ∨ b[k] = minusZero) → ∀ k : Fin 64, (fdctRef b)[k] = plusZero ∧ (idctRef b)[k] = plusZero)
    ∧ (∀ j : Fin 64, isNaN b[j] = true → ∀ k : Fin 64, (fdctRef b)[k] = qNaN ∧ (idctRef b)[k] = qNaN)
    ∧ ((∀ j : Fin 64, isNaN b[j] = false) → (∃ j : Fin 64, isInf b[j] = true) → ∀ i j : Fin 8,
      (MeetsBothInfinities (fdctTerms b i j) → (fdctRef b)[cell i j] = qNaN)
      ∧ (¬ MeetsBothInfinities (fdctTerms b i j) → isInf (fdctRef b)[cell i j] = true
        ∧ ∀ t ∈ fdctTerms b i j, isInf t = true → isNeg (fdctRef b)[cell i j] = isNeg t)
      ∧ (MeetsBothInfinities (idctTerms b i j) → (idctRef b)[cell i j] = qNaN)
      ∧ (¬ MeetsBothInfinities (idctTerms b i j) → isInf (idctRef b)[cell i j] = true
        ∧ ∀ t ∈ idctTerms b i j, isInf t = true → isNeg (idctRef b)[cell i j] = isNeg t))

/-- 45_orchestration R192, R193: the level shifts subtract and add 128.0 in every element and change nothing else. -/
def Obligations.LevelShiftsMoveEverySample : Prop :=
  ∀ s : State,
    (∃ t, exec .lshiftDn s = .next t ∧ (∀ k : Fin 64, t.blk[k] = subF s.blk[k] f128)
      ∧ t = { s with blk := t.blk, done := true, pending := .none })
    ∧ (∃ t, exec .lshiftUp s = .next t ∧ (∀ k : Fin 64, t.blk[k] = addF s.blk[k] f128)
      ∧ t = { s with blk := t.blk, done := true, pending := .none })

/-! Binary64 arithmetic. -/

/-- 00_scope R10: `addF` and `subF` of finite operands are the exact sum and difference rounded to nearest, ties to even, infinite with their sign when
they reach half a unit beyond the largest finite value. An exact zero is +0.0, but −0.0 when both addends are negative zeros. -/
def Obligations.AddRoundsToNearestEven : Prop :=
  ∀ a b : Word, isFinite a = true → isFinite b = true →
    IsRounded (addF a b) (units a + units b) 0
    ∧ IsRounded (subF a b) (units a - units b) 0
    ∧ (units a + units b = 0 → addF a b = if a = minusZero ∧ b = minusZero then minusZero else plusZero)
    ∧ (units a - units b = 0 → subF a b = if a = minusZero ∧ b = plusZero then minusZero else plusZero)

/-- 00_scope R10: `mulF` of finite operands is the exact product, in units of 2^−2148, rounded to nearest, ties to even, and infinite when it reaches half a
unit beyond the largest finite value. Its sign, a zero or an infinite result's included, is the exclusive or of the operands' signs. -/
def Obligations.MulRoundsToNearestEven : Prop :=
  ∀ a b : Word, isFinite a = true → isFinite b = true →
    IsRounded (mulF a b) (units a * units b) 1074
    ∧ isNeg (mulF a b) = (isNeg a ^^ isNeg b)

/-- 00_scope R10, R11: `addF`, `subF` and `mulF` on NaN and infinite operands. A NaN operand gives the canonical quiet NaN, and every NaN result is it;
infinity and a finite value give that infinity; infinities of opposite signs have no sum, and those of one sign no difference; an infinity times a zero is
NaN, and times anything else an infinity with the exclusive or of the signs. -/
def Obligations.NaNResultsAreCanonical : Prop :=
  ∀ a b : Word,
    (isNaN (addF a b) = true → addF a b = qNaN) ∧ (isNaN (subF a b) = true → subF a b = qNaN)
    ∧ (isNaN (mulF a b) = true → mulF a b = qNaN)
    ∧ (isNaN a = true ∨ isNaN b = true → addF a b = qNaN ∧ subF a b = qNaN ∧ mulF a b = qNaN)
    ∧ (isInf a = true → isFinite b = true → addF a b = a ∧ addF b a = a ∧ subF a b = a ∧ subF b a = negF a)
    ∧ (isInf a = true → isInf b = true →
      addF a b = (if isNeg a = isNeg b then a else qNaN) ∧ subF a b = (if isNeg a = isNeg b then qNaN else a))
    ∧ (isInf a = true → b = plusZero ∨ b = minusZero → mulF a b = qNaN ∧ mulF b a = qNaN)
    ∧ (isInf a = true → isNaN b = false → b ≠ plusZero → b ≠ minusZero →
      mulF a b = (if isNeg a = isNeg b then 0x7FF0000000000000#64 else 0xFFF0000000000000#64)
      ∧ mulF b a = (if isNeg a = isNeg b then 0x7FF0000000000000#64 else 0xFFF0000000000000#64))

/-! The quantizer. -/

/-- 42_quantizer R131, R132, R134: QM_BUILD q with q in 1..99 writes the scaled matrix, QUALITY and QM_VALID and changes nothing else; no entry is cut
to 16 bits. -/
def Obligations.QmBuildDerivesMatrix : Prop :=
  ∀ (s : State) (q : Nat), 1 ≤ q → q ≤ 99 → ∃ t, exec (.qmBuild q) s = .next t
    ∧ (∀ k : Fin 64, (t.qm[k]).toNat
        = max 1 (((if q < 50 then 5000 / q else 200 - 2 * q) * (bqmTable[k]).toNat + 50) / 100))
    ∧ t.quality.toNat = q
    ∧ t = { s with qm := t.qm, quality := t.quality, qmValid := true, done := true, pending := .none }

/-- 42_quantizer R133: every entry lies in 1..6050; quality 50 gives BQM, quality 1 gives 50·BQM, quality 99 gives 1 or 2. -/
def Obligations.MatrixEntriesInRange : Prop :=
  (∀ (q : Nat) (k : Fin 64), 1 ≤ q → q ≤ 99 → 1 ≤ ((qmMatrix q)[k]).toNat ∧ ((qmMatrix q)[k]).toNat ≤ 6050)
  ∧ (∀ k : Fin 64, ((qmMatrix 50)[k]).toNat = (bqmTable[k]).toNat
      ∧ ((qmMatrix 1)[k]).toNat = 50 * (bqmTable[k]).toNat
      ∧ ((qmMatrix 99)[k]).toNat = if 75 ≤ (bqmTable[k]).toNat then 2 else 1)

/-- 42_quantizer R135 to R138: QUANT writes, for a finite element whose integer part lies in the 32-bit range, the quotient's low byte, and 0x00 for any
other; QOOR is set if there is such another and is never cleared; nothing else changes. -/
def Obligations.QuantWritesTruncatedQuotients : Prop :=
  ∀ s : State, s.qmValid = true → ∃ t, exec .quant s = .next t
    ∧ (∀ k : Fin 64, isFinite s.blk[k] = true → -2 ^ 31 ≤ truncF s.blk[k] → truncF s.blk[k] ≤ 2 ^ 31 - 1 →
        t.qb[k] = BitVec.ofInt 8 ((truncF s.blk[k]).tdiv ((s.qm[k]).toNat : Int)))
    ∧ (∀ k : Fin 64, (isFinite s.blk[k] = false ∨ truncF s.blk[k] < -2 ^ 31 ∨ 2 ^ 31 - 1 < truncF s.blk[k]) → t.qb[k] = 0x00#8)
    ∧ (t.qoor = true ↔ s.qoor = true ∨ ∃ k : Fin 64,
        isFinite s.blk[k] = false ∨ truncF s.blk[k] < -2 ^ 31 ∨ 2 ^ 31 - 1 < truncF s.blk[k])
    ∧ t = { s with qb := t.qb, qoor := t.qoor, done := true, pending := .none }

/-- 42_quantizer R139, R140: DEQUANT writes the exact product of the signed byte and the matrix entry, +0.0 for a zero product, and changes nothing
else. -/
def Obligations.DequantWritesExactProducts : Prop :=
  ∀ s : State, s.qmValid = true → ∃ t, exec .dequant s = .next t
    ∧ (∀ k : Fin 64, isFinite t.blk[k] = true
        ∧ units t.blk[k] = (s.qb[k]).toInt * ((s.qm[k]).toNat : Int) * 2 ^ 1074
        ∧ ((s.qb[k]).toInt * ((s.qm[k]).toNat : Int) = 0 → t.blk[k] = plusZero))
    ∧ t = { s with blk := t.blk, done := true, pending := .none }

/-- 42_quantizer R134, R136, R140: a quality outside 1..99 raises E_QUALITY with info Q; without a matrix QUANT and DEQUANT raise E_NOQM with their
opcode. -/
def Obligations.QuantizerUnitErrors : Prop :=
  (∀ (s : State) (q : Nat), (q < 1 ∨ 99 < q) →
    exec (.qmBuild q) s = .next { s.record .quality (BitVec.ofNat 64 q) with done := true, pending := .none })
  ∧ ∀ s : State, s.qmValid = false →
    exec .quant s = .next { s.record .noQm 0x20#64 with done := true, pending := .none }
    ∧ exec .dequant s = .next { s.record .noQm 0x21#64 with done := true, pending := .none }

/-- 42_quantizer R141: inside the byte range, dequantizing the quantized element is off by less than the matrix entry. -/
def Obligations.QuantizationLossIsBounded : Prop :=
  ∀ (x : Word) (m : Nat), isFinite x = true → 1 ≤ m → m ≤ 6050 → |truncF x| < 2 ^ 31 →
    -128 ≤ (truncF x).tdiv (m : Int) → (truncF x).tdiv (m : Int) ≤ 127 →
    |units (dqElem (qElem x m).1 m) - units x| < (m : Int) * 2 ^ 1074

/-! The zigzag unit. -/

/-- 43_zigzag R152, R153: ZZ_SCAN moves byte k to place ZZ[k], ZZ_UNSCAN fetches byte k from place ZZ[k]; nothing else changes. -/
def Obligations.ZigzagPermutesBytes : Prop :=
  ∀ s : State,
    (∃ t, exec .zzScan s = .next t ∧ (∀ k : Fin 64, t.qb[zzTable[k]] = s.qb[k])
      ∧ t = { s with qb := t.qb, done := true, pending := .none })
    ∧ (∃ t, exec .zzUnscan s = .next t ∧ (∀ k : Fin 64, t.qb[k] = s.qb[zzTable[k]])
      ∧ t = { s with qb := t.qb, done := true, pending := .none })

/-- 43_zigzag R151 (Z1), R154: the table is a bijection, and scanning then unscanning, or the other way round, leaves QB unchanged. -/
def Obligations.ZigzagRoundTrip : Prop :=
  ∀ s : State,
    (∃ t u, exec .zzScan s = .next t ∧ exec .zzUnscan t = .next u ∧ u.qb = s.qb)
    ∧ (∃ t u, exec .zzUnscan s = .next t ∧ exec .zzScan t = .next u ∧ u.qb = s.qb)

/-! The Huffman encoder. -/

/-- 44_huffman R161 to R164: the leaves are one per symbol of the input, with its count and its rank among the symbols; a non-empty pool gives up its node
with the smallest (weight, seq) and keeps the rest; one merge makes the two lowest nodes, in this order, child0 and child1 of a node with the summed weight
and the next seq; the merging ends at one node; and a path's first edge is bit 0 to child0 and bit 1 to child1. -/
def Obligations.LowestNodeIsTaken : Prop :=
  (∀ (input : List Byte) (n : HuffNode), n ∈ leafNodes input ↔ ∃ b ∈ input,
    n = { weight := input.count b, seq := (input.dedup.filter fun d => decide (d < b)).length, tree := .leaf b })
  ∧ (∀ input : List Byte, (leafNodes input).Nodup)
  ∧ (∀ pool : List HuffNode, pool ≠ [] → ∃ a rest, takeLowest pool = some (a, rest))
  ∧ (∀ (pool : List HuffNode) (a : HuffNode) (rest : List HuffNode), takeLowest pool = some (a, rest) →
    pool.Perm (a :: rest) ∧ ∀ b ∈ rest, b.before a = false)
  ∧ (∀ (fuel next : Nat) (pool rest rest2 : List HuffNode) (a b : HuffNode),
    takeLowest pool = some (a, rest) → takeLowest rest = some (b, rest2) →
    mergePool (fuel + 1) next pool
      = mergePool fuel (next + 1) ({ weight := a.weight + b.weight, seq := next, tree := .node a.tree b.tree } :: rest2))
  ∧ (∀ (fuel next : Nat) (root : HuffNode), mergePool fuel next [root] = [root])
  ∧ (∀ (fuel next : Nat) (pool : List HuffNode), pool ≠ [] → pool.length ≤ fuel + 1 → ∃ root, mergePool fuel next pool = [root])
  ∧ (∀ s : Byte, treePaths (.leaf s) = [(s, [])])
  ∧ (∀ (child0 child1 : HuffTree) (s : Byte) (p : List Bool), (s, p) ∈ treePaths (.node child0 child1) ↔
    ∃ q, (p = false :: q ∧ (s, q) ∈ treePaths child0) ∨ (p = true :: q ∧ (s, q) ∈ treePaths child1))
  ∧ ∀ (input : List Byte) (root : HuffNode),
      mergePool (leafNodes input).length (leafNodes input).length (leafNodes input) = [root] →
      (∀ s, root.tree = .leaf s → symbolCodes input = [(s, [false])])
      ∧ ∀ child0 child1, root.tree = .node child0 child1 → symbolCodes input = treePaths root.tree

/-- 44_huffman R170, R171, R167: with SYM_COUNT ≤ SYM_CAP and room in BITS, HUFF_ENC completes; every symbol of the input has a path in
the tree and an entry that holds it, its length in LEN and its first edge in bit LEN−1 of PATTERN (R164); BIT_COUNT is the sum of the code lengths, BIT_LEN its
byte count, the stream bits are the codes in input order, the pad bits are 0, BITS from BIT_LEN on is as before, symbols not in the input have entry
(0, 0), and nothing else changes. -/
def Obligations.HuffEncWritesTableAndStream : Prop :=
  ∀ s : State, s.bits.wf → s.symCount.toNat ≤ s.params.symCap.toNat →
    bytesFor (totalBits (codeTable (symbolCodes (s.sym.readBytes 0 s.symCount.toNat))) (s.sym.readBytes 0 s.symCount.toNat))
      ≤ s.params.bitCap.toNat →
    ∃ t, exec .huffEnc s = .next t
      ∧ t.ht = codeTable (symbolCodes (s.sym.readBytes 0 s.symCount.toNat))
      ∧ (∀ b ∈ s.sym.readBytes 0 s.symCount.toNat, ∃ p, (b, p) ∈ symbolCodes (s.sym.readBytes 0 s.symCount.toNat))
      ∧ (∀ b p, (b, p) ∈ symbolCodes (s.sym.readBytes 0 s.symCount.toNat) →
        (at8 t.ht b).len.toNat = p.length
        ∧ ∀ i, i < p.length → some ((at8 t.ht b).pattern.getLsbD (p.length - 1 - i)) = p[i]?)
      ∧ t.bitCount.toNat = ((s.sym.readBytes 0 s.symCount.toNat).map fun b => (at8 t.ht b).len.toNat).sum
      ∧ t.bitLen.toNat = (t.bitCount.toNat + 7) / 8
      ∧ (∀ i, i < t.bitCount.toNat → some (streamBit t.bits i)
          = ((s.sym.readBytes 0 s.symCount.toNat).flatMap fun b => codeBits (at8 t.ht b))[i]?)
      ∧ (∀ i, t.bitCount.toNat ≤ i → i < 8 * t.bitLen.toNat → streamBit t.bits i = false)
      ∧ (∀ a, t.bitLen.toNat ≤ a → t.bits.read a = s.bits.read a)
      ∧ (∀ b : Byte, b ∉ s.sym.readBytes 0 s.symCount.toNat → at8 t.ht b = { len := 0, pattern := 0 })
      ∧ t = { s with ht := t.ht, bits := t.bits, bitCount := t.bitCount, bitLen := t.bitLen, done := true, pending := .none }

/-- 44_huffman R165: the empty input gives no codes, BIT_COUNT = 0 and BIT_LEN = 0 and writes no byte of BITS; n copies of one symbol give it the
one-bit code 0 and n stream bits. -/
def Obligations.HuffEncDegenerateInputs : Prop :=
  ∀ s : State,
    (s.symCount = 0 → exec .huffEnc s = .next { s with
      ht := Vector.replicate 256 { len := 0, pattern := 0 }, bitCount := 0, bitLen := 0, done := true, pending := .none })
    ∧ (∀ b : Byte, 0 < s.symCount.toNat → s.symCount.toNat ≤ s.params.symCap.toNat →
        (s.symCount.toNat + 7) / 8 ≤ s.params.bitCap.toNat →
        (∀ a, a < s.symCount.toNat → s.sym.read a = b) →
        ∃ t, exec .huffEnc s = .next t ∧ at8 t.ht b = { len := 1, pattern := 0 }
          ∧ (∀ d, d ≠ b → at8 t.ht d = { len := 0, pattern := 0 }) ∧ t.bitCount.toNat = s.symCount.toNat)

/-- 44_huffman R171: SYM_COUNT > SYM_CAP raises E_SYMCOUNT; otherwise a stream that does not fit BITS raises E_BITCAP with the number of bits; with
SYM_COUNT ≤ SYM_CAP and 45·SYM_COUNT ≤ 8·BIT_CAP there is neither. -/
def Obligations.HuffEncCapacityErrors : Prop :=
  ∀ s : State,
    (s.params.symCap.toNat < s.symCount.toNat →
      exec .huffEnc s = .next { s.record .symCount (s.symCount.setWidth 64) with done := true, pending := .none })
    ∧ (s.symCount.toNat ≤ s.params.symCap.toNat →
      ∀ total, total = totalBits (codeTable (symbolCodes (s.sym.readBytes 0 s.symCount.toNat))) (s.sym.readBytes 0 s.symCount.toNat) →
        s.params.bitCap.toNat < (total + 7) / 8 →
        exec .huffEnc s = .next { s.record .bitCap (BitVec.ofNat 64 total) with done := true, pending := .none })
    ∧ (s.symCount.toNat ≤ s.params.symCap.toNat → 45 * s.symCount.toNat ≤ 8 * s.params.bitCap.toNat →
      ∃ t, exec .huffEnc s = .next t ∧ t.errorLog = s.errorLog)

/-- 44_huffman R168: no input shorter than 2^32 bytes gets a code longer than 45 bits. -/
def Obligations.CodeLengthsAtMost45 : Prop :=
  ∀ input : List Byte, input.length < 2 ^ 32 → ∀ p ∈ symbolCodes input, p.2.length ≤ 45

/-- 44_huffman R169 (H1): the present symbols, and no others, have codes in the table, and no code is the start of another's. -/
def Obligations.EncoderCodesArePrefixFree : Prop :=
  ∀ input : List Byte, input.length < 2 ^ 32 →
    (∀ b : Byte, 0 < (at8 (codeTable (symbolCodes input)) b).len.toNat ↔ b ∈ input)
    ∧ (∀ b d : Byte, b ∈ input → d ∈ input → b ≠ d →
        ¬ (codeBits (at8 (codeTable (symbolCodes input)) b)).IsPrefix (codeBits (at8 (codeTable (symbolCodes input)) d)))

/-- 44_huffman R169 (H2): with two or more distinct symbols the code lengths meet Kraft's equality. -/
def Obligations.EncoderCodesMeetKraftEquality : Prop :=
  ∀ input : List Byte, input.length < 2 ^ 32 → 2 ≤ (presentSymbols input).length →
    ((presentSymbols input).map fun b => 2 ^ (48 - (at8 (codeTable (symbolCodes input)) b).len.toNat)).sum = 2 ^ 48

/-! The Huffman decoder. -/

/-- 44_huffman R177, R178: on a well-formed table in which no code starts another's, a stream that is the codes of at most SYM_CAP symbols decodes to
those symbols; SYM beyond them is as before and nothing else changes. -/
def Obligations.HuffDecReadsCodeSequence : Prop :=
  ∀ (s : State) (out : List Byte), s.sym.wf →
    s.bitLen.toNat ≤ s.params.bitCap.toNat → s.bitCount.toNat ≤ 8 * s.bitLen.toNat →
    (∀ b : Byte, entryWellFormed (at8 s.ht b) = true) →
    (∀ b d : Byte, b ≠ d → 0 < (at8 s.ht b).len.toNat → 0 < (at8 s.ht d).len.toNat →
      ¬ (codeBits (at8 s.ht b)).IsPrefix (codeBits (at8 s.ht d))) →
    out.length ≤ s.params.symCap.toNat → (∀ b ∈ out, 0 < (at8 s.ht b).len.toNat) →
    s.bitCount.toNat = (out.flatMap fun b => codeBits (at8 s.ht b)).length →
    (∀ i, i < s.bitCount.toNat → some (streamBit s.bits i) = (out.flatMap fun b => codeBits (at8 s.ht b))[i]?) →
    ∃ t, exec .huffDec s = .next t
      ∧ t.symCount.toNat = out.length
      ∧ (∀ a, a < out.length → some (t.sym.read a) = out[a]?)
      ∧ (∀ a, out.length ≤ a → t.sym.read a = s.sym.read a)
      ∧ t = { s with sym := t.sym, symCount := t.symCount, done := true, pending := .none }

/-- 44_huffman R177, R178: whatever the table, a decode that records no error has read exactly BIT_COUNT bits, and they are the codes of the symbols it
put out, of which there are at most SYM_CAP. -/
def Obligations.HuffDecOutputExplainsStream : Prop :=
  ∀ s t : State, s.sym.wf → exec .huffDec s = .next t → t.errorLog = s.errorLog →
    t.symCount.toNat ≤ s.params.symCap.toNat
    ∧ ((t.sym.readBytes 0 t.symCount.toNat).flatMap fun b => codeBits (at8 s.ht b)).length = s.bitCount.toNat
    ∧ ∀ i, i < s.bitCount.toNat →
        some (streamBit s.bits i) = ((t.sym.readBytes 0 t.symCount.toNat).flatMap fun b => codeBits (at8 s.ht b))[i]?

/-- 44_huffman R174 to R176, 60_exceptions R212: the three checks before the walk, in their order. -/
def Obligations.HuffDecChecksInOrder : Prop :=
  ∀ s : State,
    (s.params.bitCap.toNat < s.bitLen.toNat →
      exec .huffDec s = .next { s.record .bitLen (s.bitLen.setWidth 64) with done := true, pending := .none })
    ∧ (s.bitLen.toNat ≤ s.params.bitCap.toNat → 8 * s.bitLen.toNat < s.bitCount.toNat →
      exec .huffDec s = .next { s.record .trunc s.bitCount with done := true, pending := .none })
    ∧ (s.bitLen.toNat ≤ s.params.bitCap.toNat → s.bitCount.toNat ≤ 8 * s.bitLen.toNat →
      ∀ b : Byte, ¬ ((at8 s.ht b).len.toNat ≤ 48 ∧ (at8 s.ht b).pattern.toNat < 2 ^ (at8 s.ht b).len.toNat) →
        (∀ d : Byte, d < b → (at8 s.ht d).len.toNat ≤ 48 ∧ (at8 s.ht d).pattern.toNat < 2 ^ (at8 s.ht d).len.toNat) →
        exec .huffDec s = .next { s.record .table (b.setWidth 64) with done := true, pending := .none })

/-- 44_huffman R177 to R179, 60_exceptions R212: the symbol matched is the smallest whose entry is the prefix read so far, by length and value; E_NOMATCH
comes at the longest LEN with no match, E_SYMCAP at a match with SYM_CAP symbols out, E_PARTIAL at a stream that ends inside a code, each with its position.
The last clause says it of HUFF_DEC, turn by turn from its start: each turn reads one more bit and then puts out the lowest match, goes on inside a code
that some LEN still exceeds, or ends the command with the error; after BIT_COUNT bits a code in progress is E_PARTIAL, and otherwise there is no error. -/
def Obligations.DecoderWalkMatchesAndStops : Prop :=
  (∀ (t : Vector HtEntry 256) (plen pat : Nat),
    (∀ b : Byte, matchCode t plen pat = some b ↔
      (at8 t b).len.toNat = plen ∧ (at8 t b).pattern.toNat = pat
      ∧ ∀ d : Byte, d < b → ¬ ((at8 t d).len.toNat = plen ∧ (at8 t d).pattern.toNat = pat))
    ∧ (matchCode t plen pat = none ↔ ∀ b : Byte, ¬ ((at8 t b).len.toNat = plen ∧ (at8 t b).pattern.toNat = pat)))
  ∧ (∀ (t : Vector HtEntry 256) (symCap longest : Nat) (b : Bool) (k : Walk),
    (matchCode t (k.plen + 1) (2 * k.pat + b.toNat) = none → longest ≤ k.plen + 1 →
      walkBit t symCap longest b k = .error (.noMatch, BitVec.ofNat 64 (k.pos + 1)))
    ∧ (∀ d, matchCode t (k.plen + 1) (2 * k.pat + b.toNat) = some d → k.out.length = symCap →
      walkBit t symCap longest b k = .error (.symCap, BitVec.ofNat 64 (k.pos + 1))))
  ∧ (∀ (t : Vector HtEntry 256) (stream : Nat → Bool) (symCap n : Nat) (k : Walk),
    walkStream t stream symCap (maxLen t) n { out := [], plen := 0, pat := 0, pos := 0 } = .ok k → k.plen ≠ 0 →
      decodeStream t stream symCap n = .error (.partialCode, BitVec.ofNat 64 (k.pos - k.plen)))
  ∧ (∀ t : Vector HtEntry 256, (∀ b : Byte, (at8 t b).len.toNat ≤ maxLen t) ∧ ∃ b : Byte, (at8 t b).len.toNat = maxLen t)
  ∧ ∀ s : State, s.DecodeChecksPass →
    s.DecoderStandsAt 0 { out := [], plen := 0, pat := 0, pos := 0 }
    ∧ (∀ (n : Nat) (k : Walk), n < s.bitCount.toNat → s.DecoderStandsAt n k →
      ∀ plen pat, plen = k.plen + 1 → pat = 2 * k.pat + (streamBit s.bits n).toNat →
        ((∀ b : Byte, ¬ ((at8 s.ht b).len.toNat = plen ∧ (at8 s.ht b).pattern.toNat = pat)) → (∀ b : Byte, (at8 s.ht b).len.toNat ≤ plen) →
          exec .huffDec s = .next { s.record .noMatch (BitVec.ofNat 64 (n + 1)) with done := true, pending := .none })
        ∧ ((∀ b : Byte, ¬ ((at8 s.ht b).len.toNat = plen ∧ (at8 s.ht b).pattern.toNat = pat)) → (∃ b : Byte, plen < (at8 s.ht b).len.toNat) →
          s.DecoderStandsAt (n + 1) { out := k.out, plen := plen, pat := pat, pos := n + 1 })
        ∧ (∀ b : Byte, IsLowestMatch s.ht plen pat b → k.out.length = s.params.symCap.toNat →
          exec .huffDec s = .next { s.record .symCap (BitVec.ofNat 64 (n + 1)) with done := true, pending := .none })
        ∧ (∀ b : Byte, IsLowestMatch s.ht plen pat b → k.out.length ≠ s.params.symCap.toNat →
          s.DecoderStandsAt (n + 1) { out := b :: k.out, plen := 0, pat := 0, pos := n + 1 }))
    ∧ ∀ k : Walk, s.DecoderStandsAt s.bitCount.toNat k →
      (k.plen ≠ 0 →
        exec .huffDec s = .next { s.record .partialCode (BitVec.ofNat 64 (s.bitCount.toNat - k.plen)) with done := true, pending := .none })
      ∧ (k.plen = 0 → ∃ t, exec .huffDec s = .next t ∧ t.errorLog = s.errorLog ∧ t.symCount.toNat = k.out.length)

/-- 44_huffman R180: HUFF_ENC then HUFF_DEC, with 45·n ≤ 8·BIT_CAP, completes with no error and leaves SYM and SYM_COUNT as they were. -/
def Obligations.HuffmanRoundTrip : Prop :=
  ∀ s : State, s.sym.wf → s.bits.wf → s.symCount.toNat ≤ s.params.symCap.toNat →
    45 * s.symCount.toNat ≤ 8 * s.params.bitCap.toNat →
    ∃ t u, exec .huffEnc s = .next t ∧ exec .huffDec t = .next u
      ∧ u.sym = s.sym ∧ u.symCount = s.symCount ∧ u.errorLog = s.errorLog

/-! Orchestration. -/

/-- 45_orchestration R190: the word 0 is NOP; it sets DONE, ends the busy period and changes nothing else. -/
def Obligations.NopOnlySetsDone : Prop :=
  decode 0x0000000000000000#64 = .ok .nop ∧ ∀ s : State, exec .nop s = .next { s with done := true, pending := .none }

/-- 45_orchestration R194, R195: RUN_PUT r with run r in range copies QB to SYM[64r .. 64r+63]; every other byte of SYM, SYM_COUNT and all else is as
before. A run that is not in range raises E_RANGE with info R. -/
def Obligations.RunPutStoresRun : Prop :=
  ∀ (s : State) (r : Nat),
    (s.sym.wf → 64 * r + 64 ≤ s.params.symCap.toNat → ∃ t, exec (.runPut r) s = .next t
      ∧ (∀ k : Fin 64, t.sym.read (64 * r + k.val) = s.qb[k])
      ∧ (∀ a, a < 64 * r ∨ 64 * r + 64 ≤ a → t.sym.read a = s.sym.read a)
      ∧ t = { s with sym := t.sym, done := true, pending := .none })
    ∧ (s.params.symCap.toNat < 64 * r + 64 →
      exec (.runPut r) s = .next { s.record .range (BitVec.ofNat 64 r) with done := true, pending := .none })

/-- 45_orchestration R194, R196: RUN_GET r with run r in range copies SYM[64r .. 64r+63] to QB and changes nothing else. A run that is not in range
raises E_RANGE with info R. -/
def Obligations.RunGetLoadsRun : Prop :=
  ∀ (s : State) (r : Nat),
    (64 * r + 64 ≤ s.params.symCap.toNat → ∃ t, exec (.runGet r) s = .next t
      ∧ (∀ k : Fin 64, t.qb[k] = s.sym.read (64 * r + k.val))
      ∧ t = { s with qb := t.qb, done := true, pending := .none })
    ∧ (s.params.symCap.toNat < 64 * r + 64 →
      exec (.runGet r) s = .next { s.record .range (BitVec.ofNat 64 r) with done := true, pending := .none })

/-- 45_orchestration R202: a block of 128.0 compresses to zero bytes and decompresses to 128.0 in every cell, with any matrix. -/
def Obligations.ConstantBlockRoundTrip : Prop :=
  ∀ s : State, s.qmValid = true → (∀ k : Fin 64, s.blk[k] = f128) →
    ∃ s1 s2 s3 s4 s5 s6 s7 s8, exec .lshiftDn s = .next s1 ∧ exec .fdct s1 = .next s2 ∧ exec .quant s2 = .next s3
      ∧ exec .zzScan s3 = .next s4 ∧ exec .zzUnscan s4 = .next s5 ∧ exec .dequant s5 = .next s6 ∧ exec .idct s6 = .next s7
      ∧ exec .lshiftUp s7 = .next s8
      ∧ (∀ k : Fin 64, s4.qb[k] = 0x00#8) ∧ s4.qoor = s.qoor ∧ (∀ k : Fin 64, s8.blk[k] = f128)

/-! Errors and the interrupt. -/

/-- 60_exceptions R211, R213: with ERR = 0 the error is recorded; with ERR = 1 nothing but the ghost log changes (R226). The codes are those of R211, 0x01
to 0x0E, one per cause. -/
def Obligations.FirstErrorIsHeld : Prop :=
  (∀ (s : State) (c : ErrorCode) (info : Word),
    (s.err = false → s.record c info
      = { s with err := true, errCode := c.byte, errInfo := info, errorLog := s.errorLog ++ [(c, info)] })
    ∧ (s.err = true → s.record c info = { s with errorLog := s.errorLog ++ [(c, info)] }))
  ∧ [ErrorCode.illegal, .busy, .quality, .noQm, .range, .symCount, .bitCap, .bitLen, .trunc, .table, .noMatch, .partialCode, .symCap,
      .port].map ErrorCode.byte = (List.range 14).map fun n => BitVec.ofNat 8 (n + 1)

/-- 20_memory R70, 60_exceptions R212, R214: every command completes, in every state, with DONE = 1 and nothing in flight; either no error is logged,
or exactly one is, and then the command changed nothing else. -/
def Obligations.CommandsCompleteAtomically : Prop :=
  ∀ (i : Instr) (s : State), ∃ t, exec i s = .next t ∧ t.done = true ∧ t.pending = .none
    ∧ ((t.errorLog = s.errorLog ∧ t.err = s.err ∧ t.errCode = s.errCode ∧ t.errInfo = s.errInfo)
      ∨ ∃ c info, t = { s.record c info with done := true, pending := .none })

/-- 10_state R42 to R47, R51: which commands write which buffer and flag. Each clause names the commands that may; no command touches a port index, CMD,
IRQ_EN or a parameter. -/
def Obligations.CommandsWriteOnlyTheirBuffers : Prop :=
  ∀ (i : Instr) (s t : State), exec i s = .next t →
    (t.blk ≠ s.blk → i = .fdct ∨ i = .idct ∨ i = .dequant ∨ i = .lshiftDn ∨ i = .lshiftUp)
    ∧ (t.qb ≠ s.qb → i = .quant ∨ i = .zzScan ∨ i = .zzUnscan ∨ ∃ r, i = .runGet r)
    ∧ (t.qm ≠ s.qm ∨ t.quality ≠ s.quality ∨ t.qmValid ≠ s.qmValid → ∃ q, i = .qmBuild q)
    ∧ (t.sym ≠ s.sym → i = .huffDec ∨ ∃ r, i = .runPut r)
    ∧ (t.symCount ≠ s.symCount → i = .huffDec)
    ∧ (t.bits ≠ s.bits ∨ t.ht ≠ s.ht ∨ t.bitCount ≠ s.bitCount ∨ t.bitLen ≠ s.bitLen → i = .huffEnc)
    ∧ (t.qoor ≠ s.qoor → i = .quant ∧ t.qoor = true)
    ∧ t.params = s.params ∧ t.cmd = s.cmd ∧ t.doneEn = s.doneEn ∧ t.errEn = s.errEn
    ∧ t.blkIdx = s.blkIdx ∧ t.qbIdx = s.qbIdx ∧ t.qmIdx = s.qmIdx ∧ t.symAddr = s.symAddr ∧ t.bitAddr = s.bitAddr
    ∧ t.htIdx = s.htIdx ∧ t.romSel = s.romSel ∧ t.romIdx = s.romIdx
    ∧ t.events = s.events ∧ t.history = s.history ∧ t.draws = s.draws

/-- 60_exceptions R220, R221: irq is the OR of the two enabled pending bits, and the completion of a command with DONE_EN = 1 raises it. -/
def Obligations.IrqFollowsPendingBits : Prop :=
  (∀ s : State, s.irq = ((s.done && s.doneEn) || (s.err && s.errEn)))
  ∧ ∀ (i : Instr) (s t : State), exec i s = .next t → t.irq = (s.doneEn || (t.err && s.errEn))

/-- 10_state R26: a STATUS write clears DONE, the error record and QOOR by bits 1, 2 and 3 and does nothing else, busy or not. -/
def Obligations.StatusWriteClearsBits : Prop :=
  ∀ (s : State) (w : Word), s.hostWrite .status w = { s with
    done := if w.getLsbD 1 then false else s.done
    err := if w.getLsbD 2 then false else s.err
    errCode := if w.getLsbD 2 then 0 else s.errCode
    errInfo := if w.getLsbD 2 then 0 else s.errInfo
    qoor := if w.getLsbD 3 then false else s.qoor }

/-- 10_state R25, R49: the fields of STATUS on a read, bit by bit, BUSY 1 exactly when something is in flight; the read has no side effect, busy or not. -/
def Obligations.StatusReadShowsFields : Prop :=
  ∀ s : State, ∃ v, s.hostRead .status = (v, s)
    ∧ (v.getLsbD 0 = true ↔ s.pending ≠ .none) ∧ v.getLsbD 1 = s.done ∧ v.getLsbD 2 = s.err ∧ v.getLsbD 3 = s.qoor ∧ v.getLsbD 4 = s.qmValid
    ∧ (∀ i, 5 ≤ i → i < 8 → v.getLsbD i = false) ∧ v.extractLsb' 8 8 = s.errCode ∧ (∀ i, 16 ≤ i → v.getLsbD i = false)

/-! Host accesses. -/

/-- 10_state R22 to R24, R27 to R41: what a read of each register that is no port returns when idle; it has no side effect. -/
def Obligations.IdleReadsOfPlainRegisters : Prop :=
  ∀ s : State, s.busy = false →
    s.hostRead .id = (0x53444F434F520007#64, s)
    ∧ s.hostRead .caps = (s.params.bitCap ++ s.params.symCap, s)
    ∧ s.hostRead .ctrl = (0, s)
    ∧ s.hostRead .irqEn = (0#62 ++ BitVec.ofBool s.errEn ++ BitVec.ofBool s.doneEn, s)
    ∧ s.hostRead .cmd = (s.cmd, s)
    ∧ s.hostRead .errInfo = (s.errInfo, s)
    ∧ s.hostRead .quality = (s.quality.setWidth 64, s)
    ∧ s.hostRead .symCount = (s.symCount.setWidth 64, s)
    ∧ s.hostRead .bitCount = (s.bitCount, s)
    ∧ s.hostRead .bitLen = (s.bitLen.setWidth 64, s)
    ∧ s.hostRead .blkIdx = (s.blkIdx.setWidth 64, s)
    ∧ s.hostRead .qbIdx = (s.qbIdx.setWidth 64, s)
    ∧ s.hostRead .qmIdx = (s.qmIdx.setWidth 64, s)
    ∧ s.hostRead .symAddr = (s.symAddr.setWidth 64, s)
    ∧ s.hostRead .bitAddr = (s.bitAddr.setWidth 64, s)
    ∧ s.hostRead .htIdx = (s.htIdx.setWidth 64, s)
    ∧ s.hostRead .romIdx = (0#54 ++ s.romSel ++ 0#2 ++ s.romIdx, s)
    ∧ ∀ k, s.hostRead (.reserved k) = (0, s)

/-- 10_state R34 to R36, R39, R40, 20_memory R63: an idle access of a port that cannot be out of range returns or replaces the indexed element, leaves
every other element, and advances the index, wrapping at the end of the buffer; ROM_DATA returns the entry of COS, BQM, ZZ or ALPHA that SEL names. -/
def Obligations.IdleIndexedPortsAdvance : Prop :=
  ∀ (s : State) (w : Word), s.busy = false →
    s.hostRead .blkData = (at6 s.blk s.blkIdx, { s with blkIdx := BitVec.ofNat 6 ((s.blkIdx.toNat + 1) % 64) })
    ∧ s.hostRead .qbData = ((at6 s.qb s.qbIdx).setWidth 64, { s with qbIdx := BitVec.ofNat 6 ((s.qbIdx.toNat + 1) % 64) })
    ∧ s.hostRead .qmData = ((at6 s.qm s.qmIdx).setWidth 64, { s with qmIdx := BitVec.ofNat 6 ((s.qmIdx.toNat + 1) % 64) })
    ∧ s.hostRead .htData = (0#10 ++ (at8 s.ht s.htIdx).len ++ (at8 s.ht s.htIdx).pattern,
        { s with htIdx := BitVec.ofNat 8 ((s.htIdx.toNat + 1) % 256) })
    ∧ s.hostRead .romData = (romWord s.romSel ⟨s.romIdx.toNat, s.romIdx.isLt⟩,
        { s with romIdx := BitVec.ofNat 6 ((s.romIdx.toNat + 1) % 64) })
    ∧ (∀ k : Fin 64, k.val = s.romIdx.toNat →
      (s.romSel = 0 → (s.hostRead .romData).1 = cosRom (rowOf k) (colOf k))
      ∧ (s.romSel = 1 → (s.hostRead .romData).1 = (bqmTable[k]).setWidth 64)
      ∧ (s.romSel = 2 → (s.hostRead .romData).1 = BitVec.ofNat 64 (zzTable[k]).val)
      ∧ (s.romSel = 3 → (s.hostRead .romData).1 = alphaRom (rowOf k) (colOf k)))
    ∧ (∃ t, s.hostWrite .blkData w = t ∧ at6 t.blk s.blkIdx = w ∧ (∀ k, k ≠ s.blkIdx → at6 t.blk k = at6 s.blk k)
      ∧ t = { s with blk := t.blk, blkIdx := BitVec.ofNat 6 ((s.blkIdx.toNat + 1) % 64) })
    ∧ (∃ t, s.hostWrite .qbData w = t ∧ at6 t.qb s.qbIdx = w.extractLsb' 0 8 ∧ (∀ k, k ≠ s.qbIdx → at6 t.qb k = at6 s.qb k)
      ∧ t = { s with qb := t.qb, qbIdx := BitVec.ofNat 6 ((s.qbIdx.toNat + 1) % 64) })
    ∧ (∃ t, s.hostWrite .htData w = t
      ∧ at8 t.ht s.htIdx = { len := w.extractLsb' 48 6, pattern := w.extractLsb' 0 48 }
      ∧ (∀ k, k ≠ s.htIdx → at8 t.ht k = at8 s.ht k)
      ∧ t = { s with ht := t.ht, htIdx := BitVec.ofNat 8 ((s.htIdx.toNat + 1) % 256) })

/-- 10_state R37, R38, 20_memory R63: an idle access of SYM_DATA or BIT_DATA in range reaches the addressed byte, leaves every other byte, and advances
the address by one without wrapping. -/
def Obligations.IdleBytePortsInRange : Prop :=
  ∀ (s : State) (w : Word), s.busy = false →
    (s.symAddr.toNat < s.params.symCap.toNat →
      s.hostRead .symData = ((s.sym.read s.symAddr.toNat).setWidth 64, { s with symAddr := BitVec.ofNat 32 (s.symAddr.toNat + 1) })
      ∧ s.symAddr.toNat + 1 < 2 ^ 32
      ∧ (s.sym.wf → ∃ t, s.hostWrite .symData w = t
        ∧ (∀ a, t.sym.read a = if a = s.symAddr.toNat then w.extractLsb' 0 8 else s.sym.read a)
        ∧ t = { s with sym := t.sym, symAddr := BitVec.ofNat 32 (s.symAddr.toNat + 1) }))
    ∧ (s.bitAddr.toNat < s.params.bitCap.toNat →
      s.hostRead .bitData = ((s.bits.read s.bitAddr.toNat).setWidth 64, { s with bitAddr := BitVec.ofNat 32 (s.bitAddr.toNat + 1) })
      ∧ s.bitAddr.toNat + 1 < 2 ^ 32
      ∧ (s.bits.wf → ∃ t, s.hostWrite .bitData w = t
        ∧ (∀ a, t.bits.read a = if a = s.bitAddr.toNat then w.extractLsb' 0 8 else s.bits.read a)
        ∧ t = { s with bits := t.bits, bitAddr := BitVec.ofNat 32 (s.bitAddr.toNat + 1) }))

/-- 20_memory R66: an idle access of SYM_DATA or BIT_DATA out of range returns 0 or drops the write, does not advance, and records E_PORT with the offset
above the address. -/
def Obligations.OutOfRangePortRecordsPort : Prop :=
  ∀ (s : State) (w : Word), s.busy = false →
    (s.params.symCap.toNat ≤ s.symAddr.toNat →
      s.hostRead .symData = (0, s.record .port (0x00000090#32 ++ s.symAddr))
      ∧ s.hostWrite .symData w = s.record .port (0x00000090#32 ++ s.symAddr))
    ∧ (s.params.bitCap.toNat ≤ s.bitAddr.toNat →
      s.hostRead .bitData = (0, s.record .port (0x000000A0#32 ++ s.bitAddr))
      ∧ s.hostWrite .bitData w = s.record .port (0x000000A0#32 ++ s.bitAddr))

/-- 10_state R27, R28, R31 to R41, 20_memory R64: what an idle write of each plain register stores; a CMD write accepts the command; a write to a read-only
register or a reserved slot is ignored. -/
def Obligations.IdleWritesOfPlainRegisters : Prop :=
  ∀ (s : State) (w : Word), s.busy = false →
    s.hostWrite .cmd w = { s with cmd := w, pending := .cmd w }
    ∧ s.hostWrite .irqEn w = { s with doneEn := w.getLsbD 0, errEn := w.getLsbD 1 }
    ∧ s.hostWrite .symCount w = { s with symCount := w.setWidth 32 }
    ∧ s.hostWrite .bitCount w = { s with bitCount := w }
    ∧ s.hostWrite .bitLen w = { s with bitLen := w.setWidth 32 }
    ∧ s.hostWrite .blkIdx w = { s with blkIdx := w.setWidth 6 }
    ∧ s.hostWrite .qbIdx w = { s with qbIdx := w.setWidth 6 }
    ∧ s.hostWrite .qmIdx w = { s with qmIdx := w.setWidth 6 }
    ∧ s.hostWrite .symAddr w = { s with symAddr := w.setWidth 32 }
    ∧ s.hostWrite .bitAddr w = { s with bitAddr := w.setWidth 32 }
    ∧ s.hostWrite .htIdx w = { s with htIdx := w.setWidth 8 }
    ∧ s.hostWrite .romIdx w = { s with romSel := w.extractLsb' 8 2, romIdx := w.setWidth 6 }
    ∧ ∀ r, r = .id ∨ r = .caps ∨ r = .errInfo ∨ r = .quality ∨ r = .qmData ∨ r = .romData ∨ (∃ k, r = .reserved k) →
        s.hostWrite r w = s

/-- 20_memory R67, 60_exceptions R215: while BUSY, writes of CTRL, STATUS and IRQ_EN are performed as when idle, a reserved write is ignored, and any
other write changes nothing and records E_BUSY with the offset; reads of ID, CAPS, CTRL, STATUS, IRQ_EN, CMD, ERRINFO and reserved slots are as when idle,
and any other read returns the next unspecified value with no side effect on the block (the counter of such values is the model's own, log 4). -/
def Obligations.BusyAccessRules : Prop :=
  ∀ (s : State) (w : Word) (r : Reg), s.busy = true →
    (r = .ctrl ∨ r = .status ∨ r = .irqEn → s.hostWrite r w = s.writeReg w r)
    ∧ (∀ k, s.hostWrite (.reserved k) w = s)
    ∧ (r ≠ .ctrl → r ≠ .status → r ≠ .irqEn → (∀ k, r ≠ .reserved k) → s.hostWrite r w = s.record .busy (BitVec.ofNat 64 r.offset))
    ∧ ((r = .id ∨ r = .caps ∨ r = .ctrl ∨ r = .status ∨ r = .irqEn ∨ r = .cmd ∨ r = .errInfo ∨ ∃ k, r = .reserved k) →
      s.hostRead r = s.readReg r ∧ (s.readReg r).2 = s)
    ∧ (¬ (r = .id ∨ r = .caps ∨ r = .ctrl ∨ r = .status ∨ r = .irqEn ∨ r = .cmd ∨ r = .errInfo ∨ ∃ k, r = .reserved k) →
      s.hostRead r = (Config.busyRead s.draws, { s with draws := s.draws + 1 }))

/-! Invariants and rules of the whole machine. -/

/-- 70_reset R240: the reset state satisfies the invariant, for all parameters within the bounds of 00_scope R7. -/
def Obligations.ResetSatisfiesInvariant : Prop :=
  State.reset.Inv ∧ ∀ p : Params, p.Ok → (State.resetWith p).Inv

/-- 10_state R25, R28 to R30, R44 to R46, 60_exceptions R213: every step keeps the invariant, from every state that has it. -/
def Obligations.StepKeepsInvariant : Prop :=
  ∀ s t : State, s.Inv → step s = .next t → t.Inv

/-- 10_state R23, 60_exceptions R226, 70_reset R242: no step changes the parameters, and none but a reset from the platform removes anything from the
ghost error log; a soft reset does not. -/
def Obligations.StepKeepsParametersAndLog : Prop :=
  ∀ s t : State, step s = .next t →
    t.params = s.params ∧ ((∀ es, s.events ≠ .platformReset :: es) → s.errorLog.IsPrefix t.errorLog)

/-- 10_state R25, R26, 60_exceptions R221, R224: ERR goes from 1 to 0 only at a STATUS write with bit 2 = 1 or at a reset, soft or from the
platform. -/
def Obligations.ErrStaysUntilCleared : Prop :=
  ∀ s t : State, step s = .next t → s.err = true → t.err = false →
    (∃ a es w r, s.events = .host a :: es ∧ a.kind = .write w ∧ a.reg? s.params = some r
      ∧ ((r = .status ∧ w.getLsbD 2 = true) ∨ (r = .ctrl ∧ w.getLsbD 0 = true)))
    ∨ ∃ es, s.events = .platformReset :: es

/-- 10_state R30, R44: QM, QUALITY and QM_VALID change only at the completion of a QM_BUILD or at a reset, soft or from the
platform. -/
def Obligations.MatrixChangesOnlyByBuildOrReset : Prop :=
  ∀ s t : State, step s = .next t → (t.qm ≠ s.qm ∨ t.quality ≠ s.quality ∨ t.qmValid ≠ s.qmValid) →
    ((s.events = [] ∨ ∃ es, s.events = .sequencer :: es) ∧ ∃ w q, s.pending = .cmd w ∧ decode w = .ok (.qmBuild q))
    ∨ (∃ a es w, s.events = .host a :: es ∧ a.kind = .write w ∧ a.reg? s.params = some .ctrl ∧ w.getLsbD 0 = true)
    ∨ ∃ es, s.events = .platformReset :: es

/-- 70_reset R252: whatever admitted accesses but soft resets the host makes in the busy period, the command stays in flight and its completion writes the
same buffers, counts and matrix and logs the same errors as if it had completed at once. -/
def Obligations.ResultIsIndependentOfTiming : Prop :=
  ∀ (s : State) (w : Word) (as : List Access), s.pending = .cmd w →
    (∀ a ∈ as, (∃ r, a.reg? s.params = some r) ∧ a.isSoftReset s.params = false) →
    ∃ u t t', afterAccesses as s = .next u ∧ u.pending = .cmd w ∧ completeWord w s = .next t ∧ completeWord w u = .next t'
      ∧ t'.blk = t.blk ∧ t'.qb = t.qb ∧ t'.qm = t.qm ∧ t'.sym = t.sym ∧ t'.bits = t.bits ∧ t'.ht = t.ht
      ∧ t'.symCount = t.symCount ∧ t'.bitCount = t.bitCount ∧ t'.bitLen = t.bitLen ∧ t'.quality = t.quality ∧ t'.qmValid = t.qmValid
      ∧ ∃ es, t.errorLog = s.errorLog ++ es ∧ t'.errorLog = u.errorLog ++ es

/-- 70_reset R253: when the host has only admitted accesses to make and none is a soft reset, a command in flight has completed once they are made and the
sequencer has taken one step (log 1: the sequencer's turn comes when the host has no access left). -/
def Obligations.CommandInFlightCompletes : Prop :=
  ∀ (s : State) (w : Word) (as : List Access), s.pending = .cmd w → s.events = as.map .host →
    (∀ a ∈ as, (∃ r, a.reg? s.params = some r) ∧ a.isSoftReset s.params = false) →
    ∃ t, Host.Core.run core (as.length + 1) s = .next t ∧ t.pending = .none ∧ t.done = true
end

