-- ==== Sys2Proof/Laws/State.lean ====
section
/-! SUPPORT. One lemma per field and per named update of State, so that no proof unfolds a record update. -/

namespace Sys2Proof.Machine

/-! `State.record` -/

@[simp] theorem State.record_params (s : State) (c : ErrorCode) (info : Word): (s.record c info).params = s.params := by unfold State.record; split <;> rfl

@[simp] theorem State.record_pending (s : State) (c : ErrorCode) (info : Word): (s.record c info).pending = s.pending := by unfold State.record; split <;> rfl

@[simp] theorem State.record_done (s : State) (c : ErrorCode) (info : Word): (s.record c info).done = s.done := by unfold State.record; split <;> rfl

@[simp] theorem State.record_qoor (s : State) (c : ErrorCode) (info : Word): (s.record c info).qoor = s.qoor := by unfold State.record; split <;> rfl

@[simp] theorem State.record_qmValid (s : State) (c : ErrorCode) (info : Word): (s.record c info).qmValid = s.qmValid := by unfold State.record; split <;> rfl

@[simp] theorem State.record_doneEn (s : State) (c : ErrorCode) (info : Word): (s.record c info).doneEn = s.doneEn := by unfold State.record; split <;> rfl

@[simp] theorem State.record_errEn (s : State) (c : ErrorCode) (info : Word): (s.record c info).errEn = s.errEn := by unfold State.record; split <;> rfl

@[simp] theorem State.record_cmd (s : State) (c : ErrorCode) (info : Word): (s.record c info).cmd = s.cmd := by unfold State.record; split <;> rfl

@[simp] theorem State.record_quality (s : State) (c : ErrorCode) (info : Word): (s.record c info).quality = s.quality := by unfold State.record; split <;> rfl

@[simp] theorem State.record_symCount (s : State) (c : ErrorCode) (info : Word): (s.record c info).symCount = s.symCount := by unfold State.record; split <;> rfl

@[simp] theorem State.record_bitCount (s : State) (c : ErrorCode) (info : Word): (s.record c info).bitCount = s.bitCount := by unfold State.record; split <;> rfl

@[simp] theorem State.record_bitLen (s : State) (c : ErrorCode) (info : Word): (s.record c info).bitLen = s.bitLen := by unfold State.record; split <;> rfl

@[simp] theorem State.record_blkIdx (s : State) (c : ErrorCode) (info : Word): (s.record c info).blkIdx = s.blkIdx := by unfold State.record; split <;> rfl

@[simp] theorem State.record_qbIdx (s : State) (c : ErrorCode) (info : Word): (s.record c info).qbIdx = s.qbIdx := by unfold State.record; split <;> rfl

@[simp] theorem State.record_qmIdx (s : State) (c : ErrorCode) (info : Word): (s.record c info).qmIdx = s.qmIdx := by unfold State.record; split <;> rfl

@[simp] theorem State.record_symAddr (s : State) (c : ErrorCode) (info : Word): (s.record c info).symAddr = s.symAddr := by unfold State.record; split <;> rfl

@[simp] theorem State.record_bitAddr (s : State) (c : ErrorCode) (info : Word): (s.record c info).bitAddr = s.bitAddr := by unfold State.record; split <;> rfl

@[simp] theorem State.record_htIdx (s : State) (c : ErrorCode) (info : Word): (s.record c info).htIdx = s.htIdx := by unfold State.record; split <;> rfl

@[simp] theorem State.record_romSel (s : State) (c : ErrorCode) (info : Word): (s.record c info).romSel = s.romSel := by unfold State.record; split <;> rfl

@[simp] theorem State.record_romIdx (s : State) (c : ErrorCode) (info : Word): (s.record c info).romIdx = s.romIdx := by unfold State.record; split <;> rfl

@[simp] theorem State.record_blk (s : State) (c : ErrorCode) (info : Word): (s.record c info).blk = s.blk := by unfold State.record; split <;> rfl

@[simp] theorem State.record_qb (s : State) (c : ErrorCode) (info : Word): (s.record c info).qb = s.qb := by unfold State.record; split <;> rfl

@[simp] theorem State.record_qm (s : State) (c : ErrorCode) (info : Word): (s.record c info).qm = s.qm := by unfold State.record; split <;> rfl

@[simp] theorem State.record_sym (s : State) (c : ErrorCode) (info : Word): (s.record c info).sym = s.sym := by unfold State.record; split <;> rfl

@[simp] theorem State.record_bits (s : State) (c : ErrorCode) (info : Word): (s.record c info).bits = s.bits := by unfold State.record; split <;> rfl

@[simp] theorem State.record_ht (s : State) (c : ErrorCode) (info : Word): (s.record c info).ht = s.ht := by unfold State.record; split <;> rfl

@[simp] theorem State.record_events (s : State) (c : ErrorCode) (info : Word): (s.record c info).events = s.events := by unfold State.record; split <;> rfl

@[simp] theorem State.record_history (s : State) (c : ErrorCode) (info : Word): (s.record c info).history = s.history := by unfold State.record; split <;> rfl

@[simp] theorem State.record_draws (s : State) (c : ErrorCode) (info : Word): (s.record c info).draws = s.draws := by unfold State.record; split <;> rfl

/-! `State.finish` -/

@[simp] theorem State.finish_params (s : State) : (s.finish).params = s.params := rfl

@[simp] theorem State.finish_err (s : State) : (s.finish).err = s.err := rfl

@[simp] theorem State.finish_qoor (s : State) : (s.finish).qoor = s.qoor := rfl

@[simp] theorem State.finish_qmValid (s : State) : (s.finish).qmValid = s.qmValid := rfl

@[simp] theorem State.finish_errCode (s : State) : (s.finish).errCode = s.errCode := rfl

@[simp] theorem State.finish_doneEn (s : State) : (s.finish).doneEn = s.doneEn := rfl

@[simp] theorem State.finish_errEn (s : State) : (s.finish).errEn = s.errEn := rfl

@[simp] theorem State.finish_cmd (s : State) : (s.finish).cmd = s.cmd := rfl

@[simp] theorem State.finish_errInfo (s : State) : (s.finish).errInfo = s.errInfo := rfl

@[simp] theorem State.finish_quality (s : State) : (s.finish).quality = s.quality := rfl

@[simp] theorem State.finish_symCount (s : State) : (s.finish).symCount = s.symCount := rfl

@[simp] theorem State.finish_bitCount (s : State) : (s.finish).bitCount = s.bitCount := rfl

@[simp] theorem State.finish_bitLen (s : State) : (s.finish).bitLen = s.bitLen := rfl

@[simp] theorem State.finish_blkIdx (s : State) : (s.finish).blkIdx = s.blkIdx := rfl

@[simp] theorem State.finish_qbIdx (s : State) : (s.finish).qbIdx = s.qbIdx := rfl

@[simp] theorem State.finish_qmIdx (s : State) : (s.finish).qmIdx = s.qmIdx := rfl

@[simp] theorem State.finish_symAddr (s : State) : (s.finish).symAddr = s.symAddr := rfl

@[simp] theorem State.finish_bitAddr (s : State) : (s.finish).bitAddr = s.bitAddr := rfl

@[simp] theorem State.finish_htIdx (s : State) : (s.finish).htIdx = s.htIdx := rfl

@[simp] theorem State.finish_romSel (s : State) : (s.finish).romSel = s.romSel := rfl

@[simp] theorem State.finish_romIdx (s : State) : (s.finish).romIdx = s.romIdx := rfl

@[simp] theorem State.finish_blk (s : State) : (s.finish).blk = s.blk := rfl

@[simp] theorem State.finish_qb (s : State) : (s.finish).qb = s.qb := rfl

@[simp] theorem State.finish_qm (s : State) : (s.finish).qm = s.qm := rfl

@[simp] theorem State.finish_sym (s : State) : (s.finish).sym = s.sym := rfl

@[simp] theorem State.finish_bits (s : State) : (s.finish).bits = s.bits := rfl

@[simp] theorem State.finish_ht (s : State) : (s.finish).ht = s.ht := rfl

@[simp] theorem State.finish_errorLog (s : State) : (s.finish).errorLog = s.errorLog := rfl

@[simp] theorem State.finish_events (s : State) : (s.finish).events = s.events := rfl

@[simp] theorem State.finish_history (s : State) : (s.finish).history = s.history := rfl

@[simp] theorem State.finish_draws (s : State) : (s.finish).draws = s.draws := rfl

/-! `State.clearError` -/

@[simp] theorem State.clearError_params (s : State) : (s.clearError).params = s.params := rfl

@[simp] theorem State.clearError_pending (s : State) : (s.clearError).pending = s.pending := rfl

@[simp] theorem State.clearError_done (s : State) : (s.clearError).done = s.done := rfl

@[simp] theorem State.clearError_qoor (s : State) : (s.clearError).qoor = s.qoor := rfl

@[simp] theorem State.clearError_qmValid (s : State) : (s.clearError).qmValid = s.qmValid := rfl

@[simp] theorem State.clearError_doneEn (s : State) : (s.clearError).doneEn = s.doneEn := rfl

@[simp] theorem State.clearError_errEn (s : State) : (s.clearError).errEn = s.errEn := rfl

@[simp] theorem State.clearError_cmd (s : State) : (s.clearError).cmd = s.cmd := rfl

@[simp] theorem State.clearError_quality (s : State) : (s.clearError).quality = s.quality := rfl

@[simp] theorem State.clearError_symCount (s : State) : (s.clearError).symCount = s.symCount := rfl

@[simp] theorem State.clearError_bitCount (s : State) : (s.clearError).bitCount = s.bitCount := rfl

@[simp] theorem State.clearError_bitLen (s : State) : (s.clearError).bitLen = s.bitLen := rfl

@[simp] theorem State.clearError_blkIdx (s : State) : (s.clearError).blkIdx = s.blkIdx := rfl

@[simp] theorem State.clearError_qbIdx (s : State) : (s.clearError).qbIdx = s.qbIdx := rfl

@[simp] theorem State.clearError_qmIdx (s : State) : (s.clearError).qmIdx = s.qmIdx := rfl

@[simp] theorem State.clearError_symAddr (s : State) : (s.clearError).symAddr = s.symAddr := rfl

@[simp] theorem State.clearError_bitAddr (s : State) : (s.clearError).bitAddr = s.bitAddr := rfl

@[simp] theorem State.clearError_htIdx (s : State) : (s.clearError).htIdx = s.htIdx := rfl

@[simp] theorem State.clearError_romSel (s : State) : (s.clearError).romSel = s.romSel := rfl

@[simp] theorem State.clearError_romIdx (s : State) : (s.clearError).romIdx = s.romIdx := rfl

@[simp] theorem State.clearError_blk (s : State) : (s.clearError).blk = s.blk := rfl

@[simp] theorem State.clearError_qb (s : State) : (s.clearError).qb = s.qb := rfl

@[simp] theorem State.clearError_qm (s : State) : (s.clearError).qm = s.qm := rfl

@[simp] theorem State.clearError_sym (s : State) : (s.clearError).sym = s.sym := rfl

@[simp] theorem State.clearError_bits (s : State) : (s.clearError).bits = s.bits := rfl

@[simp] theorem State.clearError_ht (s : State) : (s.clearError).ht = s.ht := rfl

@[simp] theorem State.clearError_errorLog (s : State) : (s.clearError).errorLog = s.errorLog := rfl

@[simp] theorem State.clearError_events (s : State) : (s.clearError).events = s.events := rfl

@[simp] theorem State.clearError_history (s : State) : (s.clearError).history = s.history := rfl

@[simp] theorem State.clearError_draws (s : State) : (s.clearError).draws = s.draws := rfl

/-! `State.noteTransaction` -/

@[simp] theorem State.noteTransaction_params (s : State) (t : Transaction): (s.noteTransaction t).params = s.params := rfl

@[simp] theorem State.noteTransaction_pending (s : State) (t : Transaction): (s.noteTransaction t).pending = s.pending := rfl

@[simp] theorem State.noteTransaction_done (s : State) (t : Transaction): (s.noteTransaction t).done = s.done := rfl

@[simp] theorem State.noteTransaction_err (s : State) (t : Transaction): (s.noteTransaction t).err = s.err := rfl

@[simp] theorem State.noteTransaction_qoor (s : State) (t : Transaction): (s.noteTransaction t).qoor = s.qoor := rfl

@[simp] theorem State.noteTransaction_qmValid (s : State) (t : Transaction): (s.noteTransaction t).qmValid = s.qmValid := rfl

@[simp] theorem State.noteTransaction_errCode (s : State) (t : Transaction): (s.noteTransaction t).errCode = s.errCode := rfl

@[simp] theorem State.noteTransaction_doneEn (s : State) (t : Transaction): (s.noteTransaction t).doneEn = s.doneEn := rfl

@[simp] theorem State.noteTransaction_errEn (s : State) (t : Transaction): (s.noteTransaction t).errEn = s.errEn := rfl

@[simp] theorem State.noteTransaction_cmd (s : State) (t : Transaction): (s.noteTransaction t).cmd = s.cmd := rfl

@[simp] theorem State.noteTransaction_errInfo (s : State) (t : Transaction): (s.noteTransaction t).errInfo = s.errInfo := rfl

@[simp] theorem State.noteTransaction_quality (s : State) (t : Transaction): (s.noteTransaction t).quality = s.quality := rfl

@[simp] theorem State.noteTransaction_symCount (s : State) (t : Transaction): (s.noteTransaction t).symCount = s.symCount := rfl

@[simp] theorem State.noteTransaction_bitCount (s : State) (t : Transaction): (s.noteTransaction t).bitCount = s.bitCount := rfl

@[simp] theorem State.noteTransaction_bitLen (s : State) (t : Transaction): (s.noteTransaction t).bitLen = s.bitLen := rfl

@[simp] theorem State.noteTransaction_blkIdx (s : State) (t : Transaction): (s.noteTransaction t).blkIdx = s.blkIdx := rfl

@[simp] theorem State.noteTransaction_qbIdx (s : State) (t : Transaction): (s.noteTransaction t).qbIdx = s.qbIdx := rfl

@[simp] theorem State.noteTransaction_qmIdx (s : State) (t : Transaction): (s.noteTransaction t).qmIdx = s.qmIdx := rfl

@[simp] theorem State.noteTransaction_symAddr (s : State) (t : Transaction): (s.noteTransaction t).symAddr = s.symAddr := rfl

@[simp] theorem State.noteTransaction_bitAddr (s : State) (t : Transaction): (s.noteTransaction t).bitAddr = s.bitAddr := rfl

@[simp] theorem State.noteTransaction_htIdx (s : State) (t : Transaction): (s.noteTransaction t).htIdx = s.htIdx := rfl

@[simp] theorem State.noteTransaction_romSel (s : State) (t : Transaction): (s.noteTransaction t).romSel = s.romSel := rfl

@[simp] theorem State.noteTransaction_romIdx (s : State) (t : Transaction): (s.noteTransaction t).romIdx = s.romIdx := rfl

@[simp] theorem State.noteTransaction_blk (s : State) (t : Transaction): (s.noteTransaction t).blk = s.blk := rfl

@[simp] theorem State.noteTransaction_qb (s : State) (t : Transaction): (s.noteTransaction t).qb = s.qb := rfl

@[simp] theorem State.noteTransaction_qm (s : State) (t : Transaction): (s.noteTransaction t).qm = s.qm := rfl

@[simp] theorem State.noteTransaction_sym (s : State) (t : Transaction): (s.noteTransaction t).sym = s.sym := rfl

@[simp] theorem State.noteTransaction_bits (s : State) (t : Transaction): (s.noteTransaction t).bits = s.bits := rfl

@[simp] theorem State.noteTransaction_ht (s : State) (t : Transaction): (s.noteTransaction t).ht = s.ht := rfl

@[simp] theorem State.noteTransaction_errorLog (s : State) (t : Transaction): (s.noteTransaction t).errorLog = s.errorLog := rfl

@[simp] theorem State.noteTransaction_events (s : State) (t : Transaction): (s.noteTransaction t).events = s.events := rfl

@[simp] theorem State.noteTransaction_draws (s : State) (t : Transaction): (s.noteTransaction t).draws = s.draws := rfl

/-! `State.writeIrqEn` -/

@[simp] theorem State.writeIrqEn_params (s : State) (w : Word): (s.writeIrqEn w).params = s.params := rfl

@[simp] theorem State.writeIrqEn_pending (s : State) (w : Word): (s.writeIrqEn w).pending = s.pending := rfl

@[simp] theorem State.writeIrqEn_done (s : State) (w : Word): (s.writeIrqEn w).done = s.done := rfl

@[simp] theorem State.writeIrqEn_err (s : State) (w : Word): (s.writeIrqEn w).err = s.err := rfl

@[simp] theorem State.writeIrqEn_qoor (s : State) (w : Word): (s.writeIrqEn w).qoor = s.qoor := rfl

@[simp] theorem State.writeIrqEn_qmValid (s : State) (w : Word): (s.writeIrqEn w).qmValid = s.qmValid := rfl

@[simp] theorem State.writeIrqEn_errCode (s : State) (w : Word): (s.writeIrqEn w).errCode = s.errCode := rfl

@[simp] theorem State.writeIrqEn_cmd (s : State) (w : Word): (s.writeIrqEn w).cmd = s.cmd := rfl

@[simp] theorem State.writeIrqEn_errInfo (s : State) (w : Word): (s.writeIrqEn w).errInfo = s.errInfo := rfl

@[simp] theorem State.writeIrqEn_quality (s : State) (w : Word): (s.writeIrqEn w).quality = s.quality := rfl

@[simp] theorem State.writeIrqEn_symCount (s : State) (w : Word): (s.writeIrqEn w).symCount = s.symCount := rfl

@[simp] theorem State.writeIrqEn_bitCount (s : State) (w : Word): (s.writeIrqEn w).bitCount = s.bitCount := rfl

@[simp] theorem State.writeIrqEn_bitLen (s : State) (w : Word): (s.writeIrqEn w).bitLen = s.bitLen := rfl

@[simp] theorem State.writeIrqEn_blkIdx (s : State) (w : Word): (s.writeIrqEn w).blkIdx = s.blkIdx := rfl

@[simp] theorem State.writeIrqEn_qbIdx (s : State) (w : Word): (s.writeIrqEn w).qbIdx = s.qbIdx := rfl

@[simp] theorem State.writeIrqEn_qmIdx (s : State) (w : Word): (s.writeIrqEn w).qmIdx = s.qmIdx := rfl

@[simp] theorem State.writeIrqEn_symAddr (s : State) (w : Word): (s.writeIrqEn w).symAddr = s.symAddr := rfl

@[simp] theorem State.writeIrqEn_bitAddr (s : State) (w : Word): (s.writeIrqEn w).bitAddr = s.bitAddr := rfl

@[simp] theorem State.writeIrqEn_htIdx (s : State) (w : Word): (s.writeIrqEn w).htIdx = s.htIdx := rfl

@[simp] theorem State.writeIrqEn_romSel (s : State) (w : Word): (s.writeIrqEn w).romSel = s.romSel := rfl

@[simp] theorem State.writeIrqEn_romIdx (s : State) (w : Word): (s.writeIrqEn w).romIdx = s.romIdx := rfl

@[simp] theorem State.writeIrqEn_blk (s : State) (w : Word): (s.writeIrqEn w).blk = s.blk := rfl

@[simp] theorem State.writeIrqEn_qb (s : State) (w : Word): (s.writeIrqEn w).qb = s.qb := rfl

@[simp] theorem State.writeIrqEn_qm (s : State) (w : Word): (s.writeIrqEn w).qm = s.qm := rfl

@[simp] theorem State.writeIrqEn_sym (s : State) (w : Word): (s.writeIrqEn w).sym = s.sym := rfl

@[simp] theorem State.writeIrqEn_bits (s : State) (w : Word): (s.writeIrqEn w).bits = s.bits := rfl

@[simp] theorem State.writeIrqEn_ht (s : State) (w : Word): (s.writeIrqEn w).ht = s.ht := rfl

@[simp] theorem State.writeIrqEn_errorLog (s : State) (w : Word): (s.writeIrqEn w).errorLog = s.errorLog := rfl

@[simp] theorem State.writeIrqEn_events (s : State) (w : Word): (s.writeIrqEn w).events = s.events := rfl

@[simp] theorem State.writeIrqEn_history (s : State) (w : Word): (s.writeIrqEn w).history = s.history := rfl

@[simp] theorem State.writeIrqEn_draws (s : State) (w : Word): (s.writeIrqEn w).draws = s.draws := rfl

/-! `State.writeStatus` -/

@[simp] theorem State.writeStatus_params (s : State) (w : Word): (s.writeStatus w).params = s.params := by
  unfold State.writeStatus State.clearError; repeat' split
  all_goals rfl

@[simp] theorem State.writeStatus_pending (s : State) (w : Word): (s.writeStatus w).pending = s.pending := by
  unfold State.writeStatus State.clearError; repeat' split
  all_goals rfl

@[simp] theorem State.writeStatus_qmValid (s : State) (w : Word): (s.writeStatus w).qmValid = s.qmValid := by
  unfold State.writeStatus State.clearError; repeat' split
  all_goals rfl

@[simp] theorem State.writeStatus_doneEn (s : State) (w : Word): (s.writeStatus w).doneEn = s.doneEn := by
  unfold State.writeStatus State.clearError; repeat' split
  all_goals rfl

@[simp] theorem State.writeStatus_errEn (s : State) (w : Word): (s.writeStatus w).errEn = s.errEn := by
  unfold State.writeStatus State.clearError; repeat' split
  all_goals rfl

@[simp] theorem State.writeStatus_cmd (s : State) (w : Word): (s.writeStatus w).cmd = s.cmd := by
  unfold State.writeStatus State.clearError; repeat' split
  all_goals rfl

@[simp] theorem State.writeStatus_quality (s : State) (w : Word): (s.writeStatus w).quality = s.quality := by
  unfold State.writeStatus State.clearError; repeat' split
  all_goals rfl

@[simp] theorem State.writeStatus_symCount (s : State) (w : Word): (s.writeStatus w).symCount = s.symCount := by
  unfold State.writeStatus State.clearError; repeat' split
  all_goals rfl

@[simp] theorem State.writeStatus_bitCount (s : State) (w : Word): (s.writeStatus w).bitCount = s.bitCount := by
  unfold State.writeStatus State.clearError; repeat' split
  all_goals rfl

@[simp] theorem State.writeStatus_bitLen (s : State) (w : Word): (s.writeStatus w).bitLen = s.bitLen := by
  unfold State.writeStatus State.clearError; repeat' split
  all_goals rfl

@[simp] theorem State.writeStatus_blkIdx (s : State) (w : Word): (s.writeStatus w).blkIdx = s.blkIdx := by
  unfold State.writeStatus State.clearError; repeat' split
  all_goals rfl

@[simp] theorem State.writeStatus_qbIdx (s : State) (w : Word): (s.writeStatus w).qbIdx = s.qbIdx := by
  unfold State.writeStatus State.clearError; repeat' split
  all_goals rfl

@[simp] theorem State.writeStatus_qmIdx (s : State) (w : Word): (s.writeStatus w).qmIdx = s.qmIdx := by
  unfold State.writeStatus State.clearError; repeat' split
  all_goals rfl

@[simp] theorem State.writeStatus_symAddr (s : State) (w : Word): (s.writeStatus w).symAddr = s.symAddr := by
  unfold State.writeStatus State.clearError; repeat' split
  all_goals rfl

@[simp] theorem State.writeStatus_bitAddr (s : State) (w : Word): (s.writeStatus w).bitAddr = s.bitAddr := by
  unfold State.writeStatus State.clearError; repeat' split
  all_goals rfl

@[simp] theorem State.writeStatus_htIdx (s : State) (w : Word): (s.writeStatus w).htIdx = s.htIdx := by
  unfold State.writeStatus State.clearError; repeat' split
  all_goals rfl

@[simp] theorem State.writeStatus_romSel (s : State) (w : Word): (s.writeStatus w).romSel = s.romSel := by
  unfold State.writeStatus State.clearError; repeat' split
  all_goals rfl

@[simp] theorem State.writeStatus_romIdx (s : State) (w : Word): (s.writeStatus w).romIdx = s.romIdx := by
  unfold State.writeStatus State.clearError; repeat' split
  all_goals rfl

@[simp] theorem State.writeStatus_blk (s : State) (w : Word): (s.writeStatus w).blk = s.blk := by
  unfold State.writeStatus State.clearError; repeat' split
  all_goals rfl

@[simp] theorem State.writeStatus_qb (s : State) (w : Word): (s.writeStatus w).qb = s.qb := by
  unfold State.writeStatus State.clearError; repeat' split
  all_goals rfl

@[simp] theorem State.writeStatus_qm (s : State) (w : Word): (s.writeStatus w).qm = s.qm := by
  unfold State.writeStatus State.clearError; repeat' split
  all_goals rfl

@[simp] theorem State.writeStatus_sym (s : State) (w : Word): (s.writeStatus w).sym = s.sym := by
  unfold State.writeStatus State.clearError; repeat' split
  all_goals rfl

@[simp] theorem State.writeStatus_bits (s : State) (w : Word): (s.writeStatus w).bits = s.bits := by
  unfold State.writeStatus State.clearError; repeat' split
  all_goals rfl

@[simp] theorem State.writeStatus_ht (s : State) (w : Word): (s.writeStatus w).ht = s.ht := by
  unfold State.writeStatus State.clearError; repeat' split
  all_goals rfl

@[simp] theorem State.writeStatus_errorLog (s : State) (w : Word): (s.writeStatus w).errorLog = s.errorLog := by
  unfold State.writeStatus State.clearError; repeat' split
  all_goals rfl

@[simp] theorem State.writeStatus_events (s : State) (w : Word): (s.writeStatus w).events = s.events := by
  unfold State.writeStatus State.clearError; repeat' split
  all_goals rfl

@[simp] theorem State.writeStatus_history (s : State) (w : Word): (s.writeStatus w).history = s.history := by
  unfold State.writeStatus State.clearError; repeat' split
  all_goals rfl

@[simp] theorem State.writeStatus_draws (s : State) (w : Word): (s.writeStatus w).draws = s.draws := by
  unfold State.writeStatus State.clearError; repeat' split
  all_goals rfl

/-! `State.softReset` and `State.powerOn`: the fields that stay; every other field is that of `State.resetWith`. -/

@[simp] theorem State.softReset_params (s : State) : s.softReset.params = s.params := rfl

@[simp] theorem State.softReset_errorLog (s : State) : s.softReset.errorLog = s.errorLog := rfl

@[simp] theorem State.softReset_events (s : State) : s.softReset.events = s.events := rfl

@[simp] theorem State.softReset_history (s : State) : s.softReset.history = s.history := rfl

@[simp] theorem State.softReset_draws (s : State) : s.softReset.draws = s.draws := rfl

@[simp] theorem State.softReset_pending (s : State) : s.softReset.pending = .init := rfl

@[simp] theorem State.powerOn_params (s : State) : s.powerOn.params = s.params := rfl

@[simp] theorem State.powerOn_events (s : State) : s.powerOn.events = s.events := rfl

@[simp] theorem State.powerOn_history (s : State) : s.powerOn.history = s.history := rfl

@[simp] theorem State.powerOn_draws (s : State) : s.powerOn.draws = s.draws := rfl

@[simp] theorem State.powerOn_pending (s : State) : s.powerOn.pending = .init := rfl

/-! The fields the updates change. -/

@[simp] theorem State.finish_done (s : State) : s.finish.done = true := rfl

@[simp] theorem State.finish_pending (s : State) : s.finish.pending = .none := rfl

@[simp] theorem State.clearError_err (s : State) : s.clearError.err = false := rfl

@[simp] theorem State.clearError_errCode (s : State) : s.clearError.errCode = 0 := rfl

@[simp] theorem State.clearError_errInfo (s : State) : s.clearError.errInfo = 0 := rfl

@[simp] theorem State.noteTransaction_history (s : State) (t : Transaction) : (s.noteTransaction t).history = t :: s.history := rfl

@[simp] theorem State.writeIrqEn_doneEn (s : State) (w : Word) : (s.writeIrqEn w).doneEn = w.getLsbD 0 := rfl

@[simp] theorem State.writeIrqEn_errEn (s : State) (w : Word) : (s.writeIrqEn w).errEn = w.getLsbD 1 := rfl

@[simp] theorem State.record_err (s : State) (c : ErrorCode) (info : Word) : (s.record c info).err = true := by
  unfold State.record; split <;> simp_all

@[simp] theorem State.record_errorLog (s : State) (c : ErrorCode) (info : Word) :
    (s.record c info).errorLog = s.errorLog ++ [(c, info)] := by
  unfold State.record; split <;> rfl

theorem State.record_errCode (s : State) (c : ErrorCode) (info : Word) :
    (s.record c info).errCode = if s.err then s.errCode else c.byte := by
  unfold State.record; split <;> rfl

theorem State.record_errInfo (s : State) (c : ErrorCode) (info : Word) :
    (s.record c info).errInfo = if s.err then s.errInfo else info := by
  unfold State.record; split <;> rfl

@[simp] theorem State.writeStatus_done (s : State) (w : Word) : (s.writeStatus w).done = (s.done && !w.getLsbD 1) := by
  unfold State.writeStatus State.clearError; repeat' split
  all_goals simp_all

@[simp] theorem State.writeStatus_err (s : State) (w : Word) : (s.writeStatus w).err = (s.err && !w.getLsbD 2) := by
  unfold State.writeStatus State.clearError; repeat' split
  all_goals simp_all

@[simp] theorem State.writeStatus_qoor (s : State) (w : Word) : (s.writeStatus w).qoor = (s.qoor && !w.getLsbD 3) := by
  unfold State.writeStatus State.clearError; repeat' split
  all_goals simp_all

theorem State.writeStatus_errCode (s : State) (w : Word) :
    (s.writeStatus w).errCode = if w.getLsbD 2 then 0 else s.errCode := by
  unfold State.writeStatus State.clearError; repeat' split
  all_goals simp_all

theorem State.writeStatus_errInfo (s : State) (w : Word) :
    (s.writeStatus w).errInfo = if w.getLsbD 2 then 0 else s.errInfo := by
  unfold State.writeStatus State.clearError; repeat' split
  all_goals simp_all

end Sys2Proof.Machine
end

