-- ==== Sys2Proof/Laws/Memory.lean ====
section
/-! SUPPORT. What the buffer and memory operations do, once: reads after writes, the canonical form, the address bound. -/

namespace Sys2Proof.Machine

@[simp] theorem getElem_tab {n : Nat} {α : Type} (f : Fin n → α) (k : Nat) (h : k < n) : (tab f)[k] = f ⟨k, h⟩ := by
  simp [tab]

/-! The 6-bit and 8-bit buffer accesses. -/

theorem at6_eq {α : Type} (v : Vector α 64) (i : BitVec 6) : at6 v i = v[i.toNat]'i.isLt := rfl

theorem at8_eq (v : Vector HtEntry 256) (i : BitVec 8) : at8 v i = v[i.toNat]'i.isLt := rfl

theorem at6_set6 {α : Type} (v : Vector α 64) (i j : BitVec 6) (x : α) :
    at6 (set6 v i x) j = if i = j then x else at6 v j := by
  simp only [at6, set6, Vector.getElem_set, BitVec.toNat_inj]

theorem at8_set8 (v : Vector HtEntry 256) (i j : BitVec 8) (x : HtEntry) :
    at8 (set8 v i x) j = if i = j then x else at8 v j := by
  simp only [at8, set8, Vector.getElem_set, BitVec.toNat_inj]

/-! Reading memory. -/


@[simp] theorem Memory.read_nil (a : Nat) : Memory.read [] a = 0 := rfl

theorem Memory.read_cons (c : Host.Cell) (m : Memory) (a : Nat) :
    Memory.read (c :: m) a = if a = c.1 then c.2 else Memory.read m a := rfl

/-- An address that no cell lists reads 0. -/
theorem Memory.read_unlisted {m : Memory} {a : Nat} (h : ∀ c ∈ m, c.1 ≠ a) : Memory.read m a = 0 := by
  induction m with
  | nil => rfl
  | cons c m ih =>
    rw [Memory.read_cons, if_neg (fun e => h c (by simp) e.symm)]
    exact ih fun d hd => h d (by simp [hd])

theorem Memory.read_below_head {m : Memory} {a : Nat} (h : ∀ c ∈ m, a < c.1) : Memory.read m a = 0 :=
  Memory.read_unlisted fun c hc => Nat.ne_of_gt (h c hc)

theorem Memory.wf_tail {c : Host.Cell} {m : Memory} (h : Memory.wf (c :: m)) : Memory.wf m :=
  ⟨h.1.tail, fun d hd => h.2 d (by simp [hd])⟩

theorem Memory.wf_head {c : Host.Cell} {m : Memory} (h : Memory.wf (c :: m)) : ∀ d ∈ m, c.1 < d.1 :=
  (List.pairwise_cons.mp h.1).1

theorem Memory.wf_nil : Memory.wf [] := by simp [Memory.wf]

theorem Memory.wf_cons {c : Host.Cell} {m : Memory} (hm : Memory.wf m) (hc : c.2 ≠ 0) (hlt : ∀ d ∈ m, c.1 < d.1) : Memory.wf (c :: m) :=
  ⟨List.pairwise_cons.mpr ⟨hlt, hm.1⟩, List.forall_mem_cons.mpr ⟨hc, hm.2⟩⟩

/-- A read after a write: the byte written at its address, the old byte everywhere else. -/
theorem Memory.read_write {m : Memory} (h : Memory.wf m) (a b : Nat) (v : Byte) :
    Memory.read (Memory.write m a v) b = if b = a then v else Memory.read m b := by
  induction m with
  | nil =>
    rw [Memory.write]
    split
    · rename_i hv
      rw [Memory.read_nil, hv, ite_self]
    · rw [Memory.read_cons]
  | cons c m ih =>
    obtain ⟨d, u⟩ := c
    have hlt := Memory.wf_head h
    simp only [Memory.write]
    by_cases h1 : a < d
    · rw [if_pos h1]
      have hz : Memory.read ((d, u) :: m) a = 0 := Memory.read_below_head fun e he => by
        rcases List.mem_cons.mp he with rfl | he
        · exact h1
        · exact Nat.lt_trans h1 (hlt e he)
      by_cases hv : v = 0
      · rw [if_pos hv]
        by_cases hb : b = a
        · rw [if_pos hb, hb, hz, hv]
        · rw [if_neg hb]
      · rw [if_neg hv, Memory.read_cons]
    · rw [if_neg h1]
      by_cases h2 : a = d
      · subst h2
        rw [if_pos rfl]
        by_cases hv : v = 0
        · rw [if_pos hv, Memory.read_cons]
          by_cases hb : b = a
          · rw [if_pos hb, hb, hv]
            exact Memory.read_below_head hlt
          · simp [hb]
        · rw [if_neg hv, Memory.read_cons, Memory.read_cons]
          by_cases hb : b = a <;> simp [hb]
      · rw [if_neg h2, Memory.read_cons, Memory.read_cons, ih (Memory.wf_tail h)]
        by_cases hb : b = d
        · have : b ≠ a := fun e => h2 (e.symm.trans hb)
          simp [hb, show d ≠ a from fun e => h2 e.symm]
        · simp [hb]

/-- The cells of a memory after a write are the written one and old ones. -/
theorem Memory.mem_write {m : Memory} {a : Nat} {v : Byte} {c : Host.Cell} (hc : c ∈ Memory.write m a v) :
    c ∈ m ∨ (c = (a, v) ∧ v ≠ 0) := by
  induction m with
  | nil =>
    by_cases hv : v = 0 <;> simp_all [Memory.write]
  | cons d m ih =>
    obtain ⟨d, u⟩ := d
    simp only [Memory.write] at hc
    split at hc
    · split at hc
      · exact .inl hc
      · rcases List.mem_cons.mp hc with rfl | hc
        · exact .inr ⟨rfl, ‹_›⟩
        · exact .inl hc
    · split at hc
      · split at hc
        · exact .inl (List.mem_cons_of_mem _ hc)
        · rcases List.mem_cons.mp hc with rfl | hc
          · exact .inr ⟨rfl, ‹_›⟩
          · exact .inl (List.mem_cons_of_mem _ hc)
      · rcases List.mem_cons.mp hc with rfl | hc
        · exact .inl (by simp)
        · rcases ih hc with h | h
          · exact .inl (List.mem_cons_of_mem _ h)
          · exact .inr h

theorem Memory.wf_write {m : Memory} (h : Memory.wf m) (a : Nat) (v : Byte) : Memory.wf (Memory.write m a v) := by
  induction m with
  | nil =>
    rw [Memory.write]
    split
    · exact Memory.wf_nil
    · exact Memory.wf_cons Memory.wf_nil ‹_› (by simp)
  | cons c m ih =>
    obtain ⟨d, u⟩ := c
    have hlt := Memory.wf_head h
    have hm := Memory.wf_tail h
    simp only [Memory.write]
    split
    · rename_i h1
      split
      · exact h
      · exact Memory.wf_cons h ‹_› fun e he => by
          rcases List.mem_cons.mp he with rfl | he
          · exact h1
          · exact Nat.lt_trans h1 (hlt e he)
    · split
      · rename_i h1 h2
        subst h2
        split
        · exact hm
        · exact Memory.wf_cons hm ‹_› hlt
      · rename_i h1 h2
        refine Memory.wf_cons (ih hm) (h.2 _ (by simp)) fun e he => ?_
        rcases Memory.mem_write he with he | ⟨rfl, -⟩
        · exact hlt e he
        · exact Nat.lt_of_le_of_ne (Nat.le_of_not_lt h1) (fun e => h2 e.symm)

theorem Memory.below_write {m : Memory} {cap a : Nat} (h : m.below cap) (ha : a < cap) (v : Byte) : (Memory.write m a v).below cap := by
  intro c hc
  rcases Memory.mem_write hc with hc | ⟨rfl, -⟩
  · exact h c hc
  · exact ha

theorem Memory.wf_writeBytes {m : Memory} (h : Memory.wf m) (a : Nat) (vs : List Byte) : Memory.wf (Memory.writeBytes m a vs) := by
  induction vs generalizing m a with
  | nil => exact h
  | cons v vs ih => exact ih (Memory.wf_write h a v) (a + 1)

theorem Memory.below_writeBytes {m : Memory} {cap a : Nat} (h : m.below cap) (vs : List Byte) (ha : a + vs.length ≤ cap) :
    (Memory.writeBytes m a vs).below cap := by
  induction vs generalizing m a with
  | nil => exact h
  | cons v vs ih =>
    simp only [List.length_cons] at ha
    exact ih (Memory.below_write h (by omega) v) (by omega)

/-- A read after a bulk write: inside the written range the byte written there, outside it the old byte. -/
theorem Memory.read_writeBytes {m : Memory} (h : Memory.wf m) (a : Nat) (vs : List Byte) (b : Nat) :
    Memory.read (Memory.writeBytes m a vs) b
      = if a ≤ b ∧ b < a + vs.length then vs.getD (b - a) 0 else Memory.read m b := by
  induction vs generalizing m a with
  | nil =>
    have : ¬(a ≤ b ∧ b < a + ([] : List Byte).length) := by simp
    rw [if_neg this]; rfl
  | cons v vs ih =>
    rw [Memory.writeBytes, ih (Memory.wf_write h a v), Memory.read_write h]
    simp only [List.length_cons]
    by_cases hb : b = a
    · subst hb
      rw [if_neg (by omega), if_pos rfl, if_pos (by omega)]
      simp
    · by_cases h1 : a + 1 ≤ b ∧ b < a + 1 + vs.length
      · rw [if_pos h1, if_pos (by omega)]
        obtain ⟨k, hk⟩ : ∃ k, b - a = k + 1 := ⟨b - a - 1, by omega⟩
        have : b - (a + 1) = k := by omega
        simp [hk, this]
      · rw [if_neg h1, if_neg hb, if_neg (by omega)]

/-- Two memories in canonical form that read alike are equal. -/
theorem Memory.ext {m n : Memory} (hm : Memory.wf m) (hn : Memory.wf n) (h : ∀ a, Memory.read m a = Memory.read n a) : m = n := by
  induction m generalizing n with
  | nil =>
    cases n with
    | nil => rfl
    | cons c n =>
      have := h c.1
      rw [Memory.read_cons, if_pos rfl] at this
      exact absurd this.symm (hn.2 c (by simp))
  | cons c m ih =>
    cases n with
    | nil =>
      have := h c.1
      rw [Memory.read_cons, if_pos rfl] at this
      exact absurd this (hm.2 c (by simp))
    | cons d n =>
      have hc := Memory.wf_head hm
      have hd := Memory.wf_head hn
      have head_le : ∀ {c d : Host.Cell} {m n : Memory}, Memory.wf (c :: m) → Memory.wf (d :: n) →
          (∀ a, Memory.read (c :: m) a = Memory.read (d :: n) a) → d.1 ≤ c.1 := by
        intro c d m n h1 h2 h
        rcases Nat.lt_or_ge c.1 d.1 with hlt | hge
        · have := h c.1
          rw [Memory.read_cons, if_pos rfl, Memory.read_below_head (m := d :: n)] at this
          · exact absurd this (h1.2 c (by simp))
          · intro e he
            rcases List.mem_cons.mp he with rfl | he
            · exact hlt
            · exact Nat.lt_trans hlt (Memory.wf_head h2 e he)
        · exact hge
      have e1 : c.1 = d.1 := Nat.le_antisymm (head_le hn hm fun a => (h a).symm) (head_le hm hn h)
      have e2 : c.2 = d.2 := by
        have := h c.1
        rwa [Memory.read_cons, if_pos rfl, Memory.read_cons, if_pos e1] at this
      have e3 : c = d := Prod.ext e1 e2
      subst e3
      congr 1
      refine ih (Memory.wf_tail hm) (Memory.wf_tail hn) fun a => ?_
      by_cases ha : a = c.1
      · subst ha
        rw [Memory.read_below_head hc, Memory.read_below_head hd]
      · have := h a
        rwa [Memory.read_cons, if_neg ha, Memory.read_cons, if_neg ha] at this

@[simp] theorem Memory.length_readBytes (m : Memory) (a n : Nat) : (Memory.readBytes m a n).length = n := by
  simp [Memory.readBytes]

@[simp] theorem Memory.getElem_readBytes (m : Memory) (a n k : Nat) (h : k < (Memory.readBytes m a n).length) :
    (Memory.readBytes m a n)[k] = Memory.read m (a + k) := by
  simp [Memory.readBytes]


/-- The memories of the reset state are in canonical form. -/
theorem resetWith_memory_wf (p : Params) : (State.resetWith p).sym.wf ∧ (State.resetWith p).bits.wf := by
  simp [State.resetWith, Memory.wf]

end Sys2Proof.Machine
end

