-- ==== Sys2Proof/Laws/Access.lean ====
section
/-! SUPPORT. What a host access does to each field, once: a read changes only an index, the error record and the count of unspecified values; a write
refused while BUSY changes only the error record. Also what the two ways to end a command, success and an error, give. -/

namespace Sys2Proof.Machine

/-! The two ends of a command. -/

/-- A command that succeeds answers its effects, DONE and nothing in flight. -/
theorem succeed_eq (t : State) : succeed t = .next t.finish := rfl

/-- A command that raises an error answers the record, DONE and nothing in flight. -/
theorem raiseError_eq (s : State) (c : ErrorCode) (info : Word) : raiseError s c info = .next (s.record c info).finish := rfl

/-! A port that reads. -/

theorem readSymData_fst_of_le {s : State} (h : s.params.symCap.toNat ≤ s.symAddr.toNat) : s.readSymData.1 = 0 := by
  have : ¬ s.symAddr < s.params.symCap := by simpa [BitVec.lt_def] using h
  simp [State.readSymData, this]

theorem readBitData_fst_of_le {s : State} (h : s.params.bitCap.toNat ≤ s.bitAddr.toNat) : s.readBitData.1 = 0 := by
  have : ¬ s.bitAddr < s.params.bitCap := by simpa [BitVec.lt_def] using h
  simp [State.readBitData, this]

/-! `State.readReg` and `State.hostRead`: the fields no read changes. -/

@[simp] theorem State.readReg_params (s : State) (r : Reg) : (s.readReg r).2.params = s.params := by
  cases r <;> simp only [State.readReg, State.readSymData, State.readBitData] <;> (try split) <;> simp

@[simp] theorem State.hostRead_params (s : State) (r : Reg) : (s.hostRead r).2.params = s.params := by
  unfold State.hostRead; split <;> simp

@[simp] theorem State.readReg_pending (s : State) (r : Reg) : (s.readReg r).2.pending = s.pending := by
  cases r <;> simp only [State.readReg, State.readSymData, State.readBitData] <;> (try split) <;> simp

@[simp] theorem State.hostRead_pending (s : State) (r : Reg) : (s.hostRead r).2.pending = s.pending := by
  unfold State.hostRead; split <;> simp

@[simp] theorem State.readReg_done (s : State) (r : Reg) : (s.readReg r).2.done = s.done := by
  cases r <;> simp only [State.readReg, State.readSymData, State.readBitData] <;> (try split) <;> simp

@[simp] theorem State.hostRead_done (s : State) (r : Reg) : (s.hostRead r).2.done = s.done := by
  unfold State.hostRead; split <;> simp

@[simp] theorem State.readReg_qoor (s : State) (r : Reg) : (s.readReg r).2.qoor = s.qoor := by
  cases r <;> simp only [State.readReg, State.readSymData, State.readBitData] <;> (try split) <;> simp

@[simp] theorem State.hostRead_qoor (s : State) (r : Reg) : (s.hostRead r).2.qoor = s.qoor := by
  unfold State.hostRead; split <;> simp

@[simp] theorem State.readReg_qmValid (s : State) (r : Reg) : (s.readReg r).2.qmValid = s.qmValid := by
  cases r <;> simp only [State.readReg, State.readSymData, State.readBitData] <;> (try split) <;> simp

@[simp] theorem State.hostRead_qmValid (s : State) (r : Reg) : (s.hostRead r).2.qmValid = s.qmValid := by
  unfold State.hostRead; split <;> simp

@[simp] theorem State.readReg_doneEn (s : State) (r : Reg) : (s.readReg r).2.doneEn = s.doneEn := by
  cases r <;> simp only [State.readReg, State.readSymData, State.readBitData] <;> (try split) <;> simp

@[simp] theorem State.hostRead_doneEn (s : State) (r : Reg) : (s.hostRead r).2.doneEn = s.doneEn := by
  unfold State.hostRead; split <;> simp

@[simp] theorem State.readReg_errEn (s : State) (r : Reg) : (s.readReg r).2.errEn = s.errEn := by
  cases r <;> simp only [State.readReg, State.readSymData, State.readBitData] <;> (try split) <;> simp

@[simp] theorem State.hostRead_errEn (s : State) (r : Reg) : (s.hostRead r).2.errEn = s.errEn := by
  unfold State.hostRead; split <;> simp

@[simp] theorem State.readReg_cmd (s : State) (r : Reg) : (s.readReg r).2.cmd = s.cmd := by
  cases r <;> simp only [State.readReg, State.readSymData, State.readBitData] <;> (try split) <;> simp

@[simp] theorem State.hostRead_cmd (s : State) (r : Reg) : (s.hostRead r).2.cmd = s.cmd := by
  unfold State.hostRead; split <;> simp

@[simp] theorem State.readReg_quality (s : State) (r : Reg) : (s.readReg r).2.quality = s.quality := by
  cases r <;> simp only [State.readReg, State.readSymData, State.readBitData] <;> (try split) <;> simp

@[simp] theorem State.hostRead_quality (s : State) (r : Reg) : (s.hostRead r).2.quality = s.quality := by
  unfold State.hostRead; split <;> simp

@[simp] theorem State.readReg_symCount (s : State) (r : Reg) : (s.readReg r).2.symCount = s.symCount := by
  cases r <;> simp only [State.readReg, State.readSymData, State.readBitData] <;> (try split) <;> simp

@[simp] theorem State.hostRead_symCount (s : State) (r : Reg) : (s.hostRead r).2.symCount = s.symCount := by
  unfold State.hostRead; split <;> simp

@[simp] theorem State.readReg_bitCount (s : State) (r : Reg) : (s.readReg r).2.bitCount = s.bitCount := by
  cases r <;> simp only [State.readReg, State.readSymData, State.readBitData] <;> (try split) <;> simp

@[simp] theorem State.hostRead_bitCount (s : State) (r : Reg) : (s.hostRead r).2.bitCount = s.bitCount := by
  unfold State.hostRead; split <;> simp

@[simp] theorem State.readReg_bitLen (s : State) (r : Reg) : (s.readReg r).2.bitLen = s.bitLen := by
  cases r <;> simp only [State.readReg, State.readSymData, State.readBitData] <;> (try split) <;> simp

@[simp] theorem State.hostRead_bitLen (s : State) (r : Reg) : (s.hostRead r).2.bitLen = s.bitLen := by
  unfold State.hostRead; split <;> simp

@[simp] theorem State.readReg_blk (s : State) (r : Reg) : (s.readReg r).2.blk = s.blk := by
  cases r <;> simp only [State.readReg, State.readSymData, State.readBitData] <;> (try split) <;> simp

@[simp] theorem State.hostRead_blk (s : State) (r : Reg) : (s.hostRead r).2.blk = s.blk := by
  unfold State.hostRead; split <;> simp

@[simp] theorem State.readReg_qb (s : State) (r : Reg) : (s.readReg r).2.qb = s.qb := by
  cases r <;> simp only [State.readReg, State.readSymData, State.readBitData] <;> (try split) <;> simp

@[simp] theorem State.hostRead_qb (s : State) (r : Reg) : (s.hostRead r).2.qb = s.qb := by
  unfold State.hostRead; split <;> simp

@[simp] theorem State.readReg_qm (s : State) (r : Reg) : (s.readReg r).2.qm = s.qm := by
  cases r <;> simp only [State.readReg, State.readSymData, State.readBitData] <;> (try split) <;> simp

@[simp] theorem State.hostRead_qm (s : State) (r : Reg) : (s.hostRead r).2.qm = s.qm := by
  unfold State.hostRead; split <;> simp

@[simp] theorem State.readReg_sym (s : State) (r : Reg) : (s.readReg r).2.sym = s.sym := by
  cases r <;> simp only [State.readReg, State.readSymData, State.readBitData] <;> (try split) <;> simp

@[simp] theorem State.hostRead_sym (s : State) (r : Reg) : (s.hostRead r).2.sym = s.sym := by
  unfold State.hostRead; split <;> simp

@[simp] theorem State.readReg_bits (s : State) (r : Reg) : (s.readReg r).2.bits = s.bits := by
  cases r <;> simp only [State.readReg, State.readSymData, State.readBitData] <;> (try split) <;> simp

@[simp] theorem State.hostRead_bits (s : State) (r : Reg) : (s.hostRead r).2.bits = s.bits := by
  unfold State.hostRead; split <;> simp

@[simp] theorem State.readReg_ht (s : State) (r : Reg) : (s.readReg r).2.ht = s.ht := by
  cases r <;> simp only [State.readReg, State.readSymData, State.readBitData] <;> (try split) <;> simp

@[simp] theorem State.hostRead_ht (s : State) (r : Reg) : (s.hostRead r).2.ht = s.ht := by
  unfold State.hostRead; split <;> simp

@[simp] theorem State.readReg_events (s : State) (r : Reg) : (s.readReg r).2.events = s.events := by
  cases r <;> simp only [State.readReg, State.readSymData, State.readBitData] <;> (try split) <;> simp

@[simp] theorem State.hostRead_events (s : State) (r : Reg) : (s.hostRead r).2.events = s.events := by
  unfold State.hostRead; split <;> simp

@[simp] theorem State.readReg_history (s : State) (r : Reg) : (s.readReg r).2.history = s.history := by
  cases r <;> simp only [State.readReg, State.readSymData, State.readBitData] <;> (try split) <;> simp

@[simp] theorem State.hostRead_history (s : State) (r : Reg) : (s.hostRead r).2.history = s.history := by
  unfold State.hostRead; split <;> simp

/-! `State.hostWrite` while BUSY = 1: the fields no write but a soft reset changes. -/

theorem State.hostWrite_busy_params {s : State} {r : Reg} (hb : s.busy = true) (hr : r ≠ .ctrl) (w : Word) : (s.hostWrite r w).params = s.params := by
  unfold State.hostWrite; cases r <;> simp_all [Reg.writableWhileBusy, State.writeReg]

theorem State.hostWrite_busy_pending {s : State} {r : Reg} (hb : s.busy = true) (hr : r ≠ .ctrl) (w : Word) : (s.hostWrite r w).pending = s.pending := by
  unfold State.hostWrite; cases r <;> simp_all [Reg.writableWhileBusy, State.writeReg]

theorem State.hostWrite_busy_qmValid {s : State} {r : Reg} (hb : s.busy = true) (hr : r ≠ .ctrl) (w : Word) : (s.hostWrite r w).qmValid = s.qmValid := by
  unfold State.hostWrite; cases r <;> simp_all [Reg.writableWhileBusy, State.writeReg]

theorem State.hostWrite_busy_cmd {s : State} {r : Reg} (hb : s.busy = true) (hr : r ≠ .ctrl) (w : Word) : (s.hostWrite r w).cmd = s.cmd := by
  unfold State.hostWrite; cases r <;> simp_all [Reg.writableWhileBusy, State.writeReg]

theorem State.hostWrite_busy_quality {s : State} {r : Reg} (hb : s.busy = true) (hr : r ≠ .ctrl) (w : Word) : (s.hostWrite r w).quality = s.quality := by
  unfold State.hostWrite; cases r <;> simp_all [Reg.writableWhileBusy, State.writeReg]

theorem State.hostWrite_busy_symCount {s : State} {r : Reg} (hb : s.busy = true) (hr : r ≠ .ctrl) (w : Word) : (s.hostWrite r w).symCount = s.symCount := by
  unfold State.hostWrite; cases r <;> simp_all [Reg.writableWhileBusy, State.writeReg]

theorem State.hostWrite_busy_bitCount {s : State} {r : Reg} (hb : s.busy = true) (hr : r ≠ .ctrl) (w : Word) : (s.hostWrite r w).bitCount = s.bitCount := by
  unfold State.hostWrite; cases r <;> simp_all [Reg.writableWhileBusy, State.writeReg]

theorem State.hostWrite_busy_bitLen {s : State} {r : Reg} (hb : s.busy = true) (hr : r ≠ .ctrl) (w : Word) : (s.hostWrite r w).bitLen = s.bitLen := by
  unfold State.hostWrite; cases r <;> simp_all [Reg.writableWhileBusy, State.writeReg]

theorem State.hostWrite_busy_blkIdx {s : State} {r : Reg} (hb : s.busy = true) (hr : r ≠ .ctrl) (w : Word) : (s.hostWrite r w).blkIdx = s.blkIdx := by
  unfold State.hostWrite; cases r <;> simp_all [Reg.writableWhileBusy, State.writeReg]

theorem State.hostWrite_busy_qbIdx {s : State} {r : Reg} (hb : s.busy = true) (hr : r ≠ .ctrl) (w : Word) : (s.hostWrite r w).qbIdx = s.qbIdx := by
  unfold State.hostWrite; cases r <;> simp_all [Reg.writableWhileBusy, State.writeReg]

theorem State.hostWrite_busy_qmIdx {s : State} {r : Reg} (hb : s.busy = true) (hr : r ≠ .ctrl) (w : Word) : (s.hostWrite r w).qmIdx = s.qmIdx := by
  unfold State.hostWrite; cases r <;> simp_all [Reg.writableWhileBusy, State.writeReg]

theorem State.hostWrite_busy_symAddr {s : State} {r : Reg} (hb : s.busy = true) (hr : r ≠ .ctrl) (w : Word) : (s.hostWrite r w).symAddr = s.symAddr := by
  unfold State.hostWrite; cases r <;> simp_all [Reg.writableWhileBusy, State.writeReg]

theorem State.hostWrite_busy_bitAddr {s : State} {r : Reg} (hb : s.busy = true) (hr : r ≠ .ctrl) (w : Word) : (s.hostWrite r w).bitAddr = s.bitAddr := by
  unfold State.hostWrite; cases r <;> simp_all [Reg.writableWhileBusy, State.writeReg]

theorem State.hostWrite_busy_htIdx {s : State} {r : Reg} (hb : s.busy = true) (hr : r ≠ .ctrl) (w : Word) : (s.hostWrite r w).htIdx = s.htIdx := by
  unfold State.hostWrite; cases r <;> simp_all [Reg.writableWhileBusy, State.writeReg]

theorem State.hostWrite_busy_romSel {s : State} {r : Reg} (hb : s.busy = true) (hr : r ≠ .ctrl) (w : Word) : (s.hostWrite r w).romSel = s.romSel := by
  unfold State.hostWrite; cases r <;> simp_all [Reg.writableWhileBusy, State.writeReg]

theorem State.hostWrite_busy_romIdx {s : State} {r : Reg} (hb : s.busy = true) (hr : r ≠ .ctrl) (w : Word) : (s.hostWrite r w).romIdx = s.romIdx := by
  unfold State.hostWrite; cases r <;> simp_all [Reg.writableWhileBusy, State.writeReg]

theorem State.hostWrite_busy_blk {s : State} {r : Reg} (hb : s.busy = true) (hr : r ≠ .ctrl) (w : Word) : (s.hostWrite r w).blk = s.blk := by
  unfold State.hostWrite; cases r <;> simp_all [Reg.writableWhileBusy, State.writeReg]

theorem State.hostWrite_busy_qb {s : State} {r : Reg} (hb : s.busy = true) (hr : r ≠ .ctrl) (w : Word) : (s.hostWrite r w).qb = s.qb := by
  unfold State.hostWrite; cases r <;> simp_all [Reg.writableWhileBusy, State.writeReg]

theorem State.hostWrite_busy_qm {s : State} {r : Reg} (hb : s.busy = true) (hr : r ≠ .ctrl) (w : Word) : (s.hostWrite r w).qm = s.qm := by
  unfold State.hostWrite; cases r <;> simp_all [Reg.writableWhileBusy, State.writeReg]

theorem State.hostWrite_busy_sym {s : State} {r : Reg} (hb : s.busy = true) (hr : r ≠ .ctrl) (w : Word) : (s.hostWrite r w).sym = s.sym := by
  unfold State.hostWrite; cases r <;> simp_all [Reg.writableWhileBusy, State.writeReg]

theorem State.hostWrite_busy_bits {s : State} {r : Reg} (hb : s.busy = true) (hr : r ≠ .ctrl) (w : Word) : (s.hostWrite r w).bits = s.bits := by
  unfold State.hostWrite; cases r <;> simp_all [Reg.writableWhileBusy, State.writeReg]

theorem State.hostWrite_busy_ht {s : State} {r : Reg} (hb : s.busy = true) (hr : r ≠ .ctrl) (w : Word) : (s.hostWrite r w).ht = s.ht := by
  unfold State.hostWrite; cases r <;> simp_all [Reg.writableWhileBusy, State.writeReg]

theorem State.hostWrite_busy_events {s : State} {r : Reg} (hb : s.busy = true) (hr : r ≠ .ctrl) (w : Word) : (s.hostWrite r w).events = s.events := by
  unfold State.hostWrite; cases r <;> simp_all [Reg.writableWhileBusy, State.writeReg]

theorem State.hostWrite_busy_history {s : State} {r : Reg} (hb : s.busy = true) (hr : r ≠ .ctrl) (w : Word) : (s.hostWrite r w).history = s.history := by
  unfold State.hostWrite; cases r <;> simp_all [Reg.writableWhileBusy, State.writeReg]

theorem State.hostWrite_busy_draws {s : State} {r : Reg} (hb : s.busy = true) (hr : r ≠ .ctrl) (w : Word) : (s.hostWrite r w).draws = s.draws := by
  unfold State.hostWrite; cases r <;> simp_all [Reg.writableWhileBusy, State.writeReg]

/-! `State.hostWrite` in every state. -/

@[simp] theorem State.hostWrite_params (s : State) (r : Reg) (w : Word) : (s.hostWrite r w).params = s.params := by
  unfold State.hostWrite
  split
  · simp
  · cases r <;> simp only [State.writeReg, State.writeSymData, State.writeBitData] <;> (try split) <;> simp [State.softReset, State.resetWith]

@[simp] theorem State.hostWrite_events (s : State) (r : Reg) (w : Word) : (s.hostWrite r w).events = s.events := by
  unfold State.hostWrite
  split
  · simp
  · cases r <;> simp only [State.writeReg, State.writeSymData, State.writeBitData] <;> (try split) <;> simp [State.softReset, State.resetWith]

@[simp] theorem State.hostWrite_history (s : State) (r : Reg) (w : Word) : (s.hostWrite r w).history = s.history := by
  unfold State.hostWrite
  split
  · simp
  · cases r <;> simp only [State.writeReg, State.writeSymData, State.writeBitData] <;> (try split) <;> simp [State.softReset, State.resetWith]

@[simp] theorem State.hostWrite_draws (s : State) (r : Reg) (w : Word) : (s.hostWrite r w).draws = s.draws := by
  unfold State.hostWrite
  split
  · simp
  · cases r <;> simp only [State.writeReg, State.writeSymData, State.writeBitData] <;> (try split) <;> simp [State.softReset, State.resetWith]

end Sys2Proof.Machine
end

