-- ==== Sys2Proof/Laws/Float.lean ====
section
/-! SUPPORT. The fields of a pattern after a change of sign, and what packing a rounded magnitude gives: a sign, never a NaN. -/

namespace Sys2Proof.Machine

/-! `negF` changes bit 63 only. -/

@[simp] theorem expField_negF (x : Word) : expField (negF x) = expField x := by
  simp only [expField, negF, minusZero]
  congr 1
  ext i hi
  simp only [BitVec.getElem_extractLsb', BitVec.getLsbD_xor]
  interval_cases i <;> simp

@[simp] theorem fracField_negF (x : Word) : fracField (negF x) = fracField x := by
  simp only [fracField, negF, minusZero]
  congr 1
  ext i hi
  simp only [BitVec.getElem_extractLsb', BitVec.getLsbD_xor]
  interval_cases i <;> simp

@[simp] theorem isNeg_negF (x : Word) : isNeg (negF x) = !isNeg x := by
  rw [isNeg, isNeg, negF, BitVec.msb_xor, show BitVec.msb minusZero = true by decide, Bool.xor_true]

@[simp] theorem isNaN_negF (x : Word) : isNaN (negF x) = isNaN x := by simp [isNaN]

@[simp] theorem isInf_negF (x : Word) : isInf (negF x) = isInf x := by simp [isInf]

@[simp] theorem isFinite_negF (x : Word) : isFinite (negF x) = isFinite x := by simp [isFinite]

@[simp] theorem magUnits_negF (x : Word) : magUnits (negF x) = magUnits x := by simp [magUnits]

@[simp] theorem units_negF (x : Word) : units (negF x) = -units x := by
  simp only [units, isNeg_negF, magUnits_negF]
  cases isNeg x <;> simp

/-! `packF`. -/

/-- A rounded magnitude is at most that of infinity. -/
theorem roundMag_le (n extra : Nat) : roundMag n extra ≤ 0x7FF * 2 ^ 52 := Nat.min_le_left _ _

theorem toNat_packF (neg : Bool) (n extra : Nat) : (packF neg n extra).toNat = (if neg then 2 ^ 63 else 0) + roundMag n extra := by
  have := roundMag_le n extra
  unfold packF
  rw [BitVec.toNat_ofNat, Nat.mod_eq_of_lt]
  split <;> omega

@[simp] theorem isNeg_packF (neg : Bool) (n extra : Nat) : isNeg (packF neg n extra) = neg := by
  have := roundMag_le n extra
  rw [isNeg, BitVec.msb_eq_decide, toNat_packF]
  cases neg
  · simp; omega
  · simp

/-- The exponent and the fraction of a pattern given as a sign and a magnitude. -/
theorem fields_of_toNat {x : Word} {m : Nat} (neg : Bool) (hm : m ≤ 9218868437227405312)
    (hx : x.toNat = (if neg then 9223372036854775808 else 0) + m) : expField x = m / 2 ^ 52 ∧ fracField x = m % 2 ^ 52 := by
  simp only [expField, fracField, BitVec.extractLsb'_toNat, Nat.shiftRight_eq_div_pow, hx, Nat.reducePow]
  cases neg
  · simp only [Bool.false_eq_true, if_false]; omega
  · simp only [if_true]; omega

/-- The magnitude bits of a packed pattern, exponent above fraction. -/
theorem fields_packF (neg : Bool) (n extra : Nat) :
    expField (packF neg n extra) = roundMag n extra / 2 ^ 52 ∧ fracField (packF neg n extra) = roundMag n extra % 2 ^ 52 := by
  refine fields_of_toNat neg (Nat.le_trans (roundMag_le n extra) (by norm_num)) ?_
  rw [toNat_packF]
  norm_num

@[simp] theorem isNaN_packF (neg : Bool) (n extra : Nat) : isNaN (packF neg n extra) = false := by
  have := roundMag_le n extra
  obtain ⟨h1, h2⟩ := fields_packF neg n extra
  rw [isNaN, h1, h2]
  by_contra h
  simp only [Bool.not_eq_false, Bool.and_eq_true, beq_iff_eq, bne_iff_ne] at h
  omega

end Sys2Proof.Machine
end

