-- ==== Sys2Proof/Laws/Huffman.lean ====
section
/-! SUPPORT. The lengths of the Huffman unit's lists and what one turn of the decoder can do. -/

namespace Sys2Proof.Machine

@[simp] theorem length_codeBits (e : HtEntry) : (codeBits e).length = e.len.toNat := by simp [codeBits]

/-- The stream has T bits (44_huffman R167). -/
@[simp] theorem length_codeStream (t : Vector HtEntry 256) (input : List Byte) : (codeStream t input).length = totalBits t input := by
  simp [codeStream, totalBits, List.length_flatMap]

@[simp] theorem length_packStream (stream : List Bool) : (packStream stream).length = bytesFor stream.length := by simp [packStream]

@[simp] theorem length_huffInput (s : State) : (huffInput s).length = s.symCount.toNat := by simp [huffInput]

/-- Every byte value stands in the ascending list of them. -/
theorem mem_allBytes (b : Byte) : b ∈ allBytes :=
  List.mem_map.mpr ⟨b.toNat, List.mem_range.mpr b.isLt, by simp⟩

/-- A symbol is present exactly when it occurs in the input (44_huffman R161). -/
theorem mem_presentSymbols {input : List Byte} {b : Byte} : b ∈ presentSymbols input ↔ b ∈ input := by
  simp [presentSymbols, mem_allBytes, List.count_pos_iff]

/-- HT as HUFF_ENC writes it, entry by entry. -/
theorem at8_codeTable (codes : List (Byte × List Bool)) (b : Byte) : at8 (codeTable codes) b = entryOfSymbol codes b := by
  simp [at8, codeTable]

/-- One turn of the decoder that goes on has read one bit; it has put out a symbol and begun a new code, or it is one bit further inside a code
(44_huffman R177). -/
theorem walkBit_ok {t : Vector HtEntry 256} {symCap longest : Nat} {b : Bool} {k k' : Walk} (h : walkBit t symCap longest b k = .ok k') :
    (∃ s, matchCode t (k.plen + 1) (2 * k.pat + b.toNat) = some s ∧ k.out.length ≠ symCap ∧ k' = ⟨s :: k.out, 0, 0, k.pos + 1⟩)
    ∨ (matchCode t (k.plen + 1) (2 * k.pat + b.toNat) = none ∧ k.plen + 1 < longest
      ∧ k' = ⟨k.out, k.plen + 1, 2 * k.pat + b.toNat, k.pos + 1⟩) := by
  unfold walkBit at h
  simp only at h
  split at h
  · split at h
    · cases h
    · cases h
      exact .inl ⟨_, ‹_›, ‹_›, rfl⟩
  · split at h
    · cases h
    · cases h
      exact .inr ⟨‹_›, by omega, rfl⟩

/-- The decoder never puts out more than SYM_CAP symbols (44_huffman R179). -/
theorem walkStream_out_le {t : Vector HtEntry 256} {stream : Nat → Bool} {symCap longest n : Nat} {k k' : Walk}
    (hk : k.out.length ≤ symCap) (h : walkStream t stream symCap longest n k = .ok k') : k'.out.length ≤ symCap := by
  induction n generalizing k with
  | zero => cases h; exact hk
  | succ n ih =>
    simp only [walkStream] at h
    split at h
    · cases h
    · rename_i k2 hb
      refine ih ?_ h
      obtain ⟨s, -, hne, rfl⟩ | ⟨-, -, rfl⟩ := walkBit_ok hb
      · simp only [List.length_cons]; omega
      · exact hk

/-- The decoder's loop over one bit more is one turn after the loop (44_huffman R177). -/
theorem walkStream_succ (t : Vector HtEntry 256) (stream : Nat → Bool) (symCap longest n : Nat) (k : Walk) :
    walkStream t stream symCap longest (n + 1) k = match walkStream t stream symCap longest n k with
      | .error e => .error e
      | .ok k' => walkBit t symCap longest (stream k'.pos) k' := by
  induction n generalizing k with
  | zero => simp only [walkStream]; split <;> simp_all
  | succ n ih =>
    rw [walkStream]
    cases h : walkBit t symCap longest (stream k.pos) k with
    | error e => simp [walkStream, h]
    | ok k' => simp only; rw [ih k']; simp [walkStream, h]

/-- Every turn reads one bit. -/
theorem walkStream_pos {t : Vector HtEntry 256} {stream : Nat → Bool} {symCap longest n : Nat} {k k' : Walk}
    (h : walkStream t stream symCap longest n k = .ok k') : k'.pos = k.pos + n := by
  induction n generalizing k with
  | zero => cases h; rfl
  | succ n ih =>
    simp only [walkStream] at h
    split at h
    · cases h
    · have := ih h
      rename_i k2 hb
      obtain ⟨s, -, -, rfl⟩ | ⟨-, -, rfl⟩ := walkBit_ok hb <;> simp only at this <;> omega

/-- An error ends the walk: a longer stream gives the same one. -/
theorem walkStream_error {t : Vector HtEntry 256} {stream : Nat → Bool} {symCap longest n : Nat} {k : Walk} {e : ErrorCode × Word}
    (h : walkStream t stream symCap longest n k = .error e) (m : Nat) : walkStream t stream symCap longest (n + m) k = .error e := by
  induction m with
  | zero => exact h
  | succ m ih => rw [← Nat.add_assoc, walkStream_succ, ih]

end Sys2Proof.Machine
end

