-- ==== Sys2Proof/Laws/PerInstr.lean ====
section
/-! SUPPORT. One statement made per instruction: its word lies in its own row of 30_encoding R93, whatever the operand. -/

namespace Sys2Proof.Laws

/-- The instruction's word matches its row of the opcode map under the row's mask if the instruction is well formed, its reserved field is 0, and the
match value of the row lies inside the mask (30_encoding R90, R93). -/
def TableRow.Statement (i : Instr) : Prop :=
  (i.wellFormed = true → encode i &&& i.tableMask = i.tableMatch) ∧ reservedField (encode i) = 0 ∧ i.tableMatch &&& i.tableMask = i.tableMatch

/-- The reserved field of an encoded word is 0. -/
theorem reservedField_append (x : BitVec 24) (o : BitVec 8) : reservedField (0#32 ++ x ++ o) = 0 := by
  simp only [reservedField]
  ext k hk
  simp only [BitVec.getElem_extractLsb', BitVec.getLsbD_append, BitVec.getLsbD_zero]
  rw [if_neg (by omega), if_neg (by omega)]
  simp

/-- Form R: under the row's mask only the opcode is left. -/
theorem and_formR_mask (x : BitVec 24) (o : BitVec 8) : (0#32 ++ x ++ o) &&& 0xFFFFFFFF000000FF#64 = 0#56 ++ o := by
  ext k hk
  simp only [BitVec.getElem_and, BitVec.getElem_append, BitVec.getElem_zero]
  interval_cases k <;> simp

/-- Form Q: under the row's mask only the opcode is left of a word whose operand has eight bits. -/
theorem and_formQ_mask (y : BitVec 8) (o : BitVec 8) : (0#32 ++ y.setWidth 24 ++ o) &&& 0xFFFFFFFFFFFF00FF#64 = 0#56 ++ o := by
  ext k hk
  simp only [BitVec.getElem_and, BitVec.getElem_append, BitVec.getElem_zero]
  interval_cases k <;> simp

/-- An operand below 2^8 leaves w[31:16] zero. -/
theorem ofNat_24_of_lt {q : Nat} (h : q < 2 ^ 8) : BitVec.ofNat 24 q = (BitVec.ofNat 8 q).setWidth 24 := by
  apply BitVec.eq_of_toNat_eq
  simp
  omega

theorem TableRow.nop : TableRow.Statement .nop := by unfold TableRow.Statement; decide

theorem TableRow.fdct : TableRow.Statement .fdct := by unfold TableRow.Statement; decide

theorem TableRow.idct : TableRow.Statement .idct := by unfold TableRow.Statement; decide

theorem TableRow.quant : TableRow.Statement .quant := by unfold TableRow.Statement; decide

theorem TableRow.dequant : TableRow.Statement .dequant := by unfold TableRow.Statement; decide

theorem TableRow.zzScan : TableRow.Statement .zzScan := by unfold TableRow.Statement; decide

theorem TableRow.zzUnscan : TableRow.Statement .zzUnscan := by unfold TableRow.Statement; decide

theorem TableRow.huffEnc : TableRow.Statement .huffEnc := by unfold TableRow.Statement; decide

theorem TableRow.huffDec : TableRow.Statement .huffDec := by unfold TableRow.Statement; decide

theorem TableRow.lshiftDn : TableRow.Statement .lshiftDn := by unfold TableRow.Statement; decide

theorem TableRow.lshiftUp : TableRow.Statement .lshiftUp := by unfold TableRow.Statement; decide

theorem TableRow.qmBuild (q : Nat) : TableRow.Statement (.qmBuild q) := by
  refine ⟨fun h => ?_, reservedField_append _ _, by simp [Instr.tableMatch, Instr.tableMask]⟩
  have hq : q < 2 ^ 8 := by simpa [Instr.wellFormed] using h
  have he : encode (.qmBuild q) = 0#32 ++ BitVec.ofNat 24 q ++ 0x01#8 := rfl
  rw [he, ofNat_24_of_lt hq]
  exact and_formQ_mask _ _

theorem TableRow.runPut (r : Nat) : TableRow.Statement (.runPut r) :=
  ⟨fun _ => and_formR_mask (BitVec.ofNat 24 r) 0x58#8, reservedField_append _ _, by simp [Instr.tableMatch, Instr.tableMask]⟩

theorem TableRow.runGet (r : Nat) : TableRow.Statement (.runGet r) :=
  ⟨fun _ => and_formR_mask (BitVec.ofNat 24 r) 0x59#8, reservedField_append _ _, by simp [Instr.tableMatch, Instr.tableMask]⟩

end Sys2Proof.Laws
end

