-- ==== Sys2Proof/Tests/Slice0.lean ====
section
/-! SUPPORT. The model's own tests: well-formedness, decoding, one step of each command on values that stand in spec/95_test_vectors.md (named in each
comment), host accesses, and for every statement with hypotheses a named witness that meets them. -/

namespace Sys2Proof.Tests

set_option Elab.async false

open Sys2Proof.Machine

/-! Helpers. -/

/-- Power-on with Init completed: "Start: Reset" of 95_test_vectors. -/
def idle : State := { State.reset with pending := .none }

/-- `idle` after QM_BUILD 50 has written the matrix. -/
def idle50 : State := { idle with qm := qmMatrix 50, quality := 50, qmValid := true }

/-- `idle` with SYM[0..] = the input and SYM_COUNT its length. -/
def withSym (input : List Byte) : State :=
  { idle with sym := Memory.writeBytes [] 0 input, symCount := BitVec.ofNat 32 input.length }

/-- A view of the next state; none when the machine stops. -/
def seen {α : Type} (o : Host.Outcome State Fault Refusal) (f : State → α) : Option α :=
  match o with
  | .next t => some (f t)
  | .fault _ => none
  | .refused _ => none

/-- A block with one element given and the rest +0.0. -/
def oneElement (k : Fin 64) (x : Word) : Vector Word 64 := tab fun j => if j = k then x else plusZero

/-- QB with QB[k] = k. -/
def counting : Vector Byte 64 := tab fun k => BitVec.ofNat 8 k.val

/-- "ABRACADABRA" (V-H1). -/
def abracadabra : List Byte := [0x41, 0x42, 0x52, 0x41, 0x43, 0x41, 0x44, 0x41, 0x42, 0x52, 0x41]

/-- The table V-H1 leaves. -/
def abraTable : Vector HtEntry 256 := tab fun k =>
  if k = 0x41 then ⟨1, 0⟩ else if k = 0x42 then ⟨3, 6⟩ else if k = 0x43 then ⟨3, 4⟩ else if k = 0x44 then ⟨3, 5⟩
  else if k = 0x52 then ⟨3, 7⟩ else ⟨0, 0⟩

/-- Table T1 of 95_test_vectors 2.6. -/
def tableT1 : Vector HtEntry 256 := tab fun k => if k = 0x41 then ⟨1, 0⟩ else if k = 0x42 then ⟨2, 2⟩ else ⟨0, 0⟩

/-- `idle` with a table, a stream and the two counts. -/
def withStream (t : Vector HtEntry 256) (stream : List Byte) (bits : Word) : State :=
  { idle with ht := t, bits := Memory.writeBytes [] 0 stream, bitLen := BitVec.ofNat 32 stream.length, bitCount := bits }

/-- A host access of a register at CORE_BASE = 0. -/
def readAt (off : Nat) : Access := { addr := off, size := 8, kind := .read }

/-- A host write at CORE_BASE = 0. -/
def writeAt (off : Nat) (w : Word) : Access := { addr := off, size := 8, kind := .write w }

/-! Well-formedness: an ill-formed term for each check (30_encoding R92). -/

theorem test_wellFormed_q : (Instr.qmBuild 256).wellFormed = false ∧ (Instr.qmBuild 255).wellFormed = true := by decide

theorem test_wellFormed_runPut : (Instr.runPut 0x1000000).wellFormed = false ∧ (Instr.runPut 0xFFFFFF).wellFormed = true := by decide

theorem test_wellFormed_runGet : (Instr.runGet 0x1000000).wellFormed = false ∧ (Instr.runGet 0xFFFFFF).wellFormed = true := by decide

/-! Decoding: every opcode's word, written out from 30_encoding R90 to R93. -/

theorem test_decode_nop : decode 0x0000000000000000#64 = .ok .nop := rfl

theorem test_decode_qmBuild : decode 0x0000000000006301#64 = .ok (.qmBuild 99) := rfl

theorem test_decode_qmBuild_top : decode 0x000000000000FF01#64 = .ok (.qmBuild 255) := rfl

theorem test_decode_fdct : decode 0x0000000000000010#64 = .ok .fdct := rfl

theorem test_decode_idct : decode 0x0000000000000011#64 = .ok .idct := rfl

theorem test_decode_quant : decode 0x0000000000000020#64 = .ok .quant := rfl

theorem test_decode_dequant : decode 0x0000000000000021#64 = .ok .dequant := rfl

theorem test_decode_zzScan : decode 0x0000000000000030#64 = .ok .zzScan := rfl

theorem test_decode_zzUnscan : decode 0x0000000000000031#64 = .ok .zzUnscan := rfl

theorem test_decode_huffEnc : decode 0x0000000000000040#64 = .ok .huffEnc := rfl

theorem test_decode_huffDec : decode 0x0000000000000041#64 = .ok .huffDec := rfl

theorem test_decode_lshiftDn : decode 0x0000000000000050#64 = .ok .lshiftDn := rfl

theorem test_decode_lshiftUp : decode 0x0000000000000051#64 = .ok .lshiftUp := rfl

/-- V-O6: "Cb of block (1,0) is RUN_PUT 7 (0x758)". -/
theorem test_decode_runPut : decode 0x0000000000000758#64 = .ok (.runPut 7) := rfl

/-- V-O2d. -/
theorem test_decode_runGet : decode 0x00000000FFFFFF59#64 = .ok (.runGet 0xFFFFFF) := rfl

/-- V-E1. -/
theorem test_decode_unassigned : decode 0x0000000000000012#64 = .error .unassignedOpcode := rfl

/-- V-E2. -/
theorem test_decode_formN : decode 0x0000000000000110#64 = .error .operandInFormN := rfl

/-- V-E3. -/
theorem test_decode_reserved : decode 0x0000000100000010#64 = .error .reservedHigh := rfl

/-- V-E4. -/
theorem test_decode_formQ : decode 0x0000000000013201#64 = .error .operandInFormQ := rfl

/-! One step of each command. -/

/-- V-O7: after NOP STATUS reads 0x02; the step is the one after `withFetchWord`. -/
theorem test_nop : seen (step (idle.withFetchWord 64 0)) State.statusWord = some 0x02#64 := by decide

/-- V-Q1: STATUS = 0x12 and QM[0..7] = BQM[0..7]. -/
theorem test_qmBuild : seen (exec (.qmBuild 50) idle) (fun t => (t.statusWord, t.quality, t.qm.toList.take 8))
    = some (0x12#64, 50#8, [16, 11, 10, 16, 24, 40, 51, 61]) := by decide +kernel

/-- V-Q2d: row 0 of QM_BUILD 49. -/
theorem test_qmBuild_49 : seen (exec (.qmBuild 49) idle) (fun t => t.qm.toList.take 8) = some [16, 11, 10, 16, 24, 41, 52, 62] := by
  decide +kernel

/-- V-T6: elements 0, 9 and 63 of the transform of a single 100.0. -/
theorem test_fdct : seen (exec .fdct { idle with blk := oneElement 0 0x4059000000000000#64 }) (fun t => (t.blk[0], t.blk[9], t.blk[63]))
    = some (0x4029000000000000#64, 0x40380C6A1CEFBF30#64, 0x3FEE72BC62081A14#64) := by decide +kernel

/-- V-T11: +∞ at element 0 and −∞ at element 1 give NaN at v = 2 and +∞ at v = 3. -/
theorem test_fdct_infinities :
    seen (exec .fdct { idle with blk := (oneElement 0 0x7FF0000000000000#64).set 1 0xFFF0000000000000#64 }) (fun t => (t.blk[2], t.blk[3]))
      = some (0x7FF8000000000000#64, 0x7FF0000000000000#64) := by decide +kernel

/-- V-T5: an inverse transform of a single 80.0 is 10.0 in the first and the last cell. -/
theorem test_idct : seen (exec .idct { idle with blk := oneElement 0 0x4054000000000000#64 }) (fun t => (t.blk[0], t.blk[63]))
    = some (0x4024000000000000#64, 0x4024000000000000#64) := by decide +kernel

/-- V-Q3: −224.0 with entry 16 gives 0xF2. -/
theorem test_quant : seen (exec .quant { idle50 with blk := oneElement 0 0xC06C000000000000#64 }) (fun t => (t.qb[0], t.qb[1], t.qoor))
    = some (0xF2#8, 0#8, false) := by decide +kernel

/-- V-Q3c: without a matrix, STATUS = 0x0406 and ERRINFO = 0x20. -/
theorem test_quant_noMatrix : seen (exec .quant idle) (fun t => (t.statusWord, t.errInfo)) = some (0x0406#64, 0x20#64) := by decide

/-- V-Q6, and a byte whose sign counts: 0xF2 with entry 16 gives −224.0. -/
theorem test_dequant : seen (exec .dequant { idle50 with qb := idle.qb.set 0 0xF2 }) (fun t => (t.blk[0], t.blk[1]))
    = some (0xC06C000000000000#64, 0#64) := by decide +kernel

/-- V-Z1: the first twelve bytes. -/
theorem test_zzScan : seen (exec .zzScan { idle with qb := counting }) (fun t => t.qb.toList.take 12)
    = some [0, 1, 8, 16, 9, 2, 3, 10, 17, 24, 32, 25] := by decide +kernel

/-- V-Z2: the first twelve bytes. -/
theorem test_zzUnscan : seen (exec .zzUnscan { idle with qb := counting }) (fun t => t.qb.toList.take 12)
    = some [0, 1, 5, 6, 14, 15, 27, 28, 2, 4, 7, 13] := by decide +kernel

/-- V-H1: BIT_COUNT = 23, BIT_LEN = 3, BITS = 6E 8A DC, and two of the codes. -/
theorem test_huffEnc : seen (exec .huffEnc (withSym abracadabra))
      (fun t => (t.bitCount, t.bitLen, t.bits.readBytes 0 4, htWord (at8 t.ht 0x42), htWord (at8 t.ht 0x44)))
    = some (23#64, 3#32, [0x6E, 0x8A, 0xDC, 0x00], 0x0003000000000006#64, 0x0003000000000005#64) := by decide +kernel

/-- V-H5: a tie of weights is broken by the sequence number. -/
theorem test_huffEnc_tie : seen (exec .huffEnc (withSym [5, 6, 7])) (fun t => (t.bitCount, t.bits.readBytes 0 1)) = some (5#64, [0xB0]) := by
  decide +kernel

/-- V-D1: the stream of V-H1 decodes to its input. -/
theorem test_huffDec : seen (exec .huffDec (withStream abraTable [0x6E, 0x8A, 0xDC] 23)) (fun t => (t.symCount, t.sym.readBytes 0 11))
    = some (11#32, abracadabra) := by decide +kernel

/-- V-D4: a stream that ends inside a code begun at bit 1. -/
theorem test_huffDec_partial : seen (exec .huffDec (withStream tableT1 [0x40] 2)) (fun t => (t.errCode, t.errInfo, t.symCount))
    = some (0x0C#8, 1#64, 0#32) := by decide +kernel

/-- V-O1: 100.0 becomes −28.0, and the NaN comes out canonical. -/
theorem test_lshiftDn :
    seen (exec .lshiftDn { idle with blk := (oneElement 0 0x4059000000000000#64).set 3 0x7FF0000000000001#64 }) (fun t => (t.blk[0], t.blk[3]))
      = some (0xC03C000000000000#64, 0x7FF8000000000000#64) := by decide +kernel

/-- V-O1b: −128.0 becomes +0.0 and 200.5 becomes 328.5, with no clamp. -/
theorem test_lshiftUp :
    seen (exec .lshiftUp { idle with blk := (oneElement 1 0xC060000000000000#64).set 2 0x4069100000000000#64 }) (fun t => (t.blk[1], t.blk[2]))
      = some (0#64, 0x4074880000000000#64) := by decide +kernel

/-- V-O2b: run 2 lies at SYM[128..191]. -/
theorem test_runPut :
    seen (exec (.runPut 2) { idle with params := { Params.vectors with symCap := 192 }, qb := counting })
      (fun t => (t.sym.read 127, t.sym.read 129, t.sym.read 191, t.sym.read 192)) = some (0, 0x01, 0x3F, 0) := by decide +kernel

/-- V-O2c: run 3 does not fit 192 bytes. -/
theorem test_runPut_range :
    seen (exec (.runPut 3) { idle with params := { Params.vectors with symCap := 192 }, qb := counting })
      (fun t => (t.errCode, t.errInfo, t.sym)) = some (0x05#8, 3#64, []) := by decide

/-- V-O2b: the run comes back; byte 0 of run 2 is SYM[128]. -/
theorem test_runGet : seen (exec (.runGet 2) { idle with sym := [(128, 0xF2), (191, 0x09), (192, 0x77)] })
    (fun t => (t.qb[0], t.qb[1], t.qb[63])) = some (0xF2, 0, 0x09) := by decide +kernel

/-- V-O2d. -/
theorem test_runGet_range : seen (exec (.runGet 0xFFFFFF) idle) (fun t => (t.statusWord, t.errInfo)) = some (0x0506#64, 0xFFFFFF#64) := by decide

/-! Host accesses. -/

/-- V-R18: a refused write leaves BLK and BLK_IDX and records E_BUSY with the offset. -/
theorem test_busyWrite : seen (step { idle with pending := .cmd 0x10, events := [.host (writeAt 0x60 0x4000000000000000#64)] })
    (fun t => (t.blk[0], t.blkIdx, t.statusWord, t.errInfo)) = some (0#64, 0#6, 0x0205#64, 0x60#64) := by decide

/-- V-R14: the write beyond the last byte is dropped; STATUS = 0x0E04, ERRINFO = 0x0000_0090_0000_1000. -/
theorem test_symPort : seen (step { idle with symAddr := 4096, events := [.host (writeAt 0x90 0xCD)] })
    (fun t => (t.sym, t.symAddr, t.statusWord, t.errInfo)) = some ([], 4096#32, 0x0E04#64, 0x0000009000001000#64) := by decide

/-- V-R6: BQM[0] is read and IDX advances, SEL kept. -/
theorem test_romPort : seen (step { idle with romSel := 1, events := [.host (readAt 0xC0)] })
    (fun t => (t.history.map Transaction.data, t.romSel, t.romIdx)) = some ([16#64], 1#2, 1#6) := by decide

/-- V-R13: HT_DATA stores LEN 63 and a PATTERN of ones with no error. -/
theorem test_htPort : seen (step { idle with htIdx := 0xFF, events := [.host (writeAt 0xB0 0xFFFFFFFFFFFFFFFF#64)] })
    (fun t => (htWord (at8 t.ht 0xFF), t.htIdx, t.err)) = some (0x003FFFFFFFFFFFFF#64, 0#8, false) := by decide +kernel

/-- V-R20: a soft reset in the busy period discards the command and leaves Init pending. -/
theorem test_softReset : seen (step { idle with pending := .cmd 0x10, blkIdx := 5, done := true, events := [.host (writeAt 0x10 1)] })
    (fun t => (t.pending, t.blkIdx, t.done)) = some (.init, 0#6, false) := by decide

/-- 70_reset R243, R240: a reset from the platform empties the ghost log too. -/
theorem test_platformReset :
    seen (step { idle with pending := .cmd 0x10, err := true, errorLog := [(.port, 7)], events := [.platformReset, .sequencer] })
      (fun t => (t.pending, t.err, t.errorLog, t.events)) = some (.init, false, [], [.sequencer]) := by decide

/-- V-E6: a STATUS write of 0x04 clears the record and keeps DONE. -/
theorem test_statusWrite :
    seen (step { idle with done := true, err := true, errCode := 4, errInfo := 0x20, events := [.host (writeAt 0x18 4)] })
      (fun t => (t.statusWord, t.errInfo)) = some (0x02#64, 0#64) := by decide

/-- V-E8 and V-E7: DONE raises irq only through DONE_EN. -/
theorem test_irq : seen (exec .nop { idle with errEn := true }) State.irq = some false ∧ seen (exec .nop { idle with doneEn := true }) State.irq = some true := by
  decide

/-- 20_memory R61: a 4-byte access and an address just above the window stop the machine. -/
theorem test_unadmitted :
    step { idle with events := [.host { addr := 0x18, size := 4, kind := .read }] } = .fault .accessNotAdmitted
    ∧ step { idle with events := [.host (readAt 0x100)] } = .fault .accessNotAdmitted := ⟨rfl, rfl⟩

/-! Witnesses: for each statement with hypotheses, a concrete state and operands that meet them; for several clauses one for each, at its boundary. -/

theorem witness_DecodeOfEncodeIsIdentity : (Instr.runGet (2 ^ 24 - 1)).wellFormed = true := by decide

theorem witness_EncodeOfDecodeIsIdentity : decode 0x00000000FFFFFF58#64 = .ok (.runPut 0xFFFFFF) := rfl

theorem witness_DecodeFollowsOpcodeMap :
    decode 0x000000000000FF01#64 = .ok (.qmBuild 255)
    ∧ 0x000000000000FF01#64 &&& (Instr.qmBuild 0).tableMask = (Instr.qmBuild 0).tableMatch
    ∧ ∃ e, decode 0x0000000000010001#64 = .error e := ⟨rfl, by decide, _, rfl⟩

theorem witness_AdmittedAccesses :
    (readAt 0xF8).reg? Params.vectors = some (.reserved 6) ∧ (readAt 0).reg? Params.vectors = some .id
    ∧ (readAt 0x100).reg? Params.vectors = none := by decide

/-- A state with RUN_PUT 0 in flight and the given coming steps. -/
def inFlight (es : List Event) : State := { idle with cmd := 0x58, pending := .cmd 0x58, events := es }

theorem witness_StepRunsDecodedCommand :
    (inFlight []).pending = .cmd 0x58 ∧ decode 0x58 = .ok (.runPut 0) ∧ (inFlight []).events = []
    ∧ (inFlight [.sequencer]).events = .sequencer :: [] ∧ decodeTableWord 32 0xFFFFFF58 = some (.runPut 0xFFFFFF) :=
  ⟨rfl, rfl, rfl, rfl, rfl⟩

theorem witness_IllegalWordRaisesIllegal :
    ({ idle with pending := .cmd 0x12 } : State).pending = .cmd 0x12 ∧ decode 0x12 = .error .unassignedOpcode
    ∧ ({ idle with pending := .cmd 0x12 } : State).err = false := ⟨rfl, rfl, rfl⟩

theorem witness_StepMakesHostAccess :
    (inFlight [.host (readAt 0xF8)]).events = [.host (readAt 0xF8)]
    ∧ (readAt 0xF8).reg? (inFlight []).params = some (.reserved 6) ∧ (readAt 0xF8).kind = .read
    ∧ (writeAt 0x60 7).reg? (inFlight []).params = some .blkData ∧ (writeAt 0x60 7).kind = .write 7 := by decide

theorem witness_OnlyUnadmittedAccessesStop :
    (inFlight [.host (readAt 0x100)]).events = [.host (readAt 0x100)] ∧ (readAt 0x100).reg? (inFlight []).params = none := by decide

theorem witness_PowerOnState :
    State.reset = State.resetWith Params.vectors ∧ State.reset.pending = .init
    ∧ (inFlight [.platformReset]).events = .platformReset :: [] := ⟨rfl, rfl, rfl⟩

theorem witness_SoftResetClearsAllState : (1#64).getLsbD 0 = true ∧ (0xFFFFFFFFFFFFFFFE#64).getLsbD 0 = false := by decide

theorem witness_TransformOfZeros : ∀ k : Fin 64, (oneElement 3 minusZero)[k] = plusZero ∨ (oneElement 3 minusZero)[k] = minusZero := by
  decide +kernel

theorem witness_TransformOfNaNs : isNaN (oneElement 63 0xFFF0000000000001#64)[(63 : Fin 64)] = true := by decide +kernel

/-- +∞ at element 0 and −∞ at element 1 (V-T11). -/
def twoInfinities : Vector Word 64 := (oneElement 0 0x7FF0000000000000#64).set 1 0xFFF0000000000000#64

/-- V-T11: at v = 0 the sum meets infinities of both signs, at v = 3 it does not; the inverse meets them at (0, 0). -/
theorem witness_TransformOfInfinities :
    (∀ j : Fin 64, isNaN twoInfinities[j] = false) ∧ isInf twoInfinities[(0 : Fin 64)] = true
    ∧ MeetsBothInfinities (fdctTerms twoInfinities 0 0) ∧ ¬ MeetsBothInfinities (fdctTerms twoInfinities 0 3)
    ∧ MeetsBothInfinities (idctTerms twoInfinities 0 0) := by
  refine ⟨by decide +kernel, by decide +kernel, ⟨1, (fdctTerms twoInfinities 0 0)[1]'(by simp [fdctTerms]), by simp, by decide +kernel⟩, ?_,
    ⟨1, (idctTerms twoInfinities 0 0)[1]'(by simp [idctTerms]), by simp, by decide +kernel⟩⟩
  have h : ∀ n : Fin 64, isNeg (runningSum (fdctTerms twoInfinities 0 3) n.val)
      = isNeg ((fdctTerms twoInfinities 0 3)[n.val]'(by simp [fdctTerms])) ∨ isInf ((fdctTerms twoInfinities 0 3)[n.val]'(by simp [fdctTerms])) = false := by
    decide +kernel
  rintro ⟨n, t, ht, -, hi, hne⟩
  obtain ⟨hn, rfl⟩ := List.getElem?_eq_some_iff.mp ht
  have hn' : n < 64 := by simpa [fdctTerms] using hn
  rcases h ⟨n, hn'⟩ with h | h
  · exact hne h
  · simp [h] at hi

/-- The two largest finite values, whose sum and product are infinite. -/
theorem witness_RoundsToNearestEven_overflow :
    isFinite 0x7FEFFFFFFFFFFFFF#64 = true ∧ addF 0x7FEFFFFFFFFFFFFF#64 0x7FEFFFFFFFFFFFFF#64 = 0x7FF0000000000000#64
    ∧ mulF 0x7FEFFFFFFFFFFFFF#64 0xFFEFFFFFFFFFFFFF#64 = 0xFFF0000000000000#64 := by decide +kernel

/-- An exact zero sum and difference, of either sign, and a product that underflows to −0.0. -/
theorem witness_RoundsToNearestEven_zero :
    units minusZero + units minusZero = 0 ∧ units 0x4059000000000000#64 + units 0xC059000000000000#64 = 0
    ∧ units minusZero - units plusZero = 0 ∧ units 0x4059000000000000#64 - units 0x4059000000000000#64 = 0
    ∧ isFinite 1#64 = true ∧ isFinite 0x8000000000000001#64 = true ∧ mulF 1#64 0x8000000000000001#64 = minusZero := by decide +kernel

/-- 1 + 2^−53 lies half way between 1 and 1 + 2^−52. -/
theorem witness_AddRoundsToNearestEven_tie :
    isFinite (addF 0x3FF0000000000000#64 0x3CA0000000000000#64) = true ∧ isFinite 0x3FF0000000000001#64 = true
    ∧ units 0x3FF0000000000001#64 ≠ units (addF 0x3FF0000000000000#64 0x3CA0000000000000#64)
    ∧ |units (addF 0x3FF0000000000000#64 0x3CA0000000000000#64) - (units 0x3FF0000000000000#64 + units 0x3CA0000000000000#64)|
      = |units 0x3FF0000000000001#64 - (units 0x3FF0000000000000#64 + units 0x3CA0000000000000#64)| := by decide +kernel

/-- 1.5 · (1 + 2^−52) lies half way between two values. -/
theorem witness_MulRoundsToNearestEven_tie :
    isFinite (mulF 0x3FF8000000000000#64 0x3FF0000000000001#64) = true ∧ isFinite 0x3FF8000000000001#64 = true
    ∧ units 0x3FF8000000000001#64 ≠ units (mulF 0x3FF8000000000000#64 0x3FF0000000000001#64)
    ∧ |units (mulF 0x3FF8000000000000#64 0x3FF0000000000001#64) * 2 ^ 1074 - units 0x3FF8000000000000#64 * units 0x3FF0000000000001#64|
      = |units 0x3FF8000000000001#64 * 2 ^ 1074 - units 0x3FF8000000000000#64 * units 0x3FF0000000000001#64| := by decide +kernel

theorem witness_NaNResultsAreCanonical :
    isNaN (addF 0x7FF0000000000000#64 0xFFF0000000000000#64) = true ∧ isNaN (subF 0xFFF0000000000000#64 0xFFF0000000000000#64) = true
    ∧ isNaN (mulF 0x7FF0000000000000#64 minusZero) = true := by decide

/-- An infinity with a NaN, a finite value, an infinity of either sign, a zero and a value that is none of these. -/
theorem witness_InfiniteOperands :
    isNaN 0x7FF0000000000001#64 = true ∧ isInf 0xFFF0000000000000#64 = true ∧ isInf 0x7FF0000000000000#64 = true
    ∧ isFinite 0x8000000000000001#64 = true ∧ isNaN 0x8000000000000001#64 = false ∧ 0x8000000000000001#64 ≠ plusZero
    ∧ 0x8000000000000001#64 ≠ minusZero ∧ isNaN 0x7FF0000000000000#64 = false := by decide

theorem witness_QmBuildDerivesMatrix : 1 ≤ 1 ∧ 1 ≤ 99 ∧ 1 ≤ 99 ∧ 99 ≤ 99 := by decide

/-- `idle50` with 2^31 at element 0, 2^31 − 1 at element 1, −2^31 at element 2 and a NaN at element 3. -/
def quantEdges : State := { idle50 with
  blk := (((oneElement 0 0x41E0000000000000#64).set 1 0x41DFFFFFFFC00000#64).set 2 0xC1E0000000000000#64).set 3 qNaN }

theorem witness_QuantWritesTruncatedQuotients :
    quantEdges.qmValid = true ∧ 2 ^ 31 - 1 < truncF quantEdges.blk[(0 : Fin 64)]
    ∧ (isFinite quantEdges.blk[(1 : Fin 64)] = true ∧ -2 ^ 31 ≤ truncF quantEdges.blk[(1 : Fin 64)]
      ∧ truncF quantEdges.blk[(1 : Fin 64)] = 2 ^ 31 - 1)
    ∧ (isFinite quantEdges.blk[(2 : Fin 64)] = true ∧ truncF quantEdges.blk[(2 : Fin 64)] = -2 ^ 31)
    ∧ isFinite quantEdges.blk[(3 : Fin 64)] = false := by decide +kernel

theorem witness_DequantWritesExactProducts :
    idle50.qmValid = true ∧ (idle50.qb[(0 : Fin 64)]).toInt * ((idle50.qm[(0 : Fin 64)]).toNat : Int) = 0 := by decide +kernel

theorem witness_QuantizerUnitErrors : (0 < 1 ∨ 99 < 0) ∧ (100 < 1 ∨ 99 < 100) ∧ idle.qmValid = false := by decide

/-- V-Q7: −231.9 with entry 16 (the pattern is −231.90000000000001). -/
theorem witness_QuantizationLossIsBounded :
    isFinite 0xC06CFCCCCCCCCCCD#64 = true ∧ 1 ≤ 16 ∧ 16 ≤ 6050 ∧ |truncF 0xC06CFCCCCCCCCCCD#64| < 2 ^ 31
    ∧ -128 ≤ (truncF 0xC06CFCCCCCCCCCCD#64).tdiv (16 : Int) ∧ (truncF 0xC06CFCCCCCCCCCCD#64).tdiv (16 : Int) ≤ 127 := by decide +kernel

theorem witness_LowestNodeIsTaken :
    takeLowest [⟨2, 1, .leaf 1⟩, ⟨2, 0, .leaf 0⟩, ⟨3, 2, .leaf 2⟩] = some (⟨2, 0, .leaf 0⟩, [⟨2, 1, .leaf 1⟩, ⟨3, 2, .leaf 2⟩])
    ∧ takeLowest [⟨2, 1, .leaf 1⟩, ⟨3, 2, .leaf 2⟩] = some (⟨2, 1, .leaf 1⟩, [⟨3, 2, .leaf 2⟩]) := by decide

/-- A pool of two nodes and one merge still allowed; the tree of V-H3 (0A 14 14), and the one-leaf tree of V-H2. -/
theorem witness_MergeEnds :
    [HuffNode.mk 1 0 (.leaf 0x0A), ⟨2, 1, .leaf 0x14⟩].length ≤ 1 + 1
    ∧ mergePool (leafNodes [0x0A, 0x14, 0x14]).length (leafNodes [0x0A, 0x14, 0x14]).length (leafNodes [0x0A, 0x14, 0x14])
      = [⟨3, 2, .node (.leaf 0x0A) (.leaf 0x14)⟩]
    ∧ mergePool (leafNodes [7, 7]).length (leafNodes [7, 7]).length (leafNodes [7, 7]) = [⟨2, 0, .leaf 7⟩] := by decide +kernel

theorem witness_HuffEncWritesTableAndStream :
    (withSym abracadabra).bits.wf ∧ (withSym abracadabra).symCount.toNat ≤ (withSym abracadabra).params.symCap.toNat
    ∧ bytesFor (totalBits (codeTable (symbolCodes ((withSym abracadabra).sym.readBytes 0 (withSym abracadabra).symCount.toNat)))
        ((withSym abracadabra).sym.readBytes 0 (withSym abracadabra).symCount.toNat)) ≤ (withSym abracadabra).params.bitCap.toNat
    ∧ (0x53 : Byte) ∉ (withSym abracadabra).sym.readBytes 0 (withSym abracadabra).symCount.toNat := by decide +kernel

/-- Five copies of 0x07 (V-H2). -/
theorem witness_HuffEncDegenerateInputs :
    idle.symCount = 0 ∧ 0 < (withSym [7, 7, 7, 7, 7]).symCount.toNat
    ∧ (withSym [7, 7, 7, 7, 7]).symCount.toNat ≤ (withSym [7, 7, 7, 7, 7]).params.symCap.toNat
    ∧ ((withSym [7, 7, 7, 7, 7]).symCount.toNat + 7) / 8 ≤ (withSym [7, 7, 7, 7, 7]).params.bitCap.toNat
    ∧ ∀ a, a < (withSym [7, 7, 7, 7, 7]).symCount.toNat → (withSym [7, 7, 7, 7, 7]).sym.read a = 7 := by
  refine ⟨rfl, by decide, by decide, by decide, ?_⟩
  have h : (withSym [7, 7, 7, 7, 7]).symCount.toNat = 5 := by decide
  rw [h]
  decide

/-- V-H10: one symbol more than SYM_CAP. -/
theorem witness_HuffEncCapacityErrors_symCount :
    ({ idle with symCount := 4097 } : State).params.symCap.toNat < ({ idle with symCount := 4097 } : State).symCount.toNat := by decide

/-- V-H11: 23 bits do not fit two bytes. -/
theorem witness_HuffEncCapacityErrors_bitCap :
    (withSym abracadabra).symCount.toNat ≤ 4096
    ∧ 2 < (totalBits (codeTable (symbolCodes ((withSym abracadabra).sym.readBytes 0 (withSym abracadabra).symCount.toNat)))
        ((withSym abracadabra).sym.readBytes 0 (withSym abracadabra).symCount.toNat) + 7) / 8
    ∧ ({ withSym abracadabra with params := { Params.vectors with bitCap := 2 } } : State).params.bitCap.toNat = 2 := by decide +kernel

/-- SYM_COUNT = 728 is the most that 45·SYM_COUNT ≤ 8·4096 allows. -/
theorem witness_HuffEncCapacityErrors_none :
    ({ idle with symCount := 728 } : State).symCount.toNat ≤ ({ idle with symCount := 728 } : State).params.symCap.toNat
    ∧ 45 * ({ idle with symCount := 728 } : State).symCount.toNat ≤ 8 * ({ idle with symCount := 728 } : State).params.bitCap.toNat := by decide

theorem witness_CodeLengthsAtMost45 : abracadabra.length < 2 ^ 32 ∧ ∃ p ∈ symbolCodes abracadabra, p.2.length = 3 := by decide +kernel

theorem witness_EncoderCodesArePrefixFree :
    abracadabra.length < 2 ^ 32 ∧ (0x41 : Byte) ∈ abracadabra ∧ (0x42 : Byte) ∈ abracadabra ∧ (0x41 : Byte) ≠ 0x42 := by decide

theorem witness_EncoderCodesMeetKraftEquality : abracadabra.length < 2 ^ 32 ∧ 2 ≤ (presentSymbols abracadabra).length := by decide +kernel

/-- The state of V-D1. -/
def decodeAbra : State := withStream abraTable [0x6E, 0x8A, 0xDC] 23

theorem witness_HuffDecReadsCodeSequence :
    decodeAbra.sym.wf ∧ decodeAbra.bitLen.toNat ≤ decodeAbra.params.bitCap.toNat
    ∧ decodeAbra.bitCount.toNat ≤ 8 * decodeAbra.bitLen.toNat
    ∧ (∀ b : Byte, entryWellFormed (at8 decodeAbra.ht b) = true)
    ∧ (∀ b d : Byte, b ≠ d → 0 < (at8 decodeAbra.ht b).len.toNat → 0 < (at8 decodeAbra.ht d).len.toNat →
      ¬ (codeBits (at8 decodeAbra.ht b)).IsPrefix (codeBits (at8 decodeAbra.ht d)))
    ∧ abracadabra.length ≤ decodeAbra.params.symCap.toNat ∧ (∀ b ∈ abracadabra, 0 < (at8 decodeAbra.ht b).len.toNat)
    ∧ decodeAbra.bitCount.toNat = (abracadabra.flatMap fun b => codeBits (at8 decodeAbra.ht b)).length
    ∧ (∀ i, i < decodeAbra.bitCount.toNat →
        some (streamBit decodeAbra.bits i) = (abracadabra.flatMap fun b => codeBits (at8 decodeAbra.ht b))[i]?) := by
  refine ⟨by decide, by decide, by decide, by decide +kernel, ?_, by decide, by decide +kernel, by decide +kernel, by decide +kernel⟩
  have coded : ∀ b : Byte, 0 < (at8 decodeAbra.ht b).len.toNat → b ∈ [(0x41 : Byte), 0x42, 0x43, 0x44, 0x52] := by decide +kernel
  have free : ∀ b ∈ [(0x41 : Byte), 0x42, 0x43, 0x44, 0x52], ∀ d ∈ [(0x41 : Byte), 0x42, 0x43, 0x44, 0x52], b ≠ d →
      ¬ (codeBits (at8 decodeAbra.ht b)).IsPrefix (codeBits (at8 decodeAbra.ht d)) := by decide +kernel
  exact fun b d hbd hb hd => free b (coded b hb) d (coded d hd) hbd

theorem witness_HuffDecOutputExplainsStream :
    decodeAbra.sym.wf ∧ ∃ t, exec .huffDec decodeAbra = .next t ∧ t.errorLog = decodeAbra.errorLog := by
  refine ⟨by decide, ?_⟩
  have h : seen (exec .huffDec decodeAbra) State.errorLog = some decodeAbra.errorLog := by decide +kernel
  cases he : exec .huffDec decodeAbra with
  | next t => rw [he] at h; exact ⟨t, rfl, by simpa [seen] using h⟩
  | fault f => rw [he] at h; simp [seen] at h
  | refused r => rw [he] at h; simp [seen] at h

/-- V-D6, V-D5, and a table whose lowest malformed entry is 0x03 (V-D7). -/
theorem witness_HuffDecChecksInOrder :
    (({ idle with bitLen := 4097 } : State).params.bitCap.toNat < ({ idle with bitLen := 4097 } : State).bitLen.toNat)
    ∧ ((withStream tableT1 [0x80] 9).bitLen.toNat ≤ (withStream tableT1 [0x80] 9).params.bitCap.toNat
      ∧ 8 * (withStream tableT1 [0x80] 9).bitLen.toNat < (withStream tableT1 [0x80] 9).bitCount.toNat)
    ∧ ((withStream (set8 idle.ht 3 ⟨2, 5⟩) [0] 8).bitLen.toNat ≤ 4096
      ∧ (withStream (set8 idle.ht 3 ⟨2, 5⟩) [0] 8).bitCount.toNat ≤ 8 * (withStream (set8 idle.ht 3 ⟨2, 5⟩) [0] 8).bitLen.toNat
      ∧ ¬ ((at8 (set8 idle.ht 3 ⟨2, 5⟩) 3).len.toNat ≤ 48
        ∧ (at8 (set8 idle.ht 3 ⟨2, 5⟩) 3).pattern.toNat < 2 ^ (at8 (set8 idle.ht 3 ⟨2, 5⟩) 3).len.toNat)
      ∧ ∀ d : Byte, d < 3 → (at8 (set8 idle.ht 3 ⟨2, 5⟩) d).len.toNat ≤ 48
        ∧ (at8 (set8 idle.ht 3 ⟨2, 5⟩) d).pattern.toNat < 2 ^ (at8 (set8 idle.ht 3 ⟨2, 5⟩) d).len.toNat) := by
  refine ⟨by decide, by decide +kernel, by decide +kernel, by decide +kernel, by decide +kernel, by decide +kernel⟩

/-- On T1: 0 is the code of 0x41, 11 is no code, and a prefix 1 is unfinished (V-D3, V-D4). -/
theorem witness_DecoderWalkMatchesAndStops :
    matchCode tableT1 1 0 = some 0x41
    ∧ (matchCode tableT1 (1 + 1) (2 * 1 + true.toNat) = none ∧ maxLen tableT1 ≤ 1 + 1)
    ∧ (matchCode tableT1 (0 + 1) (2 * 0 + false.toNat) = some 0x41 ∧ ([] : List Byte).length = 0)
    ∧ walkStream tableT1 (fun i => i == 1) 4096 (maxLen tableT1) 2 ⟨[], 0, 0, 0⟩ = .ok ⟨[0x41], 1, 1, 2⟩ := by
  refine ⟨by decide +kernel, by decide +kernel, by decide +kernel, by decide +kernel⟩

/-- Table T1 with the stream 60 (bits 011): the checks pass; after A (bit 0) the decoder is inside a code that 0x42's LEN exceeds; at the third bit nothing
matches at the longest LEN (V-D3). -/
theorem witness_HuffDecWalk_noMatch :
    (withStream tableT1 [0x60] 3).DecodeChecksPass ∧ (withStream tableT1 [0x60] 3).DecoderStandsAt 1 ⟨[0x41], 0, 0, 1⟩
    ∧ (withStream tableT1 [0x60] 3).DecoderStandsAt 2 ⟨[0x41], 1, 1, 2⟩
    ∧ (∀ b : Byte, ¬ ((at8 tableT1 b).len.toNat = 1 ∧ (at8 tableT1 b).pattern.toNat = 2 * 0 + 1)) ∧ 1 < (at8 tableT1 0x42).len.toNat
    ∧ (streamBit (withStream tableT1 [0x60] 3).bits 1).toNat = 1 ∧ (streamBit (withStream tableT1 [0x60] 3).bits 2).toNat = 1
    ∧ (∀ b : Byte, ¬ ((at8 tableT1 b).len.toNat = 2 ∧ (at8 tableT1 b).pattern.toNat = 2 * 1 + 1))
    ∧ ∀ b : Byte, (at8 tableT1 b).len.toNat ≤ 2 := by
  refine ⟨⟨by decide +kernel, by decide +kernel, by decide +kernel⟩, ?_, ?_, by decide +kernel, by decide +kernel, by decide +kernel,
    by decide +kernel, by decide +kernel, by decide +kernel⟩ <;> unfold State.DecoderStandsAt <;> decide +kernel

/-- T1 with the stream 40: the first bit's lowest match is 0x41, with room in SYM and with none (SYM_CAP = 0); the stream ends inside a code begun at bit 1
(V-D4), and with BIT_COUNT = 1 it ends with none. -/
theorem witness_HuffDecWalk_match :
    IsLowestMatch tableT1 1 0 0x41 ∧ (streamBit (withStream tableT1 [0x40] 2).bits 0).toNat = 0
    ∧ ([] : List Byte).length ≠ (withStream tableT1 [0x40] 2).params.symCap.toNat
    ∧ ([] : List Byte).length = ({ withStream tableT1 [0x40] 2 with params := { Params.vectors with symCap := 0 } } : State).params.symCap.toNat
    ∧ (withStream tableT1 [0x40] 2).DecoderStandsAt (withStream tableT1 [0x40] 2).bitCount.toNat ⟨[0x41], 1, 1, 2⟩
    ∧ (withStream tableT1 [0x40] 1).DecoderStandsAt (withStream tableT1 [0x40] 1).bitCount.toNat ⟨[0x41], 0, 0, 1⟩ := by
  refine ⟨⟨by decide +kernel, by decide +kernel, by decide +kernel⟩, by decide +kernel, by decide, by decide, ?_, ?_⟩ <;>
    unfold State.DecoderStandsAt <;> decide +kernel

theorem witness_HuffmanRoundTrip :
    (withSym abracadabra).sym.wf ∧ (withSym abracadabra).bits.wf
    ∧ (withSym abracadabra).symCount.toNat ≤ (withSym abracadabra).params.symCap.toNat
    ∧ 45 * (withSym abracadabra).symCount.toNat ≤ 8 * (withSym abracadabra).params.bitCap.toNat := by decide +kernel

/-- Run 63 is the last that fits 4096 bytes, run 64 the first that does not. -/
theorem witness_Runs :
    idle.sym.wf ∧ 64 * 63 + 64 ≤ idle.params.symCap.toNat ∧ idle.params.symCap.toNat < 64 * 64 + 64 := by decide

theorem witness_ConstantBlockRoundTrip :
    ({ idle50 with blk := Vector.replicate 64 f128 } : State).qmValid = true
    ∧ ∀ k : Fin 64, ({ idle50 with blk := Vector.replicate 64 f128 } : State).blk[k] = f128 := by decide +kernel

theorem witness_FirstErrorIsHeld : idle.err = false ∧ ({ idle with err := true } : State).err = true := by decide

/-- Every buffer and flag is changed by some command: each clause's premise is met. -/
theorem witness_CommandsWriteOnlyTheirBuffers :
    seen (exec .lshiftUp idle) (fun t => decide (t.blk ≠ idle.blk)) = some true
    ∧ seen (exec (.runGet 0) (withSym abracadabra)) (fun t => decide (t.qb ≠ (withSym abracadabra).qb)) = some true
    ∧ seen (exec (.qmBuild 50) idle) (fun t => decide (t.qm ≠ idle.qm ∧ t.quality ≠ idle.quality ∧ t.qmValid ≠ idle.qmValid)) = some true
    ∧ seen (exec (.runPut 1) { idle with qb := counting }) (fun t => decide (t.sym ≠ idle.sym)) = some true
    ∧ seen (exec .huffDec decodeAbra) (fun t => decide (t.symCount ≠ decodeAbra.symCount)) = some true
    ∧ seen (exec .huffEnc (withSym abracadabra)) (fun t => decide (t.bits ≠ (withSym abracadabra).bits)) = some true
    ∧ seen (exec .quant quantEdges) (fun t => decide (t.qoor ≠ quantEdges.qoor)) = some true := by
  refine ⟨by decide +kernel, by decide +kernel, by decide +kernel, by decide +kernel, by decide +kernel, by decide +kernel, by decide +kernel⟩

theorem witness_IrqFollowsPendingBits : exec .nop idle = .next idle.finish := rfl

theorem witness_idleAccess : idle.busy = false := rfl

/-- The last index of each of the four ROMs. -/
theorem witness_RomSelect : ∀ sel : BitVec 2, (sel = 0 ∨ sel = 1 ∨ sel = 2 ∨ sel = 3)
    ∧ ({ idle with romSel := sel, romIdx := 63 } : State).busy = false
    ∧ (63 : Fin 64).val = ({ idle with romSel := sel, romIdx := 63 } : State).romIdx.toNat := by decide

/-- The last byte of SYM and of BITS is in range, the next address is not. -/
theorem witness_IdleBytePorts :
    (({ idle with symAddr := 4095 } : State).busy = false ∧ ({ idle with symAddr := 4095 } : State).symAddr.toNat < idle.params.symCap.toNat
      ∧ idle.sym.wf)
    ∧ (({ idle with bitAddr := 4095 } : State).busy = false ∧ ({ idle with bitAddr := 4095 } : State).bitAddr.toNat < idle.params.bitCap.toNat
      ∧ idle.bits.wf)
    ∧ idle.params.symCap.toNat ≤ ({ idle with symAddr := 4096 } : State).symAddr.toNat
    ∧ idle.params.bitCap.toNat ≤ ({ idle with bitAddr := 4096 } : State).bitAddr.toNat := by decide

theorem witness_BusyAccessRules : (inFlight []).busy = true ∧ State.reset.busy = true := ⟨rfl, rfl⟩

theorem witness_ResetSatisfiesInvariant : ({ coreBase := 0x10000, symCap := 192, bitCap := 1 } : Params).Ok := by constructor <;> decide

/-- A state with a matrix, a recorded error, bytes in both memories and a command in flight. -/
def invState : State := { idle50 with
  cmd := 0x58, pending := .cmd 0x58, err := true, errCode := 0x0E, errInfo := 0x9000001000, errorLog := [(.port, 0x9000001000)]
  sym := [(0, 0xF2), (4095, 0x09)], bits := [(7, 0x80)] }

theorem witness_StepKeepsInvariant : invState.Inv ∧ ∃ t, step invState = .next t := by
  refine ⟨?_, _, rfl⟩
  constructor
  · constructor <;> decide
  · decide
  · decide
  · decide
  · decide
  · decide
  · exact fun _ => ⟨.port, by decide, by decide⟩
  · exact fun _ => ⟨by decide, by rfl⟩
  · decide
  · intro w h
    injection h

theorem witness_StepKeepsParametersAndLog :
    (∃ t, step invState = .next t) ∧ ∀ es, invState.events ≠ .platformReset :: es := ⟨⟨_, rfl⟩, fun _ h => List.cons_ne_nil _ _ h.symm⟩

theorem witness_ErrStaysUntilCleared :
    seen (step { invState with events := [.host (writeAt 0x18 4)] }) State.err = some false ∧ invState.err = true := by decide

theorem witness_MatrixChangesOnlyByBuildOrReset :
    seen (step (idle.withFetchWord 64 0x0101)) (fun t => decide (t.quality ≠ idle.quality)) = some true
    ∧ seen (step { idle50 with events := [.host (writeAt 0x10 1)] }) (fun t => decide (t.quality ≠ idle50.quality)) = some true := by
  decide +kernel

/-- The accesses of one busy period: a STATUS read, a refused BLK_DATA write, a STATUS write. -/
def busyAccesses : List Access := [readAt 0x18, writeAt 0x60 7, writeAt 0x18 0xE]

theorem witness_ResultIsIndependentOfTiming :
    (inFlight []).pending = .cmd 0x58
    ∧ ∀ a ∈ busyAccesses, (∃ r, a.reg? (inFlight []).params = some r) ∧ a.isSoftReset (inFlight []).params = false := by
  refine ⟨rfl, ?_⟩
  simp only [busyAccesses, List.forall_mem_cons]
  exact ⟨⟨⟨_, rfl⟩, rfl⟩, ⟨⟨_, rfl⟩, rfl⟩, ⟨⟨_, rfl⟩, rfl⟩, by simp⟩

theorem witness_CommandInFlightCompletes :
    (inFlight (busyAccesses.map .host)).pending = .cmd 0x58
    ∧ (inFlight (busyAccesses.map .host)).events = busyAccesses.map .host
    ∧ ∀ a ∈ busyAccesses, (∃ r, a.reg? (inFlight (busyAccesses.map .host)).params = some r)
        ∧ a.isSoftReset (inFlight (busyAccesses.map .host)).params = false :=
  ⟨rfl, rfl, witness_ResultIsIndependentOfTiming.2⟩

/-- A run that has ended: the host has read STATUS with BUSY = 0 since its last CMD write. -/
theorem test_observedIdle :
    observedIdle [⟨.status, .read, 2⟩, ⟨.cmd, .write, 0⟩] = true ∧ observedIdle [⟨.cmd, .write, 0⟩, ⟨.status, .read, 2⟩] = false
    ∧ observedIdle [⟨.status, .read, 1⟩, ⟨.status, .read, 0⟩] = true := by decide

/-- An ended run stays ended whatever turns of the sequencer or resets from the platform are still to come; a host access to come keeps it open. -/
theorem test_runEnded :
    ({ idle with history := [⟨.status, .read, 2⟩, ⟨.cmd, .write, 0⟩], events := [.sequencer, .platformReset] } : State).runEnded
    ∧ ¬ ({ idle with history := [⟨.status, .read, 2⟩], events := [.sequencer, .host (readAt 0)] } : State).runEnded := by
  refine ⟨⟨by intro a; simp, rfl, by decide⟩, fun h => h.1 (readAt 0) (by simp)⟩

/-- Log 19: a STATUS read made before the run's start counts for a run with no CMD write, and never for one with a CMD write after it. -/
theorem test_observedIdle_olderRead :
    observedIdle [⟨.qbIdx, .write, 0⟩, ⟨.status, .read, 2⟩] = true
    ∧ observedIdle [⟨.qbIdx, .write, 0⟩, ⟨.cmd, .write, 0⟩, ⟨.status, .read, 2⟩] = false := by decide

/-- `withFetchWord` notes the CMD write it stands for, so the run is open until the host reads STATUS. -/
theorem test_withFetchWord_opensRun : observedIdle ({ idle with history := [⟨.status, .read, 0⟩] } : State).history = true
    ∧ observedIdle (({ idle with history := [⟨.status, .read, 0⟩] } : State).withFetchWord 64 0).history = false := by decide

end Sys2Proof.Tests
end

section
/-! SUPPORT. Proofs of 00_scope: one host access per step (R15), and the binary64 operations (R10, R11). A finite magnitude is read as a number of
units by `magValue`, which is strictly increasing in the bits, so that rounding is a statement about neighbouring bit patterns. -/

namespace Sys2Proof.Proofs

open Sys2Proof.Machine

/-! Steps at a host access. -/

/-- A step at an admitted host read. -/
theorem step_host_read {s : State} {a : Access} {es : List Event} {r : Reg} (hev : s.events = .host a :: es)
    (hr : a.reg? s.params = some r) (hk : a.kind = .read) :
    step s = .next ((({ s with events := es } : State).hostRead r).2.noteTransaction
      { reg := r, dir := .read, data := (({ s with events := es } : State).hostRead r).1 }) := by
  simp only [step, hev, hostStep, hr, hk]

/-- A step at an admitted host write. -/
theorem step_host_write {s : State} {a : Access} {es : List Event} {r : Reg} {w : Word} (hev : s.events = .host a :: es)
    (hr : a.reg? s.params = some r) (hk : a.kind = .write w) :
    step s = .next ((({ s with events := es } : State).hostWrite r w).noteTransaction { reg := r, dir := .write, data := w }) := by
  simp only [step, hev, hostStep, hr, hk]

/-- Settles O8: the step at a host access is `hostRead` or `hostWrite` of the access's register, noted in the history. -/
theorem stepMakesHostAccess : Obligations.StepMakesHostAccess := by
  intro s a es r hev hr
  refine ⟨fun hk v t hread => ?_, fun w hk t hwrite => ?_⟩
  · rw [step_host_read hev hr hk, hread]
    rfl
  · rw [step_host_write hev hr hk, hwrite]
    rfl

/-! The fields of a pattern, read from bits 62:0 as one number. -/

/-- Bits 62:0, exponent and fraction as one number (00_scope R10). -/
def magBits (x : Word) : Nat := x.toNat % 2 ^ 63

theorem expField_eq (x : Word) : expField x = magBits x / 2 ^ 52 := by
  simp only [expField, magBits, BitVec.extractLsb'_toNat, Nat.shiftRight_eq_div_pow]
  omega

theorem fracField_eq (x : Word) : fracField x = magBits x % 2 ^ 52 := by
  simp only [fracField, magBits, BitVec.extractLsb'_toNat, Nat.shiftRight_zero]
  omega

theorem isNeg_iff (x : Word) : isNeg x = true ↔ 2 ^ 63 ≤ x.toNat := by
  simp [isNeg, BitVec.msb_eq_decide]

theorem magBits_lt (x : Word) : magBits x < 2 ^ 63 := Nat.mod_lt _ (by decide)

theorem isFinite_iff (x : Word) : isFinite x = true ↔ magBits x < 0x7FF * 2 ^ 52 := by
  have := magBits_lt x
  simp only [isFinite, expField_eq, bne_iff_ne]
  omega

theorem isInf_iff (x : Word) : isInf x = true ↔ magBits x = 0x7FF * 2 ^ 52 := by
  have := magBits_lt x
  simp only [isInf, expField_eq, fracField_eq, Bool.and_eq_true, beq_iff_eq]
  omega

theorem isNaN_iff (x : Word) : isNaN x = true ↔ 0x7FF * 2 ^ 52 < magBits x := by
  have := magBits_lt x
  simp only [isNaN, expField_eq, fracField_eq, Bool.and_eq_true, beq_iff_eq, bne_iff_ne]
  omega

theorem isNaN_eq_false_of_isFinite {x : Word} (h : isFinite x = true) : isNaN x = false := by
  have := (isFinite_iff x).mp h
  rw [Bool.eq_false_iff, Ne, isNaN_iff]
  omega

theorem isInf_eq_false_of_isFinite {x : Word} (h : isFinite x = true) : isInf x = false := by
  have := (isFinite_iff x).mp h
  rw [Bool.eq_false_iff, Ne, isInf_iff]
  omega

theorem isNaN_eq_false_of_isInf {x : Word} (h : isInf x = true) : isNaN x = false := by
  have := (isInf_iff x).mp h
  rw [Bool.eq_false_iff, Ne, isNaN_iff]
  omega

theorem isFinite_eq_false_of_isInf {x : Word} (h : isInf x = true) : isFinite x = false := by
  have := (isInf_iff x).mp h
  rw [Bool.eq_false_iff, Ne, isFinite_iff]
  omega

/-- Every pattern is finite, infinite or a NaN. -/
theorem isFinite_or_isInf_or_isNaN (x : Word) : isFinite x = true ∨ isInf x = true ∨ isNaN x = true := by
  rw [isFinite_iff, isInf_iff, isNaN_iff]
  omega

/-- A pattern is its sign and its bits 62:0. -/
theorem eq_of_isNeg_of_magBits {x y : Word} (hs : isNeg x = isNeg y) (hm : magBits x = magBits y) : x = y := by
  have hx := x.isLt
  have hy := y.isLt
  have hs' : 2 ^ 63 ≤ x.toNat ↔ 2 ^ 63 ≤ y.toNat := by rw [← isNeg_iff, ← isNeg_iff, hs]
  unfold magBits at hm
  apply BitVec.eq_of_toNat_eq
  omega

/-- A pattern whose bits 62:0 are all 0 is the zero of its sign. -/
theorem eq_zero_of_magBits {x : Word} (h : magBits x = 0) : x = if isNeg x then minusZero else plusZero := by
  cases hs : isNeg x <;> exact eq_of_isNeg_of_magBits hs h

theorem magBits_eq_zero_iff (x : Word) : magBits x = 0 ↔ x = plusZero ∨ x = minusZero := by
  refine ⟨fun h => ?_, ?_⟩
  · rw [eq_zero_of_magBits h]
    cases isNeg x
    · exact .inl rfl
    · exact .inr rfl
  · rintro (rfl | rfl) <;> rfl

/-! The other sign. -/

@[simp] theorem isNeg_negF (x : Word) : isNeg (negF x) = !isNeg x := by
  have hm : minusZero.msb = true := rfl
  rw [isNeg, negF, BitVec.msb_xor, hm, Bool.xor_true, isNeg]

@[simp] theorem magBits_negF (x : Word) : magBits (negF x) = magBits x := by
  have h63 (y : Word) : magBits y = (y.setWidth 63).toNat := (BitVec.toNat_setWidth ..).symm
  have hm : minusZero.setWidth 63 = 0#63 := rfl
  rw [h63, h63, negF, BitVec.setWidth_xor, hm, BitVec.xor_zero]

@[simp] theorem isFinite_negF (x : Word) : isFinite (negF x) = isFinite x := by
  rw [Bool.eq_iff_iff, isFinite_iff, isFinite_iff, magBits_negF]

@[simp] theorem isInf_negF (x : Word) : isInf (negF x) = isInf x := by
  rw [Bool.eq_iff_iff, isInf_iff, isInf_iff, magBits_negF]

@[simp] theorem isNaN_negF (x : Word) : isNaN (negF x) = isNaN x := by
  rw [Bool.eq_iff_iff, isNaN_iff, isNaN_iff, magBits_negF]

@[simp] theorem negF_negF (x : Word) : negF (negF x) = x := by
  rw [negF, negF, BitVec.xor_assoc, BitVec.xor_self, BitVec.xor_zero]

theorem negF_eq_minusZero_iff (x : Word) : negF x = minusZero ↔ x = plusZero :=
  ⟨fun h => by rw [← negF_negF x, h]; rfl, fun h => by rw [h]; rfl⟩

/-! The value of bits 62:0 in units of 2^−1074. -/

/-- The exponent's shift: the number of zero bits below the significand. -/
def magShift (m : Nat) : Nat := m / 2 ^ 52 - 1

/-- The magnitude with bits 62:0 equal to `m`, in units of 2^−1074; past the largest finite one it goes on as if the exponent had no bound. -/
def magValue (m : Nat) : Nat := (m - magShift m * 2 ^ 52) * 2 ^ magShift m

theorem magUnits_eq (x : Word) : magUnits x = magValue (magBits x) := by
  simp only [magUnits, magValue, magShift, expField_eq, fracField_eq]
  split
  · next h =>
    rw [h, Nat.zero_sub, Nat.zero_mul, Nat.sub_zero, pow_zero, Nat.mul_one]
    omega
  · next h => congr 1; omega

/-- Every number splits into a shift and a significand that fills its 53 bits unless the shift is 0. -/
theorem exists_magShift (m : Nat) : ∃ d k, m = d * 2 ^ 52 + k ∧ k < 2 ^ 53 ∧ (d = 0 ∨ 2 ^ 52 ≤ k) :=
  ⟨magShift m, m - magShift m * 2 ^ 52, by unfold magShift; omega, by unfold magShift; omega, by unfold magShift; omega⟩

/-- The value of the pattern with shift `d` and significand `k`; a `k` of 2^53 is a carry into the exponent. -/
theorem magValue_shift {d k : Nat} (hk : k ≤ 2 ^ 53) (hd : d = 0 ∨ 2 ^ 52 ≤ k) : magValue (d * 2 ^ 52 + k) = k * 2 ^ d := by
  rcases Nat.lt_or_eq_of_le hk with hlt | rfl
  · have hs : magShift (d * 2 ^ 52 + k) = d := by unfold magShift; omega
    rw [magValue, hs, Nat.add_sub_cancel_left]
  · have hs : magShift (d * 2 ^ 52 + 2 ^ 53) = d + 1 := by unfold magShift; omega
    have hsub : d * 2 ^ 52 + 2 ^ 53 - (d + 1) * 2 ^ 52 = 2 ^ 52 := by omega
    rw [magValue, hs, hsub, pow_succ 2 d, pow_succ 2 52]
    ring

theorem magValue_strictMono : StrictMono magValue := by
  refine strictMono_nat_of_lt_succ fun m => ?_
  obtain ⟨d, k, rfl, hk, hd⟩ := exists_magShift m
  rw [Nat.add_assoc, magValue_shift hk.le hd, magValue_shift hk (by omega)]
  exact Nat.mul_lt_mul_of_pos_right k.lt_succ_self (Nat.two_pow_pos d)

theorem magValue_zero : magValue 0 = 0 := by simp [magValue]

theorem magUnits_eq_zero_iff (x : Word) : magUnits x = 0 ↔ magBits x = 0 := by
  rw [magUnits_eq, ← magValue_zero, magValue_strictMono.injective.eq_iff, magValue_zero]

/-! Rounding a number of units to bits 62:0. -/

/-- The step up from the significand `kept` when `lost` of a place of size `place` is cut off (roundTiesToEven). -/
def roundUp (place kept lost : Nat) : Nat := if place < 2 * lost then 1 else if 2 * lost = place then kept % 2 else 0

/-- `roundMag` before the cut at ∞. -/
def roundBits (n extra : Nat) : Nat :=
  let drop := max (n.log2 - 52) extra
  let kept := n / 2 ^ drop
  let lost := n % 2 ^ drop
  (drop - extra) * 2 ^ 52 + kept + roundUp (2 ^ drop) kept lost

theorem roundMag_eq (n extra : Nat) : roundMag n extra = min (0x7FF * 2 ^ 52) (roundBits n extra) := rfl

/-- `m` is a nearest magnitude to `n` units of 2^(−1074−extra), and an even one if there are two. -/
structure RoundsTo (n extra m : Nat) : Prop where
  nearest : ∀ c, |((magValue m * 2 ^ extra : Nat) : Int) - n| ≤ |((magValue c * 2 ^ extra : Nat) : Int) - n|
  ties_even : ∀ c, c ≠ m → |((magValue m * 2 ^ extra : Nat) : Int) - n| = |((magValue c * 2 ^ extra : Nat) : Int) - n| → m % 2 = 0

/-- `roundBits` cuts `n` at a place and moves up by `roundUp`; what is kept fills the significand unless the place is the lowest. -/
theorem roundBits_split (n extra : Nat) : ∃ d kept lost, n = kept * 2 ^ (d + extra) + lost ∧ lost < 2 ^ (d + extra) ∧ kept < 2 ^ 53
    ∧ (d = 0 ∨ 2 ^ 52 ≤ kept) ∧ roundBits n extra = d * 2 ^ 52 + (kept + roundUp (2 ^ (d + extra)) kept lost) := by
  have hdrop : max (n.log2 - 52) extra - extra + extra = max (n.log2 - 52) extra := by omega
  refine ⟨max (n.log2 - 52) extra - extra, n / 2 ^ max (n.log2 - 52) extra, n % 2 ^ max (n.log2 - 52) extra, ?_⟩
  rw [hdrop]
  refine ⟨?_, Nat.mod_lt _ (Nat.two_pow_pos _), ?_, ?_, ?_⟩
  · rw [Nat.mul_comm]
    exact (Nat.div_add_mod _ _).symm
  · rw [Nat.div_lt_iff_lt_mul (Nat.two_pow_pos _), ← pow_add]
    exact Nat.lt_log2_self.trans_le (Nat.pow_le_pow_right (by decide) (by omega))
  · by_cases hle : n.log2 - 52 ≤ extra
    · exact .inl (by omega)
    · right
      have hn : n ≠ 0 := by rintro rfl; simp at hle
      rw [Nat.le_div_iff_mul_le (Nat.two_pow_pos _), ← pow_add]
      exact (Nat.pow_le_pow_right (by decide) (by omega)).trans (Nat.log2_self_le hn)
  · rw [← Nat.add_assoc]
    rfl

theorem roundUp_cases (place kept lost : Nat) :
    (roundUp place kept lost = 0 ∧ 2 * lost ≤ place ∧ (2 * lost = place → kept % 2 = 0))
    ∨ (roundUp place kept lost = 1 ∧ place ≤ 2 * lost ∧ (2 * lost = place → kept % 2 = 1)) := by
  unfold roundUp
  split_ifs <;> omega

section roundUp

variable {place kept lost : Nat} {v : Int} (hl : lost < place) (hv : v ≤ (kept * place : Nat) ∨ ((kept + 1) * place : Nat) ≤ v)
include hl hv

/-- Between `kept` and `kept + 1` places, `roundUp` picks an end that is no farther from the number than anything outside. -/
theorem roundUp_nearest : |(((kept + roundUp place kept lost) * place : Nat) : Int) - (kept * place + lost : Nat)|
    ≤ |v - (kept * place + lost : Nat)| := by
  rw [Nat.succ_mul] at hv
  simp only [Int.abs_eq_natAbs]
  obtain ⟨hup, hhalf, -⟩ | ⟨hup, hhalf, -⟩ := roundUp_cases place kept lost
  · rw [hup, Nat.add_zero]
    omega
  · rw [hup, Nat.succ_mul]
    omega

/-- If something outside is as near, `lost` is half a place and `roundUp` picks the even end. -/
theorem roundUp_even_of_tie (hne : v ≠ ((kept + roundUp place kept lost) * place : Nat))
    (htie : |(((kept + roundUp place kept lost) * place : Nat) : Int) - (kept * place + lost : Nat)| = |v - (kept * place + lost : Nat)|) :
    (kept + roundUp place kept lost) % 2 = 0 := by
  rw [Nat.succ_mul] at hv
  simp only [Int.abs_eq_natAbs] at htie
  obtain ⟨hup, hhalf, heven⟩ | ⟨hup, hhalf, hodd⟩ := roundUp_cases place kept lost
  · rw [hup, Nat.add_zero] at hne htie ⊢
    exact heven (by omega)
  · rw [hup, Nat.succ_mul] at hne htie
    have := hodd (by omega)
    omega

end roundUp

/-- Every magnitude lies on one side of the place between the significands `k` and `k + 1`. -/
theorem magValue_outside {d k : Nat} (hk : k < 2 ^ 53) (hd : d = 0 ∨ 2 ^ 52 ≤ k) (extra c : Nat) :
    magValue c * 2 ^ extra ≤ k * 2 ^ (d + extra) ∨ (k + 1) * 2 ^ (d + extra) ≤ magValue c * 2 ^ extra := by
  rw [pow_add, ← Nat.mul_assoc, ← Nat.mul_assoc, ← magValue_shift hk.le hd, ← magValue_shift hk (by omega)]
  rcases Nat.lt_or_ge (d * 2 ^ 52 + k) c with hc | hc
  · exact .inr (Nat.mul_le_mul_right _ (magValue_strictMono.monotone hc))
  · exact .inl (Nat.mul_le_mul_right _ (magValue_strictMono.monotone hc))

/-- `roundBits` rounds to nearest, ties to even, over magnitudes with no largest one. -/
theorem roundBits_roundsTo (n extra : Nat) : RoundsTo n extra (roundBits n extra) := by
  obtain ⟨d, kept, lost, hn, hl, hk, hd, hr⟩ := roundBits_split n extra
  have hup : kept + roundUp (2 ^ (d + extra)) kept lost ≤ 2 ^ 53 := by
    rcases roundUp_cases (2 ^ (d + extra)) kept lost with h | h <;> omega
  have hval : magValue (roundBits n extra) * 2 ^ extra = (kept + roundUp (2 ^ (d + extra)) kept lost) * 2 ^ (d + extra) := by
    rw [hr, magValue_shift hup (by omega), pow_add, Nat.mul_assoc]
  have hout (c : Nat) : ((magValue c * 2 ^ extra : Nat) : Int) ≤ (kept * 2 ^ (d + extra) : Nat)
      ∨ ((kept + 1) * 2 ^ (d + extra) : Nat) ≤ ((magValue c * 2 ^ extra : Nat) : Int) := by
    exact_mod_cast magValue_outside hk hd extra c
  constructor
  · intro c
    have := roundUp_nearest hl (hout c)
    rwa [← hval, ← hn] at this
  · intro c hc htie
    have hne : ((magValue c * 2 ^ extra : Nat) : Int) ≠ (magValue (roundBits n extra) * 2 ^ extra : Nat) := by
      rw [Ne, Nat.cast_inj, Nat.mul_left_inj (Nat.two_pow_pos _).ne']
      exact fun h => hc (magValue_strictMono.injective h)
    have := roundUp_even_of_tie hl (hout c) (by rwa [← hval]) (by rwa [← hval, ← hn])
    omega

/-- The largest finite magnitude and the one after it, half a unit to each side of the overflow bound (00_scope R10); `half` is that half unit. -/
theorem magValue_at_overflow {half : Nat} (hhalf : half = 2 ^ 2044) :
    magValue (0x7FF * 2 ^ 52 - 1) = (2 ^ 54 - 2) * half ∧ magValue (0x7FF * 2 ^ 52) = 2 ^ 54 * half := by
  have hlast : magValue (2045 * 2 ^ 52 + (2 ^ 53 - 1)) = (2 ^ 53 - 1) * 2 ^ 2045 := magValue_shift (by omega) (by omega)
  have hinf : magValue (2046 * 2 ^ 52 + 2 ^ 52) = 2 ^ 52 * 2 ^ 2046 := magValue_shift (by omega) (by omega)
  refine ⟨hlast.trans ?_, hinf.trans ?_⟩
  · rw [pow_succ 2 2044, ← hhalf]
    omega
  · rw [pow_add 2 2044 2, ← hhalf]
    omega

/-- Rounding passes the largest finite magnitude exactly from half a unit beyond it: the midpoint goes up, as the largest magnitude is odd. -/
theorem RoundsTo.overflow_iff {n extra m : Nat} (h : RoundsTo n extra m) {half : Nat} (hhalf : half = 2 ^ 2044) :
    0x7FF * 2 ^ 52 ≤ m ↔ (2 ^ 54 - 1) * half * 2 ^ extra ≤ n := by
  obtain ⟨hlast, hinf⟩ := magValue_at_overflow hhalf
  have hpos : 0 < half * 2 ^ extra := by rw [hhalf]; positivity
  clear hhalf
  have hlast_near := h.nearest (0x7FF * 2 ^ 52 - 1)
  have hinf_near := h.nearest (0x7FF * 2 ^ 52)
  have hinf_tie := h.ties_even (0x7FF * 2 ^ 52)
  have hmono : StrictMono fun c => magValue c * 2 ^ extra :=
    fun _ _ hc => Nat.mul_lt_mul_of_pos_right (magValue_strictMono hc) (Nat.two_pow_pos _)
  have hle_inf : 0x7FF * 2 ^ 52 ≤ m → magValue (0x7FF * 2 ^ 52) * 2 ^ extra ≤ magValue m * 2 ^ extra := fun hm => hmono.monotone hm
  have hlt_last : m < 0x7FF * 2 ^ 52 - 1 → magValue m * 2 ^ extra < magValue (0x7FF * 2 ^ 52 - 1) * 2 ^ extra := fun hm => hmono hm
  have heq_last : m = 0x7FF * 2 ^ 52 - 1 → magValue m * 2 ^ extra = magValue (0x7FF * 2 ^ 52 - 1) * 2 ^ extra := fun hm => by rw [hm]
  simp only [Int.abs_eq_natAbs] at hlast_near hinf_near hinf_tie
  rw [hlast, Nat.mul_assoc] at hlast_near hlt_last heq_last
  rw [hinf, Nat.mul_assoc] at hinf_near hinf_tie hle_inf
  rw [Nat.mul_assoc]
  generalize half * 2 ^ extra = scaled at *
  constructor
  · intro hm
    have := hle_inf hm
    omega
  · intro hn
    by_contra hm
    rcases Nat.lt_or_ge m (0x7FF * 2 ^ 52 - 1) with hlt | hge
    · have := hlt_last hlt
      omega
    · have := heq_last (by omega)
      have := hinf_tie (by omega) (by omega)
      omega

/-! A rounded magnitude with its sign. -/

/-- `n` with the given sign. -/
def withSign (neg : Bool) (n : Nat) : Int := if neg then -(n : Int) else n

theorem units_eq (x : Word) : units x = withSign (isNeg x) (magValue (magBits x)) := by rw [← magUnits_eq]; rfl

@[simp] theorem units_negF (x : Word) : units (negF x) = -units x := by
  rw [units_eq, units_eq, isNeg_negF, magBits_negF]
  cases isNeg x <;> simp [withSign]

theorem withSign_mul (p q : Bool) (m n : Nat) : withSign p m * withSign q n = withSign (p != q) (m * n) := by
  cases p <;> cases q <;> simp [withSign]

theorem roundMag_le (n extra : Nat) : roundMag n extra ≤ 0x7FF * 2 ^ 52 := Nat.min_le_left ..

theorem packF_toNat (neg : Bool) (n extra : Nat) : (packF neg n extra).toNat = (if neg then 2 ^ 63 else 0) + roundMag n extra := by
  have := roundMag_le n extra
  rw [packF, BitVec.toNat_ofNat, Nat.mod_eq_of_lt]
  split <;> omega

@[simp] theorem magBits_packF (neg : Bool) (n extra : Nat) : magBits (packF neg n extra) = roundMag n extra := by
  have := roundMag_le n extra
  rw [magBits, packF_toNat]
  split <;> omega

@[simp] theorem isNeg_packF (neg : Bool) (n extra : Nat) : isNeg (packF neg n extra) = neg := by
  have := roundMag_le n extra
  rw [Bool.eq_iff_iff, isNeg_iff, packF_toNat]
  cases neg
  · simp only [Bool.false_eq_true, if_false, iff_false]
    omega
  · simp only [if_true, iff_true]
    omega

theorem isNaN_packF (neg : Bool) (n extra : Nat) : isNaN (packF neg n extra) = false := by
  have := roundMag_le n extra
  rw [Bool.eq_false_iff, Ne, isNaN_iff, magBits_packF]
  omega

theorem isInf_packF_iff (neg : Bool) (n extra : Nat) :
    isInf (packF neg n extra) = true ↔ (2 ^ 54 - 1) * 2 ^ 2044 * 2 ^ extra ≤ n := by
  rw [isInf_iff, magBits_packF, roundMag_eq, min_eq_left_iff, (roundBits_roundsTo n extra).overflow_iff rfl]

/-- A finite result was not cut at ∞. -/
theorem roundMag_roundsTo {neg : Bool} {n extra : Nat} (hfin : isFinite (packF neg n extra) = true) : RoundsTo n extra (roundMag n extra) := by
  rw [isFinite_iff, magBits_packF] at hfin
  have : roundMag n extra = roundBits n extra := by rw [roundMag_eq] at hfin ⊢; omega
  rw [this]
  exact roundBits_roundsTo n extra

/-- The distance of a pattern from a signed number: of the magnitudes if the signs agree, and their sum if not. -/
theorem abs_units_sub (c : Word) (neg : Bool) (n extra : Nat) :
    |units c * 2 ^ extra - withSign neg n|
      = if isNeg c = neg then |((magValue (magBits c) * 2 ^ extra : Nat) : Int) - n| else ((magValue (magBits c) * 2 ^ extra + n : Nat) : Int) := by
  have hu : units c * 2 ^ extra = withSign (isNeg c) (magValue (magBits c) * 2 ^ extra) := by
    rw [units_eq]
    cases isNeg c <;> simp [withSign]
  rw [hu]
  generalize magValue (magBits c) * 2 ^ extra = v
  simp only [Int.abs_eq_natAbs, withSign]
  cases isNeg c <;> cases neg <;> simp only [reduceCtorEq, if_true, if_false] <;> omega

theorem getLsbD_zero_eq_false {x : Word} (h : magBits x % 2 = 0) : x.getLsbD 0 = false := by
  rw [magBits] at h
  simp only [BitVec.getLsbD, Nat.testBit_zero, decide_eq_false_iff_not]
  omega

/-- A rounded magnitude is no farther from `n` than zero is. -/
theorem RoundsTo.abs_sub_le {n extra m : Nat} (h : RoundsTo n extra m) : |((magValue m * 2 ^ extra : Nat) : Int) - n| ≤ n := by
  have := h.nearest 0
  rw [magValue_zero] at this
  simpa using this

/-- `packF` rounds the signed number of units as 00_scope R10 asks. -/
theorem isRounded_packF (neg : Bool) (n extra : Nat) : IsRounded (packF neg n extra) (withSign neg n) extra := by
  have habs : |withSign neg n| = n := by cases neg <;> simp [withSign]
  constructor
  case not_nan => exact isNaN_packF neg n extra
  case overflow =>
    have hlit : ((2 ^ 54 - 1 : Nat) : Int) = 2 ^ 54 - 1 := rfl
    rw [isInf_packF_iff, habs, ← Nat.cast_le (α := Int)]
    simp only [Nat.cast_mul, Nat.cast_pow, Nat.cast_ofNat, hlit]
  case overflow_sign =>
    intro hinf
    have hn : 0 < n := lt_of_lt_of_le (by positivity) ((isInf_packF_iff neg n extra).mp hinf)
    rw [isNeg_packF]
    cases neg <;> simp [withSign, hn]
  case nearest =>
    intro hfin c _
    have h := roundMag_roundsTo hfin
    rw [abs_units_sub, abs_units_sub, isNeg_packF, if_pos rfl, magBits_packF]
    split
    · exact h.nearest _
    · have := h.abs_sub_le
      omega
  case ties_even =>
    intro hfin c _ hne htie
    have h := roundMag_roundsTo hfin
    apply getLsbD_zero_eq_false
    rw [units_eq, units_eq, isNeg_packF, magBits_packF] at hne
    rw [abs_units_sub, abs_units_sub, isNeg_packF, if_pos rfl, magBits_packF] at htie
    rw [magBits_packF]
    split at htie
    · next hs =>
      refine h.ties_even _ (fun hm => hne ?_) htie
      rw [hs, hm]
    · have hle := h.abs_sub_le
      have hc : magValue (magBits c) = 0 := by
        have hc' : magValue (magBits c) * 2 ^ extra = 0 := by omega
        exact (Nat.mul_eq_zero.mp hc').resolve_right (Nat.two_pow_pos _).ne'
      rw [hc, Nat.zero_mul, Nat.zero_add] at htie
      refine h.ties_even 0 (fun hm => hne ?_) (by simpa [magValue_zero] using htie)
      rw [hc, ← hm, magValue_zero]
      simp [withSign]

/-! The operations on finite operands. -/

/-- The sign of a sum: a zero sum is negative only if both operands are (00_scope R10). -/
def sumSign (a b : Word) : Bool := if units a + units b = 0 then isNeg a && isNeg b else decide (units a + units b < 0)

theorem packF_zero (neg : Bool) : packF neg 0 0 = if neg then minusZero else plusZero := by cases neg <;> decide

theorem addF_of_isFinite {a b : Word} (ha : isFinite a = true) (hb : isFinite b = true) :
    addF a b = packF (sumSign a b) (units a + units b).natAbs 0 := by
  have hadd : addF a b = if units a + units b = 0 then (if isNeg a && isNeg b then minusZero else plusZero)
      else packF (decide (units a + units b < 0)) (units a + units b).natAbs 0 := by
    simp [addF, isNaN_eq_false_of_isFinite, isInf_eq_false_of_isFinite, ha, hb]
  rw [hadd, sumSign]
  split
  · next h => rw [h, Int.natAbs_zero, packF_zero]
  · rfl

theorem withSign_sumSign (a b : Word) : withSign (sumSign a b) (units a + units b).natAbs = units a + units b := by
  unfold sumSign withSign
  split
  · next h => simp [h]
  · next h => split <;> rename_i hneg <;> rw [decide_eq_true_iff] at hneg <;> omega

/-- The sum of finite operands is rounded as 00_scope R10 asks. -/
theorem isRounded_addF {a b : Word} (ha : isFinite a = true) (hb : isFinite b = true) : IsRounded (addF a b) (units a + units b) 0 := by
  have := isRounded_packF (sumSign a b) (units a + units b).natAbs 0
  rwa [withSign_sumSign, ← addF_of_isFinite ha hb] at this

/-- Two negative patterns with sum zero are negative zeros. -/
theorem eq_minusZero_of_add_eq_zero {a b : Word} (ha : isNeg a = true) (hb : isNeg b = true) (h : units a + units b = 0) :
    a = minusZero ∧ b = minusZero := by
  have hmag : magUnits a = 0 ∧ magUnits b = 0 := by
    simp only [units, ha, hb, if_true] at h
    omega
  rw [magUnits_eq_zero_iff, magUnits_eq_zero_iff] at hmag
  have ha0 := eq_zero_of_magBits hmag.1
  have hb0 := eq_zero_of_magBits hmag.2
  rw [ha, if_pos rfl] at ha0
  rw [hb, if_pos rfl] at hb0
  exact ⟨ha0, hb0⟩

/-- An exact zero sum is +0.0 unless both operands are −0.0 (00_scope R10). -/
theorem addF_of_add_eq_zero {a b : Word} (ha : isFinite a = true) (hb : isFinite b = true) (h : units a + units b = 0) :
    addF a b = if a = minusZero ∧ b = minusZero then minusZero else plusZero := by
  have hiff : sumSign a b = true ↔ a = minusZero ∧ b = minusZero := by
    rw [sumSign, if_pos h, Bool.and_eq_true]
    refine ⟨fun ⟨hna, hnb⟩ => eq_minusZero_of_add_eq_zero hna hnb h, ?_⟩
    rintro ⟨rfl, rfl⟩
    exact ⟨rfl, rfl⟩
  rw [addF_of_isFinite ha hb, h, Int.natAbs_zero, packF_zero]
  simp only [hiff]

/-- Settles O15: `addF` rounds the exact sum once by `packF`, and `subF` is `addF` with the second operand's sign turned. -/
theorem addRoundsToNearestEven : Obligations.AddRoundsToNearestEven := by
  intro a b ha hb
  have hb' : isFinite (negF b) = true := by rwa [isFinite_negF]
  refine ⟨isRounded_addF ha hb, ?_, addF_of_add_eq_zero ha hb, fun h => ?_⟩
  · have := isRounded_addF ha hb'
    rwa [units_negF, ← sub_eq_add_neg] at this
  · rw [subF, addF_of_add_eq_zero ha hb' (by rw [units_negF, ← sub_eq_add_neg, h])]
    simp only [negF_eq_minusZero_iff]

theorem mulF_of_isFinite {a b : Word} (ha : isFinite a = true) (hb : isFinite b = true) :
    mulF a b = packF (isNeg a != isNeg b) (magUnits a * magUnits b) 1074 := by
  simp [mulF, isNaN_eq_false_of_isFinite, isInf_eq_false_of_isFinite, ha, hb]

/-- Settles O16: the product of the magnitudes with the exclusive or of the signs, rounded once by `packF`. -/
theorem mulRoundsToNearestEven : Obligations.MulRoundsToNearestEven := by
  intro a b ha hb
  rw [mulF_of_isFinite ha hb, units_eq, units_eq, withSign_mul, ← magUnits_eq, ← magUnits_eq, isNeg_packF]
  exact ⟨isRounded_packF _ _ _, by cases isNeg a <;> cases isNeg b <;> rfl⟩

/-! NaN and infinite operands. -/

theorem addF_of_isNaN {a b : Word} (h : isNaN a = true ∨ isNaN b = true) : addF a b = qNaN := by
  rw [addF, if_pos (by simpa using h)]

theorem mulF_of_isNaN {a b : Word} (h : isNaN a = true ∨ isNaN b = true) : mulF a b = qNaN := by
  rw [mulF, if_pos (by simpa using h)]

theorem addF_inf_finite {a b : Word} (ha : isInf a = true) (hb : isFinite b = true) : addF a b = a ∧ addF b a = a := by
  simp [addF, isNaN_eq_false_of_isInf ha, isNaN_eq_false_of_isFinite hb, ha, isInf_eq_false_of_isFinite hb]

theorem addF_inf_inf {a b : Word} (ha : isInf a = true) (hb : isInf b = true) : addF a b = if isNeg a = isNeg b then a else qNaN := by
  by_cases hs : isNeg a = isNeg b <;> simp [addF, isNaN_eq_false_of_isInf ha, isNaN_eq_false_of_isInf hb, ha, hb, hs]

/-- `addF` has no other NaN result than the canonical one. -/
theorem addF_eq_qNaN_of_isNaN {a b : Word} (h : isNaN (addF a b) = true) : addF a b = qNaN := by
  rcases isFinite_or_isInf_or_isNaN a with ha | ha | ha
  · rcases isFinite_or_isInf_or_isNaN b with hb | hb | hb
    · rw [addF_of_isFinite ha hb, isNaN_packF] at h
      cases h
    · simp [(addF_inf_finite hb ha).2, isNaN_eq_false_of_isInf hb] at h
    · exact addF_of_isNaN (.inr hb)
  · rcases isFinite_or_isInf_or_isNaN b with hb | hb | hb
    · simp [(addF_inf_finite ha hb).1, isNaN_eq_false_of_isInf ha] at h
    · rw [addF_inf_inf ha hb] at h ⊢
      split at h
      · simp [isNaN_eq_false_of_isInf ha] at h
      · next hs => rw [if_neg hs]
    · exact addF_of_isNaN (.inr hb)
  · exact addF_of_isNaN (.inl ha)

theorem mulF_comm (a b : Word) : mulF a b = mulF b a := by
  simp only [mulF, Bool.or_comm (isNaN a), Bool.or_comm (isInf a), Bool.or_comm (isFinite a && _), Nat.mul_comm (magUnits a),
    bne_comm (a := isNeg a)]

/-- An infinity times a zero of either sign is the canonical NaN (00_scope R10). -/
theorem mulF_inf_zero {a b : Word} (ha : isInf a = true) (hb : magBits b = 0) : mulF a b = qNaN := by
  have hfin : isFinite b = true := by rw [isFinite_iff]; omega
  simp [mulF, isNaN_eq_false_of_isInf ha, isNaN_eq_false_of_isFinite hfin, ha, hfin, (magUnits_eq_zero_iff b).mpr hb]

theorem mulF_inf_nonzero {a b : Word} (ha : isInf a = true) (hb : isNaN b = false) (hne : magBits b ≠ 0) :
    mulF a b = if isNeg a = isNeg b then 0x7FF0000000000000#64 else 0xFFF0000000000000#64 := by
  have hmag : magUnits b ≠ 0 := by rwa [Ne, magUnits_eq_zero_iff]
  by_cases hs : isNeg a = isNeg b <;>
    simp [mulF, isNaN_eq_false_of_isInf ha, isFinite_eq_false_of_isInf ha, hb, ha, hmag, hs]

/-- An infinity times anything has no other NaN result than the canonical one. -/
theorem mulF_inf_eq_qNaN_of_isNaN {a b : Word} (ha : isInf a = true) (h : isNaN (mulF a b) = true) : mulF a b = qNaN := by
  cases hb : isNaN b
  · by_cases hz : magBits b = 0
    · exact mulF_inf_zero ha hz
    · rw [mulF_inf_nonzero ha hb hz] at h
      split at h <;> exact absurd h (by decide)
  · exact mulF_of_isNaN (.inr hb)

/-- `mulF` has no other NaN result than the canonical one. -/
theorem mulF_eq_qNaN_of_isNaN {a b : Word} (h : isNaN (mulF a b) = true) : mulF a b = qNaN := by
  rcases isFinite_or_isInf_or_isNaN a with ha | ha | ha
  · rcases isFinite_or_isInf_or_isNaN b with hb | hb | hb
    · rw [mulF_of_isFinite ha hb, isNaN_packF] at h
      cases h
    · rw [mulF_comm] at h ⊢
      exact mulF_inf_eq_qNaN_of_isNaN hb h
    · exact mulF_of_isNaN (.inr hb)
  · exact mulF_inf_eq_qNaN_of_isNaN ha h
  · exact mulF_of_isNaN (.inl ha)

/-- Settles O17: the operands' classes decide the result, and a rounded result is never a NaN. -/
theorem nanResultsAreCanonical : Obligations.NaNResultsAreCanonical := by
  intro a b
  refine ⟨addF_eq_qNaN_of_isNaN, addF_eq_qNaN_of_isNaN, mulF_eq_qNaN_of_isNaN, fun h => ?_, fun ha hb => ?_, fun ha hb => ?_,
    fun ha hb => ?_, fun ha hb hp hm => ?_⟩
  · exact ⟨addF_of_isNaN h, addF_of_isNaN (by rwa [isNaN_negF]), mulF_of_isNaN h⟩
  · obtain ⟨hab, hba⟩ := addF_inf_finite ha hb
    exact ⟨hab, hba, (addF_inf_finite ha (by rwa [isFinite_negF])).1, (addF_inf_finite (by rwa [isInf_negF]) hb).2⟩
  · refine ⟨addF_inf_inf ha hb, ?_⟩
    rw [subF, addF_inf_inf ha (by rwa [isInf_negF]), isNeg_negF]
    cases isNeg a <;> cases isNeg b <;> rfl
  · have hz := (magBits_eq_zero_iff b).mpr hb
    exact ⟨mulF_inf_zero ha hz, by rw [mulF_comm, mulF_inf_zero ha hz]⟩
  · have hz : magBits b ≠ 0 := by
      rw [Ne, magBits_eq_zero_iff]
      exact fun h => h.elim hp hm
    have hab := mulF_inf_nonzero ha hb hz
    exact ⟨hab, by rw [mulF_comm, hab]⟩

end Sys2Proof.Proofs
end

section
/-! SUPPORT. Proofs of 10_state, one access: what an idle access of each register does (R22 to R41), and STATUS, busy or not (R25, R26). -/

namespace Sys2Proof.Proofs

open Sys2Proof.Machine

/-! Idle accesses. -/

/-- With nothing in flight a read is as 10_state describes it. -/
theorem hostRead_of_idle {s : State} (h : s.busy = false) (r : Reg) : s.hostRead r = s.readReg r := by simp [State.hostRead, h]

/-- With nothing in flight a write is as 10_state describes it. -/
theorem hostWrite_of_idle {s : State} (h : s.busy = false) (r : Reg) (w : Word) : s.hostWrite r w = s.writeReg w r := by
  simp [State.hostWrite, h]

/-- An index of `n` bits advances modulo 2^n (20_memory R63). -/
theorem add_one_eq_ofNat {n : Nat} (i : BitVec n) : i + 1 = BitVec.ofNat n ((i.toNat + 1) % 2 ^ n) := by
  apply BitVec.eq_of_toNat_eq
  simp

/-- Settles O48: an idle read is `readReg`, whose arm for each of these registers is the stated pair. -/
theorem idleReadsOfPlainRegisters : Obligations.IdleReadsOfPlainRegisters := by
  intro s h
  simp only [hostRead_of_idle h]
  exact ⟨rfl, rfl, rfl, rfl, rfl, rfl, rfl, rfl, rfl, rfl, rfl, rfl, rfl, rfl, rfl, rfl, rfl, fun _ => rfl⟩

/-- Settles O52: an idle write is `writeReg`, whose arm stores the low bits of the word, or nothing. -/
theorem idleWritesOfPlainRegisters : Obligations.IdleWritesOfPlainRegisters := by
  intro s w h
  simp only [hostWrite_of_idle h, BitVec.setWidth_eq_extractLsb' (show 6 ≤ 64 by decide),
    BitVec.setWidth_eq_extractLsb' (show 8 ≤ 64 by decide), BitVec.setWidth_eq_extractLsb' (show 32 ≤ 64 by decide)]
  refine ⟨rfl, rfl, rfl, rfl, rfl, rfl, rfl, rfl, rfl, rfl, rfl, rfl, fun r hr => ?_⟩
  rcases hr with rfl | rfl | rfl | rfl | rfl | rfl | ⟨k, rfl⟩ <;> rfl

/-- A STATUS write, field by field (10_state R26). -/
theorem writeStatus_eq (s : State) (w : Word) : s.writeStatus w = { s with
    done := if w.getLsbD 1 then false else s.done
    err := if w.getLsbD 2 then false else s.err
    errCode := if w.getLsbD 2 then 0 else s.errCode
    errInfo := if w.getLsbD 2 then 0 else s.errInfo
    qoor := if w.getLsbD 3 then false else s.qoor } := by
  unfold State.writeStatus
  cases w.getLsbD 1 <;> cases w.getLsbD 2 <;> cases w.getLsbD 3 <;> rfl

/-- Settles O46: a STATUS write is never refused, and `writeStatus` clears the fields its bits name. -/
theorem statusWriteClearsBits : Obligations.StatusWriteClearsBits := by
  intro s w
  rw [← writeStatus_eq]
  simp [State.hostWrite, Reg.writableWhileBusy, State.writeReg]

/-- BUSY is 1 exactly when something is in flight (10_state R49). -/
theorem busy_iff (s : State) : s.busy = true ↔ s.pending ≠ .none := by
  unfold State.busy
  split <;> simp_all

/-- Settles O47: a STATUS read is never refused, and its value is the concatenation `statusWord`, read bit by bit. -/
theorem statusReadShowsFields : Obligations.StatusReadShowsFields := by
  intro s
  refine ⟨s.statusWord, by simp [State.hostRead, Reg.readableWhileBusy, State.readReg], ?_⟩
  rw [← busy_iff]
  simp only [State.statusWord, BitVec.getLsbD_append]
  refine ⟨by simp, by simp, by simp, by simp, by simp, fun i h1 h2 => ?_, ?_, fun i hi => ?_⟩
  · interval_cases i <;> simp
  · ext k hk
    simp only [BitVec.getElem_extractLsb', BitVec.getLsbD_append]
    interval_cases k <;> simp
  · repeat rw [if_neg (by omega)]
    exact BitVec.getLsbD_zero

/-- A linear index is that of its own row and column (00_scope R12). -/
theorem cell_rowOf_colOf (k : Fin 64) : cell (rowOf k) (colOf k) = k := Fin.ext (Nat.div_add_mod k.val 8)

/-- Settles O49: `readReg` and `writeReg` at the port, with the laws of `set6` and `set8` for the buffers and of `+ 1` for the index. -/
theorem idleIndexedPortsAdvance : Obligations.IdleIndexedPortsAdvance := by
  intro s w h
  have h6 (i : BitVec 6) : BitVec.ofNat 6 ((i.toNat + 1) % 64) = i + 1 := (add_one_eq_ofNat i).symm
  have h8 (i : BitVec 8) : BitVec.ofNat 8 ((i.toNat + 1) % 256) = i + 1 := (add_one_eq_ofNat i).symm
  simp only [hostRead_of_idle h, hostWrite_of_idle h, h6, h8]
  refine ⟨rfl, rfl, rfl, rfl, rfl, fun k hk => ?_, ⟨_, rfl, ?_, fun k hk => ?_, rfl⟩, ⟨_, rfl, ?_, fun k hk => ?_, rfl⟩,
    ⟨_, rfl, ?_, fun k hk => ?_, rfl⟩⟩
  · obtain rfl : k = ⟨s.romIdx.toNat, s.romIdx.isLt⟩ := Fin.ext hk
    simp only [State.readReg, cosRom, cell_rowOf_colOf]
    refine ⟨fun hsel => ?_, fun hsel => ?_, fun hsel => ?_, fun hsel => ?_⟩ <;> rw [hsel] <;> rfl
  · simp [State.writeReg, at6_set6]
  · simp [State.writeReg, at6_set6, hk.symm]
  · simp [State.writeReg, at6_set6]
  · simp [State.writeReg, at6_set6, hk.symm]
  · simp [State.writeReg, at8_set8, htOfWord]
  · simp [State.writeReg, at8_set8, hk.symm]

/-- In range a byte port's address advances without wrapping (20_memory R63). -/
theorem add_one_of_lt {a cap : BitVec 32} (h : a.toNat < cap.toNat) : BitVec.ofNat 32 (a.toNat + 1) = a + 1 ∧ a.toNat + 1 < 2 ^ 32 := by
  refine ⟨BitVec.eq_of_toNat_eq (by simp), ?_⟩
  have := cap.isLt
  omega

/-- Settles O50: in range a port reaches the addressed byte, and the address stays below the capacity, so that it does not wrap. -/
theorem idleBytePortsInRange : Obligations.IdleBytePortsInRange := by
  intro s w h
  rw [hostRead_of_idle h, hostRead_of_idle h, hostWrite_of_idle h, hostWrite_of_idle h]
  refine ⟨fun hlt => ?_, fun hlt => ?_⟩
  · obtain ⟨hnext, hbound⟩ := add_one_of_lt hlt
    have hin : s.symAddr < s.params.symCap := hlt
    rw [hnext]
    simp only [State.readReg, State.readSymData, State.writeReg, State.writeSymData, if_pos hin]
    exact ⟨trivial, hbound, fun hwf => ⟨_, rfl, fun a => Memory.read_write hwf _ a _, rfl⟩⟩
  · obtain ⟨hnext, hbound⟩ := add_one_of_lt hlt
    have hin : s.bitAddr < s.params.bitCap := hlt
    rw [hnext]
    simp only [State.readReg, State.readBitData, State.writeReg, State.writeBitData, if_pos hin]
    exact ⟨trivial, hbound, fun hwf => ⟨_, rfl, fun a => Memory.read_write hwf _ a _, rfl⟩⟩

end Sys2Proof.Proofs
end

section
/-! SUPPORT. What a command, a host access and a step can do to the state, once: the case lists from which the rules of the whole machine follow
(10_state R23 to R30, R42 to R47). -/

namespace Sys2Proof.Proofs

open Sys2Proof.Machine

/-! Commands. -/

/-- The effects of a command that succeeds, DONE and the end of the busy period aside (10_state R42 to R47): bytes written to SYM or BITS
lie within the capacity. -/
inductive CommandEffect (s : State) : Instr → State → Prop
  | nothing : CommandEffect s .nop s
  | block {i : Instr} (hi : i = .fdct ∨ i = .idct ∨ i = .dequant ∨ i = .lshiftDn ∨ i = .lshiftUp) (b : Vector Word 64) :
      CommandEffect s i { s with blk := b }
  | bytes {i : Instr} (hi : i = .zzScan ∨ i = .zzUnscan ∨ ∃ r, i = .runGet r) (b : Vector Byte 64) : CommandEffect s i { s with qb := b }
  | quantized (b : Vector Byte 64) (any : Bool) : CommandEffect s .quant { s with qb := b, qoor := stickyQoor s.qoor any }
  | matrix {q : Nat} (hq : qualityOk q = true) :
      CommandEffect s (.qmBuild q) { s with qm := qmMatrix q, quality := BitVec.ofNat 8 q, qmValid := true }
  | encoded {bs : List Byte} (hbs : bs.length ≤ s.params.bitCap.toNat) (t : Vector HtEntry 256) (n : Word) (l : BitVec 32) :
      CommandEffect s .huffEnc { s with ht := t, bits := s.bits.writeBytes 0 bs, bitCount := n, bitLen := l }
  | decoded {bs : List Byte} (hbs : bs.length ≤ s.params.symCap.toNat) (n : BitVec 32) :
      CommandEffect s .huffDec { s with sym := s.sym.writeBytes 0 bs, symCount := n }
  | run {r : Nat} {bs : List Byte} (hbs : runBase r + bs.length ≤ s.params.symCap.toNat) :
      CommandEffect s (.runPut r) { s with sym := s.sym.writeBytes (runBase r) bs }

/-- The two ends of a command: an error, which changes nothing but the record, or success (60_exceptions R214). -/
inductive CommandEnd (s : State) (i : Instr) : Host.Outcome State Fault Refusal → Prop
  | raised (c : ErrorCode) (info : Word) : CommandEnd s i (raiseError s c info)
  | succeeded {u : State} (h : CommandEffect s i u) : CommandEnd s i (succeed u)

theorem execHuffEnc_end (s : State) : CommandEnd s .huffEnc (execHuffEnc s) := by
  unfold execHuffEnc
  dsimp only
  split
  · exact .raised ..
  · split
    · exact .raised ..
    · exact .succeeded (.encoded (by rw [length_packStream, length_codeStream]; omega) ..)

/-- A stream decodes to at most SYM_CAP symbols (44_huffman R179). -/
theorem length_le_of_decodeStream {t : Vector HtEntry 256} {stream : Nat → Bool} {symCap n : Nat} {out : List Byte}
    (h : decodeStream t stream symCap n = .ok out) : out.length ≤ symCap := by
  unfold decodeStream at h
  split at h
  · cases h
  · rename_i hwalk
    split at h
    · cases h
      simpa using walkStream_out_le (Nat.zero_le _) hwalk
    · cases h

theorem execHuffDec_end (s : State) : CommandEnd s .huffDec (execHuffDec s) := by
  unfold execHuffDec
  split
  · exact .raised ..
  · split
    · exact .raised ..
    · split
      · exact .raised ..
      · split
        · exact .raised ..
        · exact .succeeded (.decoded (length_le_of_decodeStream ‹_›) _)

/-- Every command raises an error or has its effects. -/
theorem exec_end (i : Instr) (s : State) : CommandEnd s i (exec i s) := by
  cases i with
  | nop => exact .succeeded .nothing
  | fdct => exact .succeeded (.block (by simp) _)
  | idct => exact .succeeded (.block (by simp) _)
  | lshiftDn => exact .succeeded (.block (by simp) _)
  | lshiftUp => exact .succeeded (.block (by simp) _)
  | zzScan => exact .succeeded (.bytes (by simp) _)
  | zzUnscan => exact .succeeded (.bytes (by simp) _)
  | huffEnc => exact execHuffEnc_end s
  | huffDec => exact execHuffDec_end s
  | qmBuild q =>
    simp only [exec, execQmBuild]
    split
    · exact .succeeded (.matrix ‹_›)
    · exact .raised ..
  | quant =>
    simp only [exec, execQuant]
    split
    · exact .succeeded (.quantized ..)
    · exact .raised ..
  | dequant =>
    simp only [exec, execDequant]
    split
    · exact .succeeded (.block (by simp) _)
    · exact .raised ..
  | runPut r =>
    simp only [exec, execRunPut, runInRange, decide_eq_true_eq]
    split
    · exact .succeeded (.run (by simpa))
    · exact .raised ..
  | runGet r =>
    simp only [exec, execRunGet]
    split
    · exact .succeeded (.bytes (by simp) _)
    · exact .raised ..

/-- The next state of a command: the record of its error, or its effects, with DONE set and nothing in flight. -/
theorem exec_cases {i : Instr} {s t : State} (h : exec i s = .next t) :
    (∃ c info, t = (s.record c info).finish) ∨ ∃ u, CommandEffect s i u ∧ t = u.finish := by
  have hend := exec_end i s
  rw [h] at hend
  generalize ho : Host.Outcome.next t = o at hend
  cases hend with
  | raised c info => cases ho; exact .inl ⟨c, info, rfl⟩
  | succeeded hu => cases ho; exact .inr ⟨_, hu, rfl⟩

/-- Settles O44: a command that raises an error changes the record only, and every other one the fields of its `CommandEffect`. -/
theorem commandsWriteOnlyTheirBuffers : Obligations.CommandsWriteOnlyTheirBuffers := by
  intro i s t h
  obtain ⟨c, info, rfl⟩ | ⟨u, hu, rfl⟩ := exec_cases h
  · simp
  · cases hu with
    | nothing => simp
    | block hi b => simp [hi]
    | bytes hi b => simp [hi]
    | quantized b any => simp +contextual [stickyQoor]
    | matrix hq => simp
    | encoded hbs t n l => simp
    | decoded hbs n => simp
    | run hbs => simp

/-! Host accesses. -/

/-- `u` with every field the invariant speaks of taken from `s`. -/
def withGuardedOf (u s : State) : State :=
  { u with
    params := s.params, pending := s.pending, cmd := s.cmd, err := s.err, errCode := s.errCode, errInfo := s.errInfo, errorLog := s.errorLog
    qmValid := s.qmValid, quality := s.quality, qm := s.qm, sym := s.sym, bits := s.bits }

/-- What a host access can do to the block: most leave every field the invariant speaks of as it is. -/
inductive AccessEffect (s : State) : Reg → AccessKind → State → Prop
  | other {r : Reg} {k : AccessKind} {t : State} (h : withGuardedOf t s = t) : AccessEffect s r k t
  | record {r : Reg} {k : AccessKind} (c : ErrorCode) (info : Word) : AccessEffect s r k (s.record c info)
  | status (w : Word) : AccessEffect s .status (.write w) (s.writeStatus w)
  | softReset {w : Word} (h : w.getLsbD 0 = true) : AccessEffect s .ctrl (.write w) s.softReset
  | accept (w : Word) : AccessEffect s .cmd (.write w) { s with cmd := w, pending := .cmd w }
  | symByte {w : Word} (h : s.symAddr.toNat < s.params.symCap.toNat) (b : Byte) (a : BitVec 32) :
      AccessEffect s .symData (.write w) { s with sym := s.sym.write s.symAddr.toNat b, symAddr := a }
  | bitByte {w : Word} (h : s.bitAddr.toNat < s.params.bitCap.toNat) (b : Byte) (a : BitVec 32) :
      AccessEffect s .bitData (.write w) { s with bits := s.bits.write s.bitAddr.toNat b, bitAddr := a }

theorem readReg_effect (s : State) (r : Reg) : AccessEffect s r .read (s.readReg r).2 := by
  cases r
  case symData =>
    simp only [State.readReg, State.readSymData]
    split
    · exact .other rfl
    · exact .record ..
  case bitData =>
    simp only [State.readReg, State.readBitData]
    split
    · exact .other rfl
    · exact .record ..
  all_goals exact .other rfl

theorem hostRead_effect (s : State) (r : Reg) : AccessEffect s r .read (s.hostRead r).2 := by
  unfold State.hostRead
  split
  · exact .other rfl
  · exact readReg_effect s r

theorem writeReg_effect (s : State) (r : Reg) (w : Word) : AccessEffect s r (.write w) (s.writeReg w r) := by
  cases r
  case ctrl =>
    simp only [State.writeReg]
    split
    · exact .softReset ‹_›
    · exact .other rfl
  case status => exact .status w
  case cmd => exact .accept w
  case symData =>
    simp only [State.writeReg, State.writeSymData]
    split
    · exact .symByte ‹_› ..
    · exact .record ..
  case bitData =>
    simp only [State.writeReg, State.writeBitData]
    split
    · exact .bitByte ‹_› ..
    · exact .record ..
  all_goals exact .other rfl

theorem hostWrite_effect (s : State) (r : Reg) (w : Word) : AccessEffect s r (.write w) (s.hostWrite r w) := by
  unfold State.hostWrite
  split
  · exact .record ..
  · exact writeReg_effect s r w

/-! Steps. -/

/-- What the sequencer's turn can do (10_state R49, 20_memory R70, 70_reset R241). -/
inductive SequencerEffect (s : State) : State → Prop
  | idle (h : s.pending = .none) : SequencerEffect s s
  | initDone (h : s.pending = .init) : SequencerEffect s { s with pending := .none }
  | raised (c : ErrorCode) (info : Word) : SequencerEffect s (s.record c info).finish
  | succeeded {w : Word} {i : Instr} {u : State} (hp : s.pending = .cmd w) (hd : decode w = .ok i) (hu : CommandEffect s i u) :
      SequencerEffect s u.finish

theorem sequencerStep_effect {s t : State} (h : sequencerStep s = .next t) : SequencerEffect s t := by
  unfold sequencerStep at h
  split at h
  · cases h; exact .idle ‹_›
  · cases h; exact .initDone ‹_›
  · rename_i w hp
    unfold completeWord at h
    split at h
    · rename_i i hd
      obtain ⟨c, info, rfl⟩ | ⟨u, hu, rfl⟩ := exec_cases h
      · exact .raised ..
      · exact .succeeded hp hd hu
    · cases h; exact .raised ..

/-- What a step can do (00_scope R15, 70_reset R243): a reset from the platform, a turn of the sequencer, or an access of the host. -/
inductive StepEffect (s : State) : State → Prop
  | platformReset {es : List Event} (hev : s.events = .platformReset :: es) : StepEffect s ({ s with events := es } : State).powerOn
  | sequencer {es : List Event} {t : State} (hev : s.events = [] ∨ s.events = .sequencer :: es)
      (h : SequencerEffect { s with events := es } t) : StepEffect s t
  | host {es : List Event} {a : Access} {r : Reg} {u : State} (hev : s.events = .host a :: es) (hr : a.reg? s.params = some r)
      (h : AccessEffect { s with events := es } r a.kind u) (n : Transaction) : StepEffect s (u.noteTransaction n)

theorem step_effect {s t : State} (h : step s = .next t) : StepEffect s t := by
  unfold step at h
  split at h
  · exact .sequencer (es := s.events) (.inl ‹_›) (sequencerStep_effect h)
  · exact .sequencer (.inr ‹_›) (sequencerStep_effect h)
  · rename_i a es hev
    unfold hostStep at h
    split at h
    · cases h
    · rename_i r hr
      split at h
      · rename_i hk
        cases h
        exact .host hev hr (hk ▸ hostRead_effect ..) _
      · rename_i w hk
        cases h
        exact .host hev hr (hk ▸ hostWrite_effect ..) _
  · cases h
    exact .platformReset ‹_›

end Sys2Proof.Proofs
end

section
/-! SUPPORT. The rules of the whole machine: the invariant (10_state R25 to R30, R44 to R46), the parameters and the ghost log (R23, 60_exceptions
R226), ERR (R224), and the matrix (R44). -/

namespace Sys2Proof.Proofs

open Sys2Proof.Machine

/-! The invariant, kept by every operation on the state. -/

section Invariant

variable {s : State} (h : s.Inv)

include h

theorem inv_of_guarded {t : State} (ht : withGuardedOf t s = t) : t.Inv := ht ▸ { h with }

theorem inv_finish : s.finish.Inv := { h with in_flight := fun _ hp => by cases hp }

theorem inv_record (c : ErrorCode) (info : Word) : (s.record c info).Inv := by
  unfold State.record
  split
  · exact { h with
      record_logged := fun he =>
        let ⟨d, hd, hcode⟩ := h.record_logged he
        ⟨d, List.mem_append_left _ hd, hcode⟩ }
  · exact { h with
      no_record := fun he => by cases he
      record_logged := fun _ => ⟨c, List.mem_append_right _ (List.mem_singleton_self _), rfl⟩ }

theorem inv_writeStatus (w : Word) : (s.writeStatus w).Inv := by
  rw [writeStatus_eq]
  cases w.getLsbD 2
  · exact { h with }
  · exact { h with no_record := fun _ => ⟨rfl, rfl⟩, record_logged := fun he => by cases he }

theorem inv_softReset : s.softReset.Inv where
  params_ok := h.params_ok
  sym_wf := Memory.wf_nil
  sym_below := by simp [State.softReset, State.resetWith]
  bits_wf := Memory.wf_nil
  bits_below := by simp [State.softReset, State.resetWith]
  no_record _ := ⟨rfl, rfl⟩
  record_logged he := by cases he
  matrix_valid hv := by cases hv
  matrix_reset _ := ⟨rfl, rfl⟩
  in_flight _ hp := by cases hp

/-- A reset from the platform leaves the state of a soft reset with an empty ghost log, and no record needs the log. -/
theorem inv_powerOn : s.powerOn.Inv := { inv_softReset h with record_logged := fun he => by cases he }

theorem inv_sym {m : Memory} (hwf : m.wf) (hbelow : m.below s.params.symCap.toNat) : ({ s with sym := m } : State).Inv :=
  { h with sym_wf := hwf, sym_below := hbelow }

theorem inv_bits {m : Memory} (hwf : m.wf) (hbelow : m.below s.params.bitCap.toNat) : ({ s with bits := m } : State).Inv :=
  { h with bits_wf := hwf, bits_below := hbelow }

theorem inv_commandEffect {i : Instr} {u : State} (hu : CommandEffect s i u) : u.Inv := by
  cases hu with
  | nothing => exact h
  | block hi b => exact { h with }
  | bytes hi b => exact { h with }
  | quantized b any => exact { h with }
  | @matrix q hq =>
    have hle : (BitVec.ofNat 8 q).toNat = q := by
      simp only [qualityOk, decide_eq_true_eq] at hq
      rw [BitVec.toNat_ofNat, Nat.mod_eq_of_lt (by omega)]
    exact { h with matrix_valid := fun _ => by simp only [hle, hq, and_self], matrix_reset := fun hv => by cases hv }
  | encoded hbs t n l =>
    exact { inv_bits h (Memory.wf_writeBytes h.bits_wf ..) (Memory.below_writeBytes h.bits_below _ (by omega)) with }
  | decoded hbs n =>
    exact { inv_sym h (Memory.wf_writeBytes h.sym_wf ..) (Memory.below_writeBytes h.sym_below _ (by omega)) with }
  | run hbs => exact inv_sym h (Memory.wf_writeBytes h.sym_wf ..) (Memory.below_writeBytes h.sym_below _ hbs)

theorem inv_accessEffect {r : Reg} {k : AccessKind} {u : State} (hu : AccessEffect s r k u) : u.Inv := by
  cases hu with
  | other ht => exact inv_of_guarded h ht
  | record c info => exact inv_record h c info
  | status w => exact inv_writeStatus h w
  | softReset _ => exact inv_softReset h
  | accept w => exact { h with in_flight := fun _ hp => by cases hp; rfl }
  | symByte hlt b a => exact { inv_sym h (Memory.wf_write h.sym_wf ..) (Memory.below_write h.sym_below hlt _) with }
  | bitByte hlt b a => exact { inv_bits h (Memory.wf_write h.bits_wf ..) (Memory.below_write h.bits_below hlt _) with }

theorem inv_sequencerEffect {t : State} (ht : SequencerEffect s t) : t.Inv := by
  cases ht with
  | idle => exact h
  | initDone => exact { h with in_flight := fun _ hp => by cases hp }
  | raised c info => exact inv_finish (inv_record h c info)
  | succeeded _ _ hu => exact inv_finish (inv_commandEffect h hu)

theorem inv_stepEffect {t : State} (ht : StepEffect s t) : t.Inv := by
  have htail (es : List Event) : ({ s with events := es } : State).Inv := { h with }
  cases ht with
  | platformReset => exact inv_powerOn (htail _)
  | sequencer _ hseq => exact inv_sequencerEffect (htail _) hseq
  | host _ _ hacc n => exact { inv_accessEffect (htail _) hacc with }

end Invariant

/-- Settles O55: each case of `StepEffect` is made of operations that keep the invariant. -/
theorem stepKeepsInvariant : Obligations.StepKeepsInvariant :=
  fun _ _ hs h => inv_stepEffect hs (step_effect h)

/-! The parameters and the ghost log. -/

theorem commandEffect_params_log_err {s u : State} {i : Instr} (hu : CommandEffect s i u) :
    u.params = s.params ∧ u.errorLog = s.errorLog ∧ u.err = s.err := by
  cases hu <;> exact ⟨rfl, rfl, rfl⟩

theorem sequencerEffect_params_log {s t : State} (ht : SequencerEffect s t) : t.params = s.params ∧ s.errorLog.IsPrefix t.errorLog := by
  cases ht with
  | idle => simp
  | initDone => simp
  | raised c info => simp
  | succeeded _ _ hu =>
    obtain ⟨hp, hlog, -⟩ := commandEffect_params_log_err hu
    simp [hp, hlog]

theorem accessEffect_params_log {s u : State} {r : Reg} {k : AccessKind} (hu : AccessEffect s r k u) :
    u.params = s.params ∧ s.errorLog.IsPrefix u.errorLog := by
  cases hu with
  | other ht => rw [← ht]; simp [withGuardedOf]
  | record c info => simp
  | status w => simp
  | softReset _ => simp
  | accept w => simp
  | symByte _ b a => simp
  | bitByte _ b a => simp

/-- Settles O56: only the platform's reset is not made of operations that keep or extend the log. -/
theorem stepKeepsParametersAndLog : Obligations.StepKeepsParametersAndLog := by
  intro s t h
  cases step_effect h with
  | platformReset hev => exact ⟨rfl, fun hne => absurd hev (hne _)⟩
  | sequencer _ hseq =>
    obtain ⟨hp, hlog⟩ := sequencerEffect_params_log hseq
    exact ⟨hp, fun _ => hlog⟩
  | host _ _ hacc n =>
    obtain ⟨hp, hlog⟩ := accessEffect_params_log hacc
    exact ⟨hp, fun _ => hlog⟩

/-! ERR. -/

theorem sequencerEffect_err {s t : State} (ht : SequencerEffect s t) (hs : s.err = true) : t.err = true := by
  cases ht with
  | idle => exact hs
  | initDone => exact hs
  | raised c info => simp
  | succeeded _ _ hu => simp [(commandEffect_params_log_err hu).2.2, hs]

/-- An access that takes ERR to 0 is a STATUS write with bit 2 or a CTRL write with bit 0. -/
theorem accessEffect_clears_err {s u : State} {r : Reg} {k : AccessKind} (hu : AccessEffect s r k u) (hs : s.err = true) (hf : u.err = false) :
    ∃ w, k = .write w ∧ ((r = .status ∧ w.getLsbD 2 = true) ∨ (r = .ctrl ∧ w.getLsbD 0 = true)) := by
  cases hu with
  | status w => exact ⟨w, rfl, .inl ⟨rfl, by simpa [hs] using hf⟩⟩
  | softReset hw => exact ⟨_, rfl, .inr ⟨rfl, hw⟩⟩
  | other ht => rw [← ht] at hf; simp [withGuardedOf, hs] at hf
  | record c info => simp at hf
  | accept w => simp [hs] at hf
  | symByte _ b a => simp [hs] at hf
  | bitByte _ b a => simp [hs] at hf

/-- Settles O57: the sequencer never clears ERR, and an access does so only by STATUS bit 2 or a soft reset. -/
theorem errStaysUntilCleared : Obligations.ErrStaysUntilCleared := by
  intro s t h hs hf
  cases step_effect h with
  | platformReset hev => exact .inr ⟨_, hev⟩
  | sequencer _ hseq => simp [sequencerEffect_err hseq hs] at hf
  | host hev hr hacc n =>
    obtain ⟨w, hk, hw⟩ := accessEffect_clears_err hacc hs hf
    exact .inl ⟨_, _, w, _, hev, hk, hr, hw⟩

/-! The matrix. -/

/-- QM, QUALITY or QM_VALID has changed (10_state R44). -/
def MatrixChanged (s t : State) : Prop := t.qm ≠ s.qm ∨ t.quality ≠ s.quality ∨ t.qmValid ≠ s.qmValid

theorem not_matrixChanged {s t : State} (hqm : t.qm = s.qm) (hq : t.quality = s.quality) (hv : t.qmValid = s.qmValid) :
    ¬ MatrixChanged s t := by simp [MatrixChanged, hqm, hq, hv]

theorem commandEffect_matrixChanged {s u : State} {i : Instr} (hu : CommandEffect s i u) (hc : MatrixChanged s u) : ∃ q, i = .qmBuild q := by
  cases hu with
  | matrix => exact ⟨_, rfl⟩
  | _ => exact absurd hc (not_matrixChanged rfl rfl rfl)

theorem sequencerEffect_matrixChanged {s t : State} (ht : SequencerEffect s t) (hc : MatrixChanged s t) :
    ∃ w q, s.pending = .cmd w ∧ decode w = .ok (.qmBuild q) := by
  cases ht with
  | succeeded hp hd hu =>
    obtain ⟨q, rfl⟩ := commandEffect_matrixChanged hu hc
    exact ⟨_, q, hp, hd⟩
  | idle => exact absurd hc (not_matrixChanged rfl rfl rfl)
  | initDone => exact absurd hc (not_matrixChanged rfl rfl rfl)
  | raised c info => exact absurd hc (not_matrixChanged (by simp) (by simp) (by simp))

theorem accessEffect_matrixChanged {s u : State} {r : Reg} {k : AccessKind} (hu : AccessEffect s r k u) (hc : MatrixChanged s u) :
    ∃ w, k = .write w ∧ r = .ctrl ∧ w.getLsbD 0 = true := by
  cases hu with
  | softReset hw => exact ⟨_, rfl, rfl, hw⟩
  | other ht => exact absurd hc (ht ▸ not_matrixChanged rfl rfl rfl)
  | record c info => exact absurd hc (not_matrixChanged (by simp) (by simp) (by simp))
  | status w => exact absurd hc (not_matrixChanged (by simp) (by simp) (by simp))
  | accept w => exact absurd hc (not_matrixChanged rfl rfl rfl)
  | symByte _ b a => exact absurd hc (not_matrixChanged rfl rfl rfl)
  | bitByte _ b a => exact absurd hc (not_matrixChanged rfl rfl rfl)

/-- Settles O58: among the sequencer's effects only QM_BUILD's touches the matrix, among the host's only the soft reset. -/
theorem matrixChangesOnlyByBuildOrReset : Obligations.MatrixChangesOnlyByBuildOrReset := by
  intro s t h hc
  cases step_effect h with
  | platformReset hev => exact .inr (.inr ⟨_, hev⟩)
  | sequencer hev hseq =>
    obtain ⟨w, q, hp, hd⟩ := sequencerEffect_matrixChanged hseq hc
    exact .inl ⟨hev.imp_right fun hev => ⟨_, hev⟩, w, q, hp, hd⟩
  | host hev hr hacc n =>
    obtain ⟨w, hk, rfl, hw⟩ := accessEffect_matrixChanged hacc hc
    exact .inr (.inl ⟨_, _, w, hev, hk, hr, hw⟩)

end Sys2Proof.Proofs
end

section
/-! SUPPORT. Proofs of 20_memory: which accesses are admitted and what stops the machine (R61), the completion of the decoded command (R70), a byte port
out of range (R66), and accesses while BUSY (R67). -/

namespace Sys2Proof.Proofs

open Sys2Proof.Machine

/-! The register window. -/

/-- The window has 32 slots of 8 bytes (10_state section 2). -/
theorem offset_ofSlot : ∀ n < 32, (Reg.ofSlot n).offset = 8 * n := by decide

/-- Every register has its slot. -/
theorem exists_ofSlot_eq (r : Reg) : ∃ n < 32, Reg.ofSlot n = r := by
  refine ⟨r.offset / 8, ?_⟩
  cases r with
  | reserved k => revert k; decide
  | _ => decide

/-- Settles O5: `reg?` reads the slot off the address, and `ofSlot` is a bijection of the 32 slots with the registers that `offset` inverts. -/
theorem admittedAccessesAreRegisterOffsets : Obligations.AdmittedAccessesAreRegisterOffsets := by
  intro p a r
  constructor
  · intro h
    simp only [Access.reg?, Option.ite_none_right_eq_some, Option.some.injEq] at h
    obtain ⟨⟨hsize, hbase, hbound, halign⟩, rfl⟩ := h
    rw [offset_ofSlot _ (by omega)]
    exact ⟨hsize, by omega⟩
  · rintro ⟨hsize, haddr⟩
    obtain ⟨n, hn, rfl⟩ := exists_ofSlot_eq r
    rw [offset_ofSlot n hn] at haddr
    have hoff : a.addr - p.coreBase = 8 * n := by omega
    rw [Access.reg?, hoff, if_pos (by omega), Nat.mul_div_cancel_left n (by decide)]

/-! The sequencer's turn. -/

theorem step_of_no_events {s : State} (hev : s.events = []) : step s = sequencerStep s := by simp only [step, hev]

theorem step_sequencer {s : State} {es : List Event} (hev : s.events = .sequencer :: es) :
    step s = sequencerStep { s with events := es } := by simp only [step, hev]

/-- The sequencer completes the command that the word in flight decodes to (20_memory R70, 30_encoding R96). -/
theorem sequencerStep_of_decode {s : State} {w : Word} {i : Instr} (hp : s.pending = .cmd w) (hd : decode w = .ok i) :
    sequencerStep s = exec i s := by simp only [sequencerStep, hp, completeWord, hd]

/-- The step after `acceptNext` is the sequencer's, on the state with the word accepted and its own coming events. -/
theorem step_acceptNext (w : Word) (s : State) :
    step (acceptNext w s) = sequencerStep { s with
      cmd := w, pending := .cmd w, history := { reg := .cmd, dir := .write, data := w } :: s.history } := by
  cases hev : s.events <;> simp only [step, acceptNext, hev]

theorem decode_of_decodeTableWord {nbits w : Nat} {i : Instr} (h : decodeTableWord nbits w = some i) :
    decode (BitVec.ofNat 64 (w % 2 ^ nbits)) = .ok i := by
  unfold decodeTableWord at h
  split at h
  · cases h; assumption
  · cases h

/-- Settles O6: each of the three steps is the sequencer's turn, with the word in flight. -/
theorem stepRunsDecodedCommand : Obligations.StepRunsDecodedCommand := by
  refine ⟨fun s w i hp hd => ⟨fun hev => ?_, fun es hev => ?_⟩, fun s nbits w i hd => ?_⟩
  · rw [step_of_no_events hev, sequencerStep_of_decode hp hd]
  · rw [step_sequencer hev]
    exact sequencerStep_of_decode hp hd
  · rw [State.withFetchWord, step_acceptNext]
    exact sequencerStep_of_decode rfl (decode_of_decodeTableWord hd)

/-! What stops the machine. -/

/-- Both ends of a command answer a next state. -/
theorem commandEnd_answers {s : State} {i : Instr} {o : Host.Outcome State Fault Refusal} (h : CommandEnd s i o) : ∃ t, o = .next t := by
  cases h with
  | raised c info => exact ⟨_, raiseError_eq s c info⟩
  | succeeded _ => exact ⟨_, succeed_eq _⟩

theorem completeWord_answers (w : Word) (s : State) : ∃ t, completeWord w s = .next t := by
  unfold completeWord
  split
  · exact commandEnd_answers (exec_end ..)
  · exact ⟨_, raiseError_eq ..⟩

theorem sequencerStep_answers (s : State) : ∃ t, sequencerStep s = .next t := by
  unfold sequencerStep
  split
  · exact ⟨_, rfl⟩
  · exact ⟨_, rfl⟩
  · exact completeWord_answers ..

/-- An access that is not admitted leaves the host stuck (20_memory R61). -/
theorem step_host_unadmitted {s : State} {a : Access} {es : List Event} (hev : s.events = .host a :: es)
    (hr : a.reg? s.params = none) : step s = .fault .accessNotAdmitted := by simp only [step, hev, hostStep, hr]

theorem step_host_admitted_answers {s : State} {a : Access} {es : List Event} {r : Reg} (hev : s.events = .host a :: es)
    (hr : a.reg? s.params = some r) : ∃ t, step s = .next t := by
  cases hk : a.kind with
  | read => exact ⟨_, step_host_read hev hr hk⟩
  | write w => exact ⟨_, step_host_write hev hr hk⟩

theorem step_platformReset {s : State} {es : List Event} (hev : s.events = .platformReset :: es) :
    step s = .next ({ s with events := es } : State).powerOn := by simp only [step, hev]

/-- A step answers a next state unless its event is an access that is not admitted. -/
theorem step_answers {s : State} (h : ¬ ∃ a es, s.events = .host a :: es ∧ a.reg? s.params = none) : ∃ t, step s = .next t := by
  match hev : s.events with
  | [] => exact step_of_no_events hev ▸ sequencerStep_answers _
  | .sequencer :: es => exact step_sequencer hev ▸ sequencerStep_answers _
  | .platformReset :: es => exact ⟨_, step_platformReset hev⟩
  | .host a :: es =>
    obtain ⟨r, hr⟩ := Option.ne_none_iff_exists'.mp fun hr => h ⟨a, es, hev, hr⟩
    exact step_host_admitted_answers hev hr

/-- Settles O9: an access that is not admitted faults, and every other event answers a next state. -/
theorem onlyUnadmittedAccessesStop : Obligations.OnlyUnadmittedAccessesStop := by
  intro s
  by_cases h : ∃ a es, s.events = .host a :: es ∧ a.reg? s.params = none
  · obtain ⟨a, es, hev, hr⟩ := h
    have hstop := step_host_unadmitted hev hr
    exact ⟨.inr hstop, fun _ => ⟨a, es, hev, hr⟩, fun _ => hstop⟩
  · obtain ⟨t, ht⟩ := step_answers h
    exact ⟨.inl ⟨t, ht⟩, fun hstop => by simp [ht] at hstop, fun hun => absurd hun h⟩

/-! A byte port out of range. -/

/-- Settles O51: at or above the capacity each port takes its other branch, the record of E_PORT alone. -/
theorem outOfRangePortRecordsPort : Obligations.OutOfRangePortRecordsPort := by
  intro s w h
  rw [hostRead_of_idle h, hostRead_of_idle h, hostWrite_of_idle h, hostWrite_of_idle h]
  refine ⟨fun hle => ?_, fun hle => ?_⟩
  · have hout : ¬ s.symAddr < s.params.symCap := BitVec.not_lt.mpr hle
    simp only [State.readReg, State.readSymData, State.writeReg, State.writeSymData, if_neg hout]
    exact ⟨rfl, rfl⟩
  · have hout : ¬ s.bitAddr < s.params.bitCap := BitVec.not_lt.mpr hle
    simp only [State.readReg, State.readBitData, State.writeReg, State.writeBitData, if_neg hout]
    exact ⟨rfl, rfl⟩

/-! Accesses while BUSY. -/

theorem readableWhileBusy_iff (r : Reg) : r.readableWhileBusy = true ↔
    r = .id ∨ r = .caps ∨ r = .ctrl ∨ r = .status ∨ r = .irqEn ∨ r = .cmd ∨ r = .errInfo ∨ ∃ k, r = .reserved k := by
  cases r <;> simp [Reg.readableWhileBusy]

theorem writableWhileBusy_iff (r : Reg) : r.writableWhileBusy = true ↔ r = .ctrl ∨ r = .status ∨ r = .irqEn ∨ ∃ k, r = .reserved k := by
  cases r <;> simp [Reg.writableWhileBusy]

/-- A read that BUSY does not hide is as when idle, in every state. -/
theorem hostRead_of_readable {r : Reg} (hr : r.readableWhileBusy = true) (s : State) : s.hostRead r = s.readReg r := by
  simp [State.hostRead, hr]

/-- None of the registers that read while BUSY is a port: their reads have no side effect. -/
theorem readReg_snd_of_readable {r : Reg} (hr : r.readableWhileBusy = true) (s : State) : (s.readReg r).2 = s := by
  obtain rfl | rfl | rfl | rfl | rfl | rfl | rfl | ⟨k, rfl⟩ := (readableWhileBusy_iff r).mp hr <;> rfl

theorem hostRead_of_unreadable {s : State} (h : s.busy = true) {r : Reg} (hr : ¬ r.readableWhileBusy = true) :
    s.hostRead r = (Config.busyRead s.draws, { s with draws := s.draws + 1 }) := by simp [State.hostRead, h, hr]

/-- A write that BUSY does not refuse is as when idle, in every state. -/
theorem hostWrite_of_writable {r : Reg} (hr : r.writableWhileBusy = true) (s : State) (w : Word) : s.hostWrite r w = s.writeReg w r := by
  simp [State.hostWrite, hr]

theorem hostWrite_of_unwritable {s : State} (h : s.busy = true) {r : Reg} (hr : ¬ r.writableWhileBusy = true) (w : Word) :
    s.hostWrite r w = s.record .busy (BitVec.ofNat 64 r.offset) := by simp [State.hostWrite, h, hr]

/-- Settles O53: the registers listed are those that `readableWhileBusy` and `writableWhileBusy` let through. -/
theorem busyAccessRules : Obligations.BusyAccessRules := by
  intro s w r h
  simp only [← readableWhileBusy_iff]
  refine ⟨fun hr => ?_, fun k => ?_, fun hctrl hstatus hirqEn hreserved => ?_, fun hr => ?_, fun hr => ?_⟩
  · exact hostWrite_of_writable ((writableWhileBusy_iff r).mpr (by tauto)) s w
  · exact hostWrite_of_writable rfl s w
  · exact hostWrite_of_unwritable h (by simp [writableWhileBusy_iff, hctrl, hstatus, hirqEn, hreserved]) w
  · exact ⟨hostRead_of_readable hr s, readReg_snd_of_readable hr s⟩
  · exact hostRead_of_unreadable h hr

end Sys2Proof.Proofs
end

section
/-! SUPPORT. Proofs of 30_encoding: a word and its fields (R90, R91), the decoder read as the opcode map (R93, R95, R96), and illegal words (R97). -/

namespace Sys2Proof.Proofs

open Sys2Proof.Machine Sys2Proof.Laws

/-! A word and its fields. -/

/-- A word is RSV, OPERAND and OPC, one above the other (30_encoding R90). -/
theorem fields_append (w : Word) : reservedField w ++ operandField w ++ opcField w = w := by
  have hhigh : reservedField w ++ operandField w = w.extractLsb' 8 56 := BitVec.extractLsb'_append_extractLsb'_eq_extractLsb' rfl
  rw [hhigh]
  exact BitVec.extractLsb'_append_extractLsb' (w := 56) (len := 8)

theorem reservedField_encode (i : Instr) : reservedField (encode i) = 0 := reservedField_append _ _

theorem operandField_encode (i : Instr) : operandField (encode i) = BitVec.ofNat 24 i.operand := by
  have hlow : operandField (encode i) = (0#32 ++ BitVec.ofNat 24 i.operand).extractLsb' 0 24 :=
    BitVec.extractLsb'_append_eq_of_le (by decide)
  rw [hlow, BitVec.extractLsb'_append_eq_right]

theorem opcField_encode (i : Instr) : opcField (encode i) = i.opcode := BitVec.extractLsb'_append_eq_right

/-- The word of a command is the one with the command's fields. -/
theorem encode_eq_iff (i : Instr) (w : Word) :
    encode i = w ↔ reservedField w = 0 ∧ opcField w = i.opcode ∧ operandField w = BitVec.ofNat 24 i.operand := by
  constructor
  · rintro rfl
    exact ⟨reservedField_encode i, opcField_encode i, operandField_encode i⟩
  · rintro ⟨hr, hop, ho⟩
    rw [← fields_append w, hr, hop, ho]
    rfl

/-- OPERAND is w[31:16] above Q (30_encoding R91). -/
theorem operandField_toNat (w : Word) : (operandField w).toNat = 2 ^ 8 * (formQHighField w).toNat + (qualityField w).toNat := by
  have happ : formQHighField w ++ qualityField w = operandField w := BitVec.extractLsb'_append_extractLsb'_eq_extractLsb' rfl
  rw [← happ, BitVec.toNat_append, Nat.shiftLeft_eq, Nat.mul_comm, Nat.two_pow_add_eq_or_of_lt (qualityField w).isLt]

/-- The zeros of form Q say that OPERAND, read as a number, is below 2^8. -/
theorem formQ_fields_iff (w : Word) (q : Nat) :
    formQHighField w = 0 ∧ (qualityField w).toNat = q ↔ q < 2 ^ 8 ∧ (operandField w).toNat = q := by
  have hsum := operandField_toNat w
  have hq := (qualityField w).isLt
  rw [← BitVec.toNat_inj, BitVec.ofNat_eq_ofNat, BitVec.toNat_zero]
  omega

/-! The decoder, row by row. -/

/-- What a word decodes to in the form of `i`'s row (30_encoding R93), whatever its RSV and OPC. -/
def decodeInFormOf (w : Word) : Instr → Except DecodeError Instr
  | .qmBuild _ => decodeFormQ w
  | .runPut _ => .ok (.runPut (operandField w).toNat)
  | .runGet _ => .ok (.runGet (operandField w).toNat)
  | i => decodeFormN w i

/-- With RSV zero and OPC the opcode of a row, the decoder takes the form of that row. -/
theorem decode_of_opcode {w : Word} {i : Instr} (hr : reservedField w = 0) (hop : opcField w = i.opcode) :
    decode w = decodeInFormOf w i := by
  cases i <;> simp [decode, hr, hop, Instr.opcode, decodeInFormOf]

theorem decodeFormN_eq_ok_iff {w : Word} {i j : Instr} : decodeFormN w i = .ok j ↔ operandField w = 0 ∧ i = j := by
  unfold decodeFormN
  split <;> simp only [Except.ok.injEq, reduceCtorEq, *, true_and, false_and]

theorem decodeFormQ_eq_ok_iff {w : Word} {j : Instr} :
    decodeFormQ w = .ok j ↔ formQHighField w = 0 ∧ .qmBuild (qualityField w).toNat = j := by
  unfold decodeFormQ
  split <;> simp only [Except.ok.injEq, reduceCtorEq, *, true_and, false_and]

/-- A row's form gives commands of that row only. -/
theorem opcode_of_decodeInFormOf {w : Word} {i j : Instr} (h : decodeInFormOf w i = .ok j) : j.opcode = i.opcode := by
  cases i with
  | qmBuild q => obtain ⟨-, rfl⟩ := decodeFormQ_eq_ok_iff.mp h; rfl
  | runPut r => cases h; rfl
  | runGet r => cases h; rfl
  | _ => obtain ⟨-, rfl⟩ := decodeFormN_eq_ok_iff.mp h; rfl

/-- With OPC the opcode of `k`, a command that `k`'s form gives has that opcode. -/
theorem opcField_of_form {w : Word} {i : Instr} (k : Instr) (hop : (opcField w).toNat = k.opcode.toNat) (h : decodeInFormOf w k = .ok i) :
    opcField w = i.opcode :=
  (BitVec.eq_of_toNat_eq hop).trans (opcode_of_decodeInFormOf h).symm

/-- A word that decodes has RSV zero and the opcode of its command. -/
theorem fields_of_decode {w : Word} {i : Instr} (h : decode w = .ok i) : reservedField w = 0 ∧ opcField w = i.opcode := by
  unfold decode at h
  split at h
  · cases h
  · refine ⟨not_not.mp ‹_›, ?_⟩
    split at h
    · exact opcField_of_form .nop ‹_› h
    · exact opcField_of_form (.qmBuild 0) ‹_› h
    · exact opcField_of_form .fdct ‹_› h
    · exact opcField_of_form .idct ‹_› h
    · exact opcField_of_form .quant ‹_› h
    · exact opcField_of_form .dequant ‹_› h
    · exact opcField_of_form .zzScan ‹_› h
    · exact opcField_of_form .zzUnscan ‹_› h
    · exact opcField_of_form .huffEnc ‹_› h
    · exact opcField_of_form .huffDec ‹_› h
    · exact opcField_of_form .lshiftDn ‹_› h
    · exact opcField_of_form .lshiftUp ‹_› h
    · exact opcField_of_form (.runPut 0) ‹_› h
    · exact opcField_of_form (.runGet 0) ‹_› h
    · cases h

/-- A row's form gives `i` itself when OPERAND is the operand of `i` and the operand fits its field. -/
theorem decodeInFormOf_eq_ok_iff {w : Word} {i : Instr} :
    decodeInFormOf w i = .ok i ↔ operandField w = BitVec.ofNat 24 i.operand ∧ i.wellFormed = true := by
  cases i with
  | qmBuild q =>
    have hfit : q < 2 ^ 8 → q < 2 ^ 24 := by omega
    rw [decodeInFormOf, decodeFormQ_eq_ok_iff, Instr.qmBuild.injEq, formQ_fields_iff, BitVec.toNat_eq_nat]
    simp only [Instr.operand, Instr.wellFormed, decide_eq_true_eq]
    tauto
  | runPut r => simp [decodeInFormOf, Instr.operand, Instr.wellFormed, BitVec.toNat_eq_nat, and_comm]
  | runGet r => simp [decodeInFormOf, Instr.operand, Instr.wellFormed, BitVec.toNat_eq_nat, and_comm]
  | _ => simp [decodeInFormOf, decodeFormN_eq_ok_iff, Instr.operand, Instr.wellFormed]

/-- The decoder inverts the encoder on the well-formed commands, and answers nothing else (30_encoding R96). -/
theorem decode_eq_ok_iff {w : Word} {i : Instr} : decode w = .ok i ↔ encode i = w ∧ i.wellFormed = true := by
  rw [encode_eq_iff]
  constructor
  · intro h
    obtain ⟨hr, hop⟩ := fields_of_decode h
    obtain ⟨ho, hwf⟩ := decodeInFormOf_eq_ok_iff.mp (decode_of_opcode hr hop ▸ h)
    exact ⟨⟨hr, hop, ho⟩, hwf⟩
  · rintro ⟨⟨hr, hop, ho⟩, hwf⟩
    rw [decode_of_opcode hr hop]
    exact decodeInFormOf_eq_ok_iff.mpr ⟨ho, hwf⟩

/-- Settles O1: the encoder's word decodes, by `decode_eq_ok_iff` from right to left. -/
theorem decodeOfEncodeIsIdentity : Obligations.DecodeOfEncodeIsIdentity := fun _ hwf => decode_eq_ok_iff.mpr ⟨rfl, hwf⟩

/-- Settles O2: `decode_eq_ok_iff` from left to right. -/
theorem encodeOfDecodeIsIdentity : Obligations.EncodeOfDecodeIsIdentity := fun _ _ h => decode_eq_ok_iff.mp h

/-! The opcode map. -/

/-- Every instruction's word lies in its own row. -/
theorem tableRow : ∀ i : Instr, TableRow.Statement i
  | .nop => TableRow.nop
  | .qmBuild q => TableRow.qmBuild q
  | .fdct => TableRow.fdct
  | .idct => TableRow.idct
  | .quant => TableRow.quant
  | .dequant => TableRow.dequant
  | .zzScan => TableRow.zzScan
  | .zzUnscan => TableRow.zzUnscan
  | .huffEnc => TableRow.huffEnc
  | .huffDec => TableRow.huffDec
  | .lshiftDn => TableRow.lshiftDn
  | .lshiftUp => TableRow.lshiftUp
  | .runPut r => TableRow.runPut r
  | .runGet r => TableRow.runGet r

/-- Where a mask is all ones, a word that matches has the bits of the match value. -/
theorem extractLsb'_of_masked {w mask value : Word} (h : w &&& mask = value) {start len : Nat}
    (hones : mask.extractLsb' start len = .allOnes len) : w.extractLsb' start len = value.extractLsb' start len := by
  rw [← h, BitVec.extractLsb'_and, hones, BitVec.and_allOnes]

theorem opcField_tableMask (i : Instr) : opcField i.tableMask = .allOnes 8 := by cases i <;> simp only [Instr.tableMask] <;> rfl

theorem reservedField_tableMask (i : Instr) : reservedField i.tableMask = .allOnes 32 := by cases i <;> simp only [Instr.tableMask] <;> rfl

/-- The match value of a row is its opcode alone. -/
theorem tableMatch_eq (i : Instr) : i.tableMatch = 0#32 ++ 0#24 ++ i.opcode := by
  cases i <;> simp only [Instr.tableMatch, Instr.opcode] <;> rfl

/-- A word in a row has RSV zero and the row's opcode, since each mask covers both fields. -/
theorem fields_of_row {w : Word} {i : Instr} (h : w &&& i.tableMask = i.tableMatch) : reservedField w = 0 ∧ opcField w = i.opcode := by
  rw [tableMatch_eq] at h
  exact ⟨(extractLsb'_of_masked h (reservedField_tableMask i)).trans (reservedField_append _ _),
    (extractLsb'_of_masked h (opcField_tableMask i)).trans BitVec.extractLsb'_append_eq_right⟩

/-- A word in a row decodes in the row's form: the mask covers what the form wants zero. -/
theorem decodeInFormOf_of_row {w : Word} {i : Instr} (h : w &&& i.tableMask = i.tableMatch) : ∃ j, decodeInFormOf w i = .ok j := by
  cases i with
  | qmBuild q =>
    have hhigh : formQHighField w = 0 := extractLsb'_of_masked (mask := 0xFFFFFFFFFFFF00FF#64) (value := 1#64) h rfl
    exact ⟨_, decodeFormQ_eq_ok_iff.mpr ⟨hhigh, rfl⟩⟩
  | runPut r => exact ⟨_, rfl⟩
  | runGet r => exact ⟨_, rfl⟩
  | _ => exact ⟨_, decodeFormN_eq_ok_iff.mpr ⟨extractLsb'_of_masked h rfl, rfl⟩⟩

/-- A word that decodes lies in the row of its command. -/
theorem row_of_decode {w : Word} {i : Instr} (h : decode w = .ok i) : w &&& i.tableMask = i.tableMatch := by
  obtain ⟨rfl, hwf⟩ := decode_eq_ok_iff.mp h
  exact (tableRow i).1 hwf

/-- A word in a row decodes to a command of that row. -/
theorem decode_of_row {w : Word} {i : Instr} (h : w &&& i.tableMask = i.tableMatch) : ∃ j, decode w = .ok j ∧ j.opcode = i.opcode := by
  obtain ⟨hr, hop⟩ := fields_of_row h
  obtain ⟨j, hj⟩ := decodeInFormOf_of_row h
  exact ⟨j, decode_of_opcode hr hop ▸ hj, opcode_of_decodeInFormOf hj⟩

/-- Settles O3: a word decodes exactly when it lies in a row, by `row_of_decode` and `decode_of_row`; else it is illegal. -/
theorem decodeFollowsOpcodeMap : Obligations.DecodeFollowsOpcodeMap := by
  refine fun w => ⟨fun i => row_of_decode, fun i => decode_of_row, fun ⟨e, he⟩ i hrow => ?_, fun hnone => ?_⟩
  · obtain ⟨j, hj, -⟩ := decode_of_row hrow
    cases he.symm.trans hj
  · cases hd : decode w with
    | ok i => exact absurd (row_of_decode hd) (hnone i)
    | error e => exact ⟨e, rfl⟩

/-! Words of the encoding table, and illegal words. -/

/-- Settles O4: each word is evaluated. -/
theorem sampleWordsDecode : Obligations.SampleWordsDecode := ⟨rfl, rfl, rfl, rfl, rfl, rfl, rfl, rfl⟩

/-- The first error since ERR was cleared is held (60_exceptions R213). -/
theorem record_of_err_eq_false {s : State} (h : s.err = false) (c : ErrorCode) (info : Word) :
    s.record c info = { s with err := true, errCode := c.byte, errInfo := info, errorLog := s.errorLog ++ [(c, info)] } := by
  simp [State.record, h]

/-- The sequencer completes an illegal word by raising E_ILLEGAL (30_encoding R97). -/
theorem sequencerStep_of_illegal {s : State} {w : Word} {e : DecodeError} (hp : s.pending = .cmd w) (hd : decode w = .error e) :
    sequencerStep s = .next (s.record .illegal w).finish := by
  simp only [sequencerStep, hp, completeWord, hd, raiseError_eq]

/-- Settles O7: the step is the record and DONE. -/
theorem illegalWordRaisesIllegal : Obligations.IllegalWordRaisesIllegal := by
  refine ⟨fun s w e hp hd => ⟨sequencerStep_of_illegal hp hd, fun herr => ?_⟩, ⟨_, rfl⟩, ⟨_, rfl⟩⟩
  rw [sequencerStep_of_illegal hp hd, record_of_err_eq_false herr]
  rfl

end Sys2Proof.Proofs
end

section
/-! SUPPORT. Proofs of 41_transform: the double sums as sums over the 64 elements (R112 to R116), and zeros, NaNs and infinities (R119). -/

namespace Sys2Proof.Proofs

open Sys2Proof.Machine

/-! The direct double sums. -/

@[simp] theorem rowOf_cell (i j : Fin 8) : rowOf (cell i j) = i := Fin.ext (by simp only [rowOf, cell]; omega)

@[simp] theorem colOf_cell (i j : Fin 8) : colOf (cell i j) = j := Fin.ext (by simp only [colOf, cell]; omega)

theorem fdctRef_cell (b : Vector Word 64) (u v : Fin 8) : (fdctRef b)[cell u v] = fdctAt b u v := by simp [fdctRef]

theorem idctRef_cell (d : Vector Word 64) (x y : Fin 8) : (idctRef d)[cell x y] = idctAt d x y := by simp [idctRef]

/-- Settles O12: each command writes its reference function of BLK, whose element at a cell is the double sum as written. -/
theorem transformsWriteDirectSums : Obligations.TransformsWriteDirectSums :=
  fun s => ⟨⟨_, rfl, fdctRef_cell s.blk, rfl⟩, ⟨_, rfl, idctRef_cell s.blk, rfl⟩⟩

/-- The loops of `doubleSum` visit the elements in linear order (41_transform R112). -/
theorem finRange_eq_flatMap_cell : List.finRange 64 = (List.finRange 8).flatMap fun x => (List.finRange 8).map (cell x) := by decide

theorem doubleSum_eq_foldl (term : Fin 8 → Fin 8 → Word) :
    doubleSum term = ((List.finRange 64).map fun k => term (rowOf k) (colOf k)).foldl addF plusZero := by
  simp only [doubleSum, finRange_eq_flatMap_cell, List.foldl_map, List.foldl_flatMap, rowOf_cell, colOf_cell]

theorem fdctAt_eq (b : Vector Word 64) (u v : Fin 8) : fdctAt b u v = mulF ((fdctTerms b u v).foldl addF plusZero) (scaleK u v) := by
  simp only [fdctAt, doubleSum_eq_foldl, fdctTerms, cell_rowOf_colOf]

theorem idctAt_eq (d : Vector Word 64) (x y : Fin 8) : idctAt d x y = mulF ((idctTerms d x y).foldl addF plusZero) quarter := by
  simp only [idctAt, doubleSum_eq_foldl, idctTerms, cell_rowOf_colOf]

/-! Multiplying by a finite nonzero factor keeps zeros, infinities and NaNs what they are. -/

/-- `c` is finite and not a zero. -/
structure IsFactor (c : Word) : Prop where
  finite : isFinite c = true
  nonzero : magBits c ≠ 0

/-- `f` maps zeros to zeros, NaNs and nothing else to NaNs, and infinities to infinities. -/
structure KeepsClass (f : Word → Word) : Prop where
  zero : ∀ x, magBits x = 0 → magBits (f x) = 0
  nan : ∀ x, isNaN (f x) = isNaN x
  inf : ∀ x, isInf x = true → isInf (f x) = true

theorem KeepsClass.comp {f g : Word → Word} (hg : KeepsClass g) (hf : KeepsClass f) : KeepsClass (g ∘ f) where
  zero x hx := hg.zero _ (hf.zero x hx)
  nan x := (hg.nan _).trans (hf.nan x)
  inf x hx := hg.inf _ (hf.inf x hx)

theorem roundMag_zero (extra : Nat) : roundMag 0 extra = 0 := by simp [roundMag]

theorem mulF_zero_finite {x c : Word} (hx : magBits x = 0) (hc : isFinite c = true) : mulF x c = packF (isNeg x != isNeg c) 0 1074 := by
  have hfin : isFinite x = true := by rw [isFinite_iff]; omega
  rw [mulF_of_isFinite hfin hc, (magUnits_eq_zero_iff x).mpr hx, Nat.zero_mul]

/-- +0.0 times a positive finite factor is +0.0 (41_transform R119). -/
theorem mulF_plusZero {c : Word} (hc : isFinite c = true) (hpos : isNeg c = false) : mulF plusZero c = plusZero := by
  have hmag : magBits (packF false 0 1074) = 0 := by rw [magBits_packF, roundMag_zero]
  have hneg : (isNeg plusZero != isNeg c) = false := by rw [hpos]; rfl
  rw [mulF_zero_finite rfl hc, hneg, eq_zero_of_magBits hmag, isNeg_packF]
  rfl

/-- An infinity times a factor is an infinity with the exclusive or of the signs (00_scope R10). -/
theorem mulF_inf_factor {x c : Word} (hx : isInf x = true) (hc : IsFactor c) :
    isInf (mulF x c) = true ∧ isNeg (mulF x c) = (isNeg x != isNeg c) := by
  rw [mulF_inf_nonzero hx (isNaN_eq_false_of_isFinite hc.finite) hc.nonzero]
  cases isNeg x <;> cases isNeg c <;> decide

theorem isNaN_mulF_factor {c : Word} (hc : IsFactor c) (x : Word) : isNaN (mulF x c) = isNaN x := by
  rcases isFinite_or_isInf_or_isNaN x with hx | hx | hx
  · rw [mulF_of_isFinite hx hc.finite, isNaN_packF, isNaN_eq_false_of_isFinite hx]
  · rw [isNaN_eq_false_of_isInf (mulF_inf_factor hx hc).1, isNaN_eq_false_of_isInf hx]
  · rw [mulF_of_isNaN (.inl hx), hx]
    decide

theorem keepsClass_mulF {c : Word} (hc : IsFactor c) : KeepsClass (mulF · c) where
  zero x hx := by rw [mulF_zero_finite hx hc.finite, magBits_packF, roundMag_zero]
  nan := isNaN_mulF_factor hc
  inf _ hx := (mulF_inf_factor hx hc).1

/-! The ROM entries are factors (41_transform R110, R111). -/

theorem cosRom_isFactor (p q : Fin 8) : IsFactor (cosRom p q) := by
  have h : ∀ k : Fin 64, isFinite cosTable[k] = true ∧ magBits cosTable[k] ≠ 0 := by decide
  exact ⟨(h _).1, (h _).2⟩

theorem alphaRom_isFactor (u v : Fin 8) : IsFactor (alphaRom u v) := by
  unfold alphaRom
  split_ifs <;> exact ⟨by decide, by decide⟩

theorem quarter_isFactor : IsFactor quarter := ⟨by decide, by decide⟩

/-- The scales `K[u][v]` are positive factors (41_transform R111); their 64 products are evaluated. -/
theorem scaleK_isFactor (u v : Fin 8) : IsFactor (scaleK u v) ∧ isNeg (scaleK u v) = false := by
  have h : ∀ u v : Fin 8, (isFinite (scaleK u v) = true ∧ magBits (scaleK u v) ≠ 0) ∧ isNeg (scaleK u v) = false := by decide +kernel
  obtain ⟨⟨hfin, hne⟩, hneg⟩ := h u v
  exact ⟨⟨hfin, hne⟩, hneg⟩

/-- The product of FDCT's output (u, v) with the element at `k` (41_transform R113). -/
def fdctTerm (u v : Fin 8) (k : Fin 64) (x : Word) : Word := mulF (mulF x (cosRom (rowOf k) u)) (cosRom (colOf k) v)

/-- The product of IDCT's output (x, y) with the element at `k` (41_transform R114). -/
def idctTerm (x y : Fin 8) (k : Fin 64) (d : Word) : Word :=
  mulF (mulF (mulF d (cosRom x (rowOf k))) (cosRom y (colOf k))) (alphaRom (rowOf k) (colOf k))

/-- The terms that `f` makes of the elements, in loop order. -/
def elementTerms (f : Fin 64 → Word → Word) (b : Vector Word 64) : List Word := (List.finRange 64).map fun k => f k b[k]

theorem fdctTerms_eq (b : Vector Word 64) (u v : Fin 8) : fdctTerms b u v = elementTerms (fdctTerm u v) b := rfl

theorem idctTerms_eq (d : Vector Word 64) (x y : Fin 8) : idctTerms d x y = elementTerms (idctTerm x y) d := rfl

theorem mem_elementTerms (f : Fin 64 → Word → Word) (b : Vector Word 64) (k : Fin 64) : f k b[k] ∈ elementTerms f b :=
  List.mem_map_of_mem (f := fun k => f k b[k]) (List.mem_finRange k)

theorem forall_mem_elementTerms {f : Fin 64 → Word → Word} {b : Vector Word 64} {P : Word → Prop} (h : ∀ k, P (f k b[k])) :
    ∀ t ∈ elementTerms f b, P t := List.forall_mem_map.mpr fun k _ => h k

theorem keepsClass_fdctTerm (u v : Fin 8) (k : Fin 64) : KeepsClass (fdctTerm u v k) :=
  (keepsClass_mulF (cosRom_isFactor _ _)).comp (keepsClass_mulF (cosRom_isFactor _ _))

theorem keepsClass_idctTerm (x y : Fin 8) (k : Fin 64) : KeepsClass (idctTerm x y k) :=
  (keepsClass_mulF (alphaRom_isFactor _ _)).comp ((keepsClass_mulF (cosRom_isFactor _ _)).comp (keepsClass_mulF (cosRom_isFactor _ _)))

/-! Sums with zero, NaN and infinite terms. -/

/-- `+0.0 + (±0.0) = +0.0` (41_transform R119). -/
theorem addF_plusZero_zero {t : Word} (ht : magBits t = 0) : addF plusZero t = plusZero := by
  rcases (magBits_eq_zero_iff t).mp ht with rfl | rfl <;> decide

theorem foldl_addF_of_zeros {terms : List Word} (h : ∀ t ∈ terms, magBits t = 0) : terms.foldl addF plusZero = plusZero := by
  induction terms with
  | nil => rfl
  | cons t ts ih =>
    rw [List.foldl_cons, addF_plusZero_zero (h t List.mem_cons_self)]
    exact ih fun u hu => h u (List.mem_cons_of_mem t hu)

theorem foldl_addF_qNaN (terms : List Word) : terms.foldl addF qNaN = qNaN := by
  induction terms with
  | nil => rfl
  | cons t ts ih => rw [List.foldl_cons, addF_of_isNaN (.inl (by decide)), ih]

/-- Once a sum is qNaN it stays qNaN. -/
theorem foldl_addF_of_step_qNaN {before after : List Word} {s t : Word} (h : addF (before.foldl addF s) t = qNaN) :
    (before ++ t :: after).foldl addF s = qNaN := by
  rw [List.foldl_append, List.foldl_cons, h, foldl_addF_qNaN]

theorem foldl_addF_of_isNaN {terms : List Word} {t : Word} (ht : t ∈ terms) (hnan : isNaN t = true) (s : Word) :
    terms.foldl addF s = qNaN := by
  obtain ⟨before, after, rfl⟩ := List.append_of_mem ht
  exact foldl_addF_of_step_qNaN (addF_of_isNaN (.inr hnan))

theorem foldl_addF_of_meets {terms : List Word} (h : MeetsBothInfinities terms) : terms.foldl addF plusZero = qNaN := by
  obtain ⟨n, t, ht, hsum, hinf, hne⟩ := h
  obtain ⟨hn, rfl⟩ := List.getElem?_eq_some_iff.mp ht
  rw [← List.take_append_drop n terms, List.drop_eq_getElem_cons hn]
  exact foldl_addF_of_step_qNaN (by rw [← runningSum, addF_inf_inf hsum hinf, if_neg hne])

theorem isFinite_or_isInf {x : Word} (h : isNaN x = false) : isFinite x = true ∨ isInf x = true := by
  simpa [h] using isFinite_or_isInf_or_isNaN x

/-- An infinite sum absorbs a term that is no NaN and no infinity of the other sign. -/
theorem addF_eq_of_isInf {s t : Word} (hs : isInf s = true) (ht : isNaN t = false) (hsame : isInf t = true → isNeg s = isNeg t) :
    addF s t = s := by
  rcases isFinite_or_isInf ht with hfin | hinf
  · exact (addF_inf_finite hs hfin).1
  · rw [addF_inf_inf hs hinf, if_pos (hsame hinf)]

theorem isNaN_addF {s t : Word} (hs : isNaN s = false) (ht : isNaN t = false)
    (hsame : isInf s = true → isInf t = true → isNeg s = isNeg t) : isNaN (addF s t) = false := by
  rcases isFinite_or_isInf hs with hfin | hinf
  · rcases isFinite_or_isInf ht with htfin | htinf
    · rw [addF_of_isFinite hfin htfin, isNaN_packF]
    · rw [(addF_inf_finite htinf hfin).2, ht]
  · rw [addF_eq_of_isInf hinf ht (hsame hinf), hs]

/-- A sum meets both infinities if its first terms do. -/
theorem meetsBothInfinities_append {terms : List Word} (h : MeetsBothInfinities terms) (more : List Word) :
    MeetsBothInfinities (terms ++ more) := by
  obtain ⟨n, t, ht, h⟩ := h
  obtain ⟨hn, -⟩ := List.getElem?_eq_some_iff.mp ht
  refine ⟨n, t, by rwa [List.getElem?_append_left hn], ?_⟩
  rwa [runningSum, List.take_append_of_le_length hn.le]

/-- A sum meets both infinities at its last term if the sum before it and the term are infinities of opposite signs. -/
theorem meetsBothInfinities_concat {terms : List Word} {t : Word} (hsum : isInf (terms.foldl addF plusZero) = true) (ht : isInf t = true)
    (hne : isNeg (terms.foldl addF plusZero) ≠ isNeg t) : MeetsBothInfinities (terms ++ [t]) := by
  have hrun : runningSum (terms ++ [t]) terms.length = terms.foldl addF plusZero := by rw [runningSum, List.take_left]
  exact ⟨terms.length, t, List.getElem?_concat_length, by rwa [hrun], ht, by rwa [hrun]⟩

/-- What a sum keeps while it meets no infinities of both signs: it is no NaN, and one infinite term makes it that infinity. -/
structure FollowsInfiniteTerms (terms : List Word) (sum : Word) : Prop where
  not_nan : isNaN sum = false
  infinite : ∀ t ∈ terms, isInf t = true → isInf sum = true ∧ isNeg sum = isNeg t

/-- One more term that is no NaN and, if infinite, not opposite to an infinite sum. -/
theorem FollowsInfiniteTerms.concat {terms : List Word} {sum t : Word} (h : FollowsInfiniteTerms terms sum) (ht : isNaN t = false)
    (hsame : isInf sum = true → isInf t = true → isNeg sum = isNeg t) : FollowsInfiniteTerms (terms ++ [t]) (addF sum t) := by
  refine ⟨?_, List.forall_mem_append.mpr ⟨fun u hu hinf => ?_, List.forall_mem_singleton.mpr fun hinf => ?_⟩⟩
  · exact isNaN_addF h.not_nan ht hsame
  · obtain ⟨hsum, hneg⟩ := h.infinite u hu hinf
    rw [addF_eq_of_isInf hsum ht (hsame hsum)]
    exact ⟨hsum, hneg⟩
  · rcases isFinite_or_isInf h.not_nan with hsum | hsum
    · rw [(addF_inf_finite hinf hsum).2]
      exact ⟨hinf, rfl⟩
    · rw [addF_eq_of_isInf hsum ht (hsame hsum)]
      exact ⟨hsum, hsame hsum hinf⟩

theorem followsInfiniteTerms_foldl_addF {terms : List Word} (hnan : ∀ t ∈ terms, isNaN t = false) (hmeets : ¬ MeetsBothInfinities terms) :
    FollowsInfiniteTerms terms (terms.foldl addF plusZero) := by
  induction terms using List.reverseRecOn with
  | nil => exact ⟨by decide, by simp⟩
  | append_singleton before t ih =>
    rw [List.forall_mem_append, List.forall_mem_singleton] at hnan
    rw [List.foldl_concat]
    refine (ih hnan.1 fun h => hmeets (meetsBothInfinities_append h [t])).concat hnan.2 fun hsum ht => ?_
    by_contra hne
    exact hmeets (meetsBothInfinities_concat hsum ht hne)

/-! An output of a transform: a sum of the elements with their classes kept, scaled by a positive factor. -/

/-- What 41_transform R119 says of the output `out` with the terms `terms` on the block `b`. -/
structure SpecialValues (b : Vector Word 64) (terms : List Word) (out : Word) : Prop where
  zeros : (∀ k : Fin 64, b[k] = plusZero ∨ b[k] = minusZero) → out = plusZero
  nan : ∀ j : Fin 64, isNaN b[j] = true → out = qNaN
  meets : MeetsBothInfinities terms → out = qNaN
  infinite : (∀ j : Fin 64, isNaN b[j] = false) → (∃ j : Fin 64, isInf b[j] = true) → ¬ MeetsBothInfinities terms →
    isInf out = true ∧ ∀ t ∈ terms, isInf t = true → isNeg out = isNeg t

theorem specialValues_of_keepsClass {f : Fin 64 → Word → Word} {c : Word} (hf : ∀ k, KeepsClass (f k)) (hc : IsFactor c)
    (hpos : isNeg c = false) (b : Vector Word 64) : SpecialValues b (elementTerms f b) (mulF ((elementTerms f b).foldl addF plusZero) c) where
  zeros h := by
    have hzero : ∀ t ∈ elementTerms f b, magBits t = 0 :=
      forall_mem_elementTerms fun k => (hf k).zero _ ((magBits_eq_zero_iff _).mpr (h k))
    rw [foldl_addF_of_zeros hzero, mulF_plusZero hc.finite hpos]
  nan j hj := by
    rw [foldl_addF_of_isNaN (mem_elementTerms f b j) (((hf j).nan _).trans hj)]
    exact mulF_of_isNaN (.inl (by decide))
  meets h := by
    rw [foldl_addF_of_meets h]
    exact mulF_of_isNaN (.inl (by decide))
  infinite hnan := by
    rintro ⟨j, hj⟩ hmeets
    have hterms : ∀ t ∈ elementTerms f b, isNaN t = false := forall_mem_elementTerms fun k => ((hf k).nan _).trans (hnan k)
    have hsum := (followsInfiniteTerms_foldl_addF hterms hmeets).infinite
    obtain ⟨hinf, -⟩ := hsum _ (mem_elementTerms f b j) ((hf j).inf _ hj)
    obtain ⟨hout, hneg⟩ := mulF_inf_factor hinf hc
    rw [hpos, Bool.bne_false] at hneg
    exact ⟨hout, fun t ht htinf => hneg.trans (hsum t ht htinf).2⟩

theorem fdctRef_specialValues (b : Vector Word 64) (u v : Fin 8) : SpecialValues b (fdctTerms b u v) (fdctRef b)[cell u v] := by
  obtain ⟨hfactor, hpos⟩ := scaleK_isFactor u v
  rw [fdctRef_cell, fdctAt_eq, fdctTerms_eq]
  exact specialValues_of_keepsClass (keepsClass_fdctTerm u v) hfactor hpos b

theorem idctRef_specialValues (b : Vector Word 64) (x y : Fin 8) : SpecialValues b (idctTerms b x y) (idctRef b)[cell x y] := by
  rw [idctRef_cell, idctAt_eq, idctTerms_eq]
  exact specialValues_of_keepsClass (keepsClass_idctTerm x y) quarter_isFactor rfl b

/-- Settles O13: every output is a sum, scaled by a positive factor, whose terms are zeros, infinities and NaNs where their elements are. -/
theorem transformOfZerosAndNaNs : Obligations.TransformOfZerosAndNaNs := by
  intro b
  have hf := fdctRef_specialValues b
  have hi := idctRef_specialValues b
  refine ⟨fun hz k => ?_, fun j hj k => ?_, fun hnan hinf i j =>
    ⟨(hf i j).meets, (hf i j).infinite hnan hinf, (hi i j).meets, (hi i j).infinite hnan hinf⟩⟩
  · rw [← cell_rowOf_colOf k]
    exact ⟨(hf _ _).zeros hz, (hi _ _).zeros hz⟩
  · rw [← cell_rowOf_colOf k]
    exact ⟨(hf _ _).nan j hj, (hi _ _).nan j hj⟩

end Sys2Proof.Proofs
end


section
/-! SUPPORT. Proofs of 42_quantizer: the derived matrix and its range (R131 to R134), the element quantizer and QUANT (R135 to R138), the exact product
of DEQUANT (R139, R140), and the bounded loss (R141). -/

namespace Sys2Proof.Proofs

open Sys2Proof.Machine

/-! The derived matrix. -/

/-- The base entries lie in 10..121 (42_quantizer R130). -/
theorem bqmTable_range : ∀ k : Fin 64, 10 ≤ (bqmTable[k]).toNat ∧ (bqmTable[k]).toNat ≤ 121 := by decide

theorem mult_le (q : Nat) : mult q ≤ 5000 := by
  unfold mult
  split
  · exact Nat.div_le_self 5000 q
  · omega

theorem one_le_qmEntry (q b : Nat) : 1 ≤ qmEntry q b := Nat.le_max_left ..

/-- The largest intermediate is 5000 · 121 + 50 (42_quantizer R132). -/
theorem qmEntry_le (q : Nat) {b : Nat} (hb : b ≤ 121) : qmEntry q b ≤ 6050 := by
  have : mult q * b ≤ 5000 * 121 := Nat.mul_le_mul (mult_le q) hb
  unfold qmEntry
  omega

/-- An entry of the derived matrix is not cut to its 16 bits (42_quantizer R133). -/
theorem qmMatrix_toNat (q : Nat) (k : Fin 64) : ((qmMatrix q)[k]).toNat = qmEntry q (bqmTable[k]).toNat := by
  have := qmEntry_le q (bqmTable_range k).2
  have hentry : (qmMatrix q)[k] = BitVec.ofNat 16 (qmEntry q (bqmTable[k]).toNat) := by simp [qmMatrix]
  rw [hentry, BitVec.toNat_ofNat, Nat.mod_eq_of_lt (by omega)]

theorem qualityOk_iff (q : Nat) : qualityOk q = true ↔ 1 ≤ q ∧ q ≤ 99 := decide_eq_true_iff

theorem exec_qmBuild_of_ok {q : Nat} (hq : qualityOk q = true) (s : State) : exec (.qmBuild q) s
    = .next ({ s with qm := qmMatrix q, quality := BitVec.ofNat 8 q, qmValid := true } : State).finish := by
  simp only [exec, execQmBuild, hq, if_true, succeed_eq]

/-- Settles O18: the next state holds `qmMatrix q`, whose entries are the exact `qmEntry`s. -/
theorem qmBuildDerivesMatrix : Obligations.QmBuildDerivesMatrix := by
  intro s q hlo hhi
  refine ⟨_, exec_qmBuild_of_ok ((qualityOk_iff q).mpr ⟨hlo, hhi⟩) s, qmMatrix_toNat q, ?_, rfl⟩
  rw [State.finish_quality, BitVec.toNat_ofNat]
  omega

/-- Settles O19: the bounds of `qmEntry`, and its value at the multipliers 100, 5000 and 2. -/
theorem matrixEntriesInRange : Obligations.MatrixEntriesInRange := by
  refine ⟨fun q k _ _ => ?_, fun k => ?_⟩
  · rw [qmMatrix_toNat]
    exact ⟨one_le_qmEntry .., qmEntry_le q (bqmTable_range k).2⟩
  · have ⟨hmin, hmax⟩ := bqmTable_range k
    have h50 : mult 50 = 100 := rfl
    have h1 : mult 1 = 5000 := rfl
    have h99 : mult 99 = 2 := rfl
    simp only [qmMatrix_toNat, qmEntry, h50, h1, h99]
    refine ⟨by omega, by omega, ?_⟩
    split <;> omega

/-! The element quantizer and QUANT. -/

/-- An element QUANT gives 0x00 for: a NaN, an infinity, or an integer part outside 32 bits (42_quantizer R135). -/
def OutOfRange (c : Word) : Prop := isFinite c = false ∨ truncF c < -2 ^ 31 ∨ 2 ^ 31 - 1 < truncF c

theorem not_outOfRange {c : Word} (hfin : isFinite c = true) (hlo : -2 ^ 31 ≤ truncF c) (hhi : truncF c ≤ 2 ^ 31 - 1) : ¬ OutOfRange c := by
  rintro (h | h | h)
  · exact absurd h (by rw [hfin]; decide)
  · exact absurd h hlo.not_gt
  · exact absurd h hhi.not_gt

theorem qElem_of_outOfRange {c : Word} (h : OutOfRange c) (m : Nat) : qElem c m = (0x00#8, true) := by
  unfold qElem
  rcases h with hfin | hbound
  · rw [hfin]
    rfl
  · simp only [if_pos hbound, ite_self]
    rfl

theorem qElem_of_not_outOfRange {c : Word} (h : ¬ OutOfRange c) (m : Nat) : qElem c m = (BitVec.ofInt 8 ((truncF c).tdiv m), false) := by
  obtain ⟨hfin, hbound⟩ := not_or.mp h
  rw [Bool.not_eq_false] at hfin
  simp only [qElem, hfin, if_neg hbound, Bool.not_true, Bool.false_eq_true, if_false]

theorem qElem_snd_iff (c : Word) (m : Nat) : (qElem c m).2 = true ↔ OutOfRange c := by
  by_cases h : OutOfRange c
  · simp [qElem_of_outOfRange h, h]
  · simp [qElem_of_not_outOfRange h, h]

theorem quantBytes_getElem (s : State) (k : Fin 64) : (quantBytes s)[k] = (qElem s.blk[k] (s.qm[k]).toNat).1 := by simp [quantBytes]

theorem quantOutOfRange_iff (s : State) : quantOutOfRange s = true ↔ ∃ k : Fin 64, OutOfRange s.blk[k] := by
  simp only [quantOutOfRange, List.any_eq_true, List.mem_finRange, true_and, qElem_snd_iff]

theorem exec_quant_of_valid {s : State} (h : s.qmValid = true) : exec .quant s
    = .next ({ s with qb := quantBytes s, qoor := stickyQoor s.qoor (quantOutOfRange s) } : State).finish := by
  simp only [exec, execQuant, h, if_true, succeed_eq]

/-- Settles O20: the bytes are the elements of `qElem`, in its two cases, and QOOR takes on whether any is out of range. -/
theorem quantWritesTruncatedQuotients : Obligations.QuantWritesTruncatedQuotients := by
  intro s hvalid
  refine ⟨_, exec_quant_of_valid hvalid, fun k hfin hlo hhi => ?_, fun k hout => ?_, ?_, rfl⟩
  · rw [State.finish_qb, quantBytes_getElem, qElem_of_not_outOfRange (not_outOfRange hfin hlo hhi)]
  · rw [State.finish_qb, quantBytes_getElem, qElem_of_outOfRange hout]
  · rw [State.finish_qoor, stickyQoor, Bool.or_eq_true, quantOutOfRange_iff]
    rfl

/-! Exact conversion of an integer, and DEQUANT. -/

/-- An integer of at most 53 bits, scaled by a power of two, has a pattern: the scale moves into the significand until that is full, then into the
shift. -/
theorem exists_magValue_eq {i : Nat} (hi : i < 2 ^ 53) (e : Nat) : ∃ c < (e + 2) * 2 ^ 52, magValue c = i * 2 ^ e := by
  suffices h : ∃ d k, d ≤ e ∧ k < 2 ^ 53 ∧ (d = 0 ∨ 2 ^ 52 ≤ k) ∧ k * 2 ^ d = i * 2 ^ e by
    obtain ⟨d, k, hde, hk, hd, heq⟩ := h
    exact ⟨d * 2 ^ 52 + k, by omega, (magValue_shift hk.le hd).trans heq⟩
  induction e with
  | zero => exact ⟨0, i, le_rfl, hi, .inl rfl, rfl⟩
  | succ e ih =>
    obtain ⟨d, k, hde, hk, hd, heq⟩ := ih
    rw [pow_succ 2 e, ← Nat.mul_assoc, ← heq]
    by_cases hfull : 2 ^ 52 ≤ k
    · exact ⟨d + 1, k, by omega, hk, .inr hfull, by rw [pow_succ 2 d, Nat.mul_assoc]⟩
    · obtain rfl : d = 0 := by omega
      exact ⟨0, k * 2, by omega, by omega, .inl rfl, by rw [Nat.mul_right_comm]⟩

/-- A magnitude that a pattern has is rounded to that pattern. -/
theorem roundBits_magValue (c : Nat) : roundBits (magValue c) 0 = c := by
  have h := (roundBits_roundsTo (magValue c) 0).nearest c
  simp only [pow_zero, Nat.mul_one, sub_self, abs_zero, abs_nonpos_iff, sub_eq_zero, Nat.cast_inj] at h
  exact magValue_strictMono.injective h

/-- A signed number scaled is its scaled magnitude with its sign. -/
theorem withSign_natAbs_mul (i : Int) (n : Nat) : withSign (decide (i < 0)) (i.natAbs * n) = i * n := by
  rcases lt_or_ge i 0 with h | h
  · simp [withSign, h, abs_of_neg h]
  · simp [withSign, h.not_gt, abs_of_nonneg h]

/-- `toF` of an integer below 2^53 in magnitude is finite and exact (00_scope R10). -/
theorem toF_exact {i : Int} (hi : i.natAbs < 2 ^ 53) : isFinite (toF i) = true ∧ units (toF i) = i * 2 ^ 1074 := by
  obtain ⟨c, hc, hval⟩ := exists_magValue_eq hi 1074
  have hround : roundMag (i.natAbs * 2 ^ 1074) 0 = c := by
    rw [roundMag_eq, ← hval, roundBits_magValue]
    omega
  refine ⟨?_, ?_⟩
  · rw [isFinite_iff, toF, magBits_packF, hround]
    omega
  · rw [units_eq, toF, isNeg_packF, magBits_packF, hround, hval, withSign_natAbs_mul, Nat.cast_pow, Nat.cast_ofNat]

theorem toF_zero : toF 0 = plusZero := by
  rw [toF, Int.natAbs_zero, Nat.zero_mul, packF_zero]
  rfl

/-- The product of a signed byte and a 16-bit entry has far fewer than 53 bits (42_quantizer R139). -/
theorem natAbs_byte_mul_lt (b : Byte) {m : Nat} (hm : m < 2 ^ 16) : (b.toInt * m).natAbs < 2 ^ 53 := by
  have hb : b.toInt.natAbs ≤ 128 := by
    have := b.le_toInt
    have := b.toInt_lt
    omega
  calc (b.toInt * m).natAbs = b.toInt.natAbs * m := by rw [Int.natAbs_mul, Int.natAbs_natCast]
    _ ≤ 128 * 2 ^ 16 := Nat.mul_le_mul hb hm.le
    _ < 2 ^ 53 := by decide

/-- The element dequantizer is exact (42_quantizer R139). -/
theorem dqElem_exact (b : Byte) {m : Nat} (hm : m < 2 ^ 16) :
    isFinite (dqElem b m) = true ∧ units (dqElem b m) = b.toInt * m * 2 ^ 1074 := toF_exact (natAbs_byte_mul_lt b hm)

theorem dequantBlock_getElem (s : State) (k : Fin 64) : (dequantBlock s)[k] = dqElem s.qb[k] (s.qm[k]).toNat := by simp [dequantBlock]

theorem exec_dequant_of_valid {s : State} (h : s.qmValid = true) : exec .dequant s
    = .next ({ s with blk := dequantBlock s } : State).finish := by
  simp only [exec, execDequant, h, if_true, succeed_eq]

/-- Settles O21: the elements are those of `dqElem`, exact by `dqElem_exact`; a zero product is `toF 0`. -/
theorem dequantWritesExactProducts : Obligations.DequantWritesExactProducts := by
  intro s hvalid
  refine ⟨_, exec_dequant_of_valid hvalid, fun k => ?_, rfl⟩
  rw [State.finish_blk, dequantBlock_getElem]
  obtain ⟨hfin, hunits⟩ := dqElem_exact s.qb[k] (s.qm[k]).isLt
  exact ⟨hfin, hunits, fun hzero => by rw [dqElem, hzero, toF_zero]⟩

/-! The bounded loss. -/

/-- A quotient in the byte range survives the byte (42_quantizer R138). -/
theorem toInt_qElem {c : Word} {m : Nat} (h : ¬ OutOfRange c) (hlo : -128 ≤ (truncF c).tdiv m) (hhi : (truncF c).tdiv m ≤ 127) :
    (qElem c m).1.toInt = (truncF c).tdiv m := by
  rw [qElem_of_not_outOfRange h]
  exact BitVec.toInt_ofInt_eq_self (by decide) hlo (by omega)

/-- Truncating to an integer and dividing that is one truncating division (42_quantizer R135). -/
theorem tdiv_tdiv (a : Int) {b c : Int} (hb : 0 ≤ b) (hc : 0 ≤ c) : (a.tdiv b).tdiv c = a.tdiv (b * c) := by
  lift b to Nat using hb
  lift c to Nat using hc
  have hnat (n : Nat) : ((n : Int).tdiv b).tdiv c = (n : Int).tdiv (b * c) := congrArg Nat.cast (Nat.div_div_eq_div_mul n b c)
  obtain ⟨n, rfl | rfl⟩ := a.eq_nat_or_neg
  · exact hnat n
  · rw [Int.neg_tdiv, Int.neg_tdiv, Int.neg_tdiv, hnat]

/-- Settles O23: the loss is the remainder of the element's units by one step of the matrix entry, since the two truncations are one division. -/
theorem quantizationLossIsBounded : Obligations.QuantizationLossIsBounded := by
  intro x m hfin hm hm' habs hlo hhi
  obtain ⟨hgt, hlt⟩ := abs_lt.mp habs
  have hin := not_outOfRange hfin hgt.le (by omega)
  have hstep : (0 : Int) < 2 ^ 1074 * m := by positivity
  have hloss : units (dqElem (qElem x m).1 m) - units x = -(units x).tmod (2 ^ 1074 * m) := by
    rw [(dqElem_exact _ (by omega)).2, toInt_qElem hin hlo hhi, truncF, tdiv_tdiv _ (by positivity) (by omega), Int.tmod_def]
    generalize (2 : Int) ^ 1074 = scale
    ring
  rw [hloss, abs_neg, mul_comm (m : Int), abs_lt]
  exact ⟨Int.lt_tmod_of_pos _ hstep, Int.tmod_lt_of_pos _ hstep⟩

/-! Errors. -/

theorem exec_qmBuild_of_not_ok {q : Nat} (hq : qualityOk q = false) (s : State) :
    exec (.qmBuild q) s = .next (s.record .quality (BitVec.ofNat 64 q)).finish := by
  simp [exec, execQmBuild, hq, raiseError_eq]

theorem exec_quant_of_not_valid {s : State} (h : s.qmValid = false) : exec .quant s = .next (s.record .noQm 0x20#64).finish := by
  simp [exec, execQuant, h, raiseError_eq]

theorem exec_dequant_of_not_valid {s : State} (h : s.qmValid = false) : exec .dequant s = .next (s.record .noQm 0x21#64).finish := by
  simp [exec, execDequant, h, raiseError_eq]

/-- Settles O22: each arm ends with its record and DONE. -/
theorem quantizerUnitErrors : Obligations.QuantizerUnitErrors := by
  refine ⟨fun s q hq => exec_qmBuild_of_not_ok ?_ s, fun s h => ⟨exec_quant_of_not_valid h, exec_dequant_of_not_valid h⟩⟩
  rw [Bool.eq_false_iff, Ne, qualityOk_iff]
  omega

end Sys2Proof.Proofs
end


section
/-! SUPPORT. Proofs of 43_zigzag: the table is a bijection (R151), where ZZ_SCAN and ZZ_UNSCAN put each byte (R152, R153), and the round trips (R154). -/

namespace Sys2Proof.Proofs

open Sys2Proof.Machine

/-! The table. -/

/-- No scan position stands twice in the table (43_zigzag R151, Z1). -/
theorem zzTable_injective : Function.Injective fun k : Fin 64 => zzTable[k] :=
  List.nodup_iff_injective_get.mp (by decide : zzList.Nodup)

theorem zzTable_surjective : Function.Surjective fun k : Fin 64 => zzTable[k] :=
  Finite.injective_iff_surjective.mp zzTable_injective

/-! The two permutations. -/

/-- A loop that stores entry `j` of `old` at place `place j`, for the `j` of a list: distinct places do not overwrite each other. -/
theorem getElem_foldl_set {n : Nat} {α : Type} {place : Fin n → Fin n} (hplace : Function.Injective place) (old : Vector α n)
    (js : List (Fin n)) (q : Vector α n) (k : Fin n) :
    (js.foldl (fun q j => q.set (place j).val old[j] (place j).isLt) q)[place k] = if k ∈ js then old[k] else q[place k] := by
  induction js generalizing q with
  | nil => simp
  | cons j js ih =>
    rw [List.foldl_cons, ih]
    by_cases hjk : j = k
    · simp [hjk]
    · have hne : (place j).val ≠ (place k).val := fun h => hjk (hplace (Fin.ext h))
      simp [Ne.symm hjk, hne]

/-- ZZ_SCAN puts byte k at place ZZ[k] (43_zigzag R152). -/
theorem zzScanned_getElem (old : Vector Byte 64) (k : Fin 64) : (zzScanned old)[zzTable[k]] = old[k] :=
  (getElem_foldl_set zzTable_injective old _ old k).trans (if_pos (List.mem_finRange k))

theorem zzUnscanned_getElem (old : Vector Byte 64) (k : Fin 64) : (zzUnscanned old)[k] = old[zzTable[k]] := by simp [zzUnscanned]

theorem zzUnscanned_zzScanned (old : Vector Byte 64) : zzUnscanned (zzScanned old) = old :=
  Vector.ext fun k hk => (zzUnscanned_getElem _ ⟨k, hk⟩).trans (zzScanned_getElem old ⟨k, hk⟩)

/-- Every place is some ZZ[k], whose byte ZZ_SCAN takes from place k, where ZZ_UNSCAN had put it. -/
theorem zzScanned_zzUnscanned (old : Vector Byte 64) : zzScanned (zzUnscanned old) = old := by
  have hkeep : ∀ p : Fin 64, (zzScanned (zzUnscanned old))[p] = old[p] :=
    zzTable_surjective.forall.mpr fun k => (zzScanned_getElem _ k).trans (zzUnscanned_getElem old k)
  exact Vector.ext fun p hp => hkeep ⟨p, hp⟩

/-! The commands. -/

theorem exec_zzScan (s : State) : exec .zzScan s = .next ({ s with qb := zzScanned s.qb } : State).finish := by
  rw [exec, execZzScan, succeed_eq]

theorem exec_zzUnscan (s : State) : exec .zzUnscan s = .next ({ s with qb := zzUnscanned s.qb } : State).finish := by
  rw [exec, execZzUnscan, succeed_eq]

/-- Settles O24: the next states hold `zzScanned` and `zzUnscanned` of QB. -/
theorem zigzagPermutesBytes : Obligations.ZigzagPermutesBytes := fun s =>
  ⟨⟨_, exec_zzScan s, zzScanned_getElem s.qb, rfl⟩, ⟨_, exec_zzUnscan s, zzUnscanned_getElem s.qb, rfl⟩⟩

/-- Settles O25: the two permutations undo each other, in both orders. -/
theorem zigzagRoundTrip : Obligations.ZigzagRoundTrip := fun s =>
  ⟨⟨_, _, exec_zzScan s, exec_zzUnscan _, zzUnscanned_zzScanned s.qb⟩, ⟨_, _, exec_zzUnscan s, exec_zzScan _, zzScanned_zzUnscanned s.qb⟩⟩

end Sys2Proof.Proofs
end

section
/-! SUPPORT. Proofs of 44_huffman: the code tree (R161 to R165), its depth (R168) and its codes (R169), the table and the packed stream HUFF_ENC
writes (R164 to R167, R170, R171), the decoder's checks and its walk (R174 to R179), and the round trip (R180). -/

namespace Sys2Proof.Proofs

open Sys2Proof.Machine

/-! The byte values and the symbols in ascending order. -/

theorem getElem_allBytes {i : Nat} (h : i < allBytes.length) : allBytes[i] = BitVec.ofNat 8 i := by simp [allBytes]

theorem length_allBytes : allBytes.length = 256 := by simp [allBytes]

theorem getElem_allBytes_lt {i j : Nat} (hi : i < allBytes.length) (hj : j < allBytes.length) : allBytes[i] < allBytes[j] ↔ i < j := by
  rw [length_allBytes] at hi hj
  rw [getElem_allBytes, getElem_allBytes, BitVec.lt_def, BitVec.toNat_ofNat, BitVec.toNat_ofNat, Nat.mod_eq_of_lt hi, Nat.mod_eq_of_lt hj]

theorem pairwise_lt_presentSymbols (input : List Byte) : (presentSymbols input).Pairwise (· < ·) :=
  .filter _ (List.pairwise_iff_getElem.mpr fun _ _ hi hj => (getElem_allBytes_lt hi hj).mpr)

theorem nodup_presentSymbols (input : List Byte) : (presentSymbols input).Nodup :=
  (pairwise_lt_presentSymbols input).imp BitVec.ne_of_lt

theorem presentSymbols_perm_dedup (input : List Byte) : (presentSymbols input).Perm input.dedup :=
  (List.perm_ext_iff_of_nodup (nodup_presentSymbols input) (List.nodup_dedup input)).mpr fun b => by
    rw [mem_presentSymbols, List.mem_dedup]

/-- In an ascending list an entry's index is the number of smaller entries. -/
theorem length_filter_lt_of_getElem? {l : List Byte} (hl : l.Pairwise (· < ·)) {i : Nat} {b : Byte} (h : l[i]? = some b) :
    (l.filter fun d => decide (d < b)).length = i := by
  induction l generalizing i with
  | nil => simp at h
  | cons c l ih =>
    obtain ⟨hc, hl⟩ := List.pairwise_cons.mp hl
    cases i with
    | zero =>
      obtain rfl : c = b := by simpa using h
      have hnone : l.filter (fun d => decide (d < c)) = [] :=
        List.filter_eq_nil_iff.mpr fun d hd => by simpa using BitVec.le_of_lt (hc d hd)
      simp [hnone]
    | succ i =>
      have hi : l[i]? = some b := by simpa using h
      simp [hc b (List.mem_of_getElem? hi), ih hl hi]

/-- The rank of a present symbol, which is its leaf's seq (44_huffman R161, R162). -/
theorem getElem?_presentSymbols_iff {input : List Byte} {b : Byte} {i : Nat} :
    (presentSymbols input)[i]? = some b ↔ b ∈ input ∧ i = (input.dedup.filter fun d => decide (d < b)).length := by
  have hrank {j : Nat} (hj : (presentSymbols input)[j]? = some b) : (input.dedup.filter fun d => decide (d < b)).length = j :=
    ((presentSymbols_perm_dedup input).filter _).length_eq ▸ length_filter_lt_of_getElem? (pairwise_lt_presentSymbols input) hj
  constructor
  · exact fun h => ⟨mem_presentSymbols.mp (List.mem_of_getElem? h), (hrank h).symm⟩
  · rintro ⟨hb, rfl⟩
    obtain ⟨j, hj⟩ := List.mem_iff_getElem?.mp (mem_presentSymbols.mpr hb)
    rwa [hrank hj]

/-! The leaves (44_huffman R162). -/

theorem mem_leafNodes {input : List Byte} {n : HuffNode} : n ∈ leafNodes input ↔ ∃ b ∈ input,
    n = { weight := input.count b, seq := (input.dedup.filter fun d => decide (d < b)).length, tree := .leaf b } := by
  simp only [leafNodes, List.mem_map, List.mem_zipIdx_iff_getElem?, Prod.exists]
  constructor
  · rintro ⟨b, i, hi, rfl⟩
    obtain ⟨hb, hrank⟩ := getElem?_presentSymbols_iff.mp hi
    exact ⟨b, hb, by rw [hrank]⟩
  · rintro ⟨b, hb, rfl⟩
    exact ⟨b, _, getElem?_presentSymbols_iff.mpr ⟨hb, rfl⟩, rfl⟩

theorem map_seq_leafNodes (input : List Byte) : (leafNodes input).map HuffNode.seq = List.range' 0 (presentSymbols input).length := by
  rw [leafNodes, List.map_map, ← List.zipIdx_map_snd 0]
  rfl

/-- A property of the leaves' symbols, in symbol order. -/
theorem map_leafNodes {α : Type} (input : List Byte) (f : HuffNode → α) (g : Byte → α)
    (hfg : ∀ b seq, f { weight := input.count b, seq := seq, tree := .leaf b } = g b) :
    (leafNodes input).map f = (presentSymbols input).map g := by
  conv_rhs => rw [← List.zipIdx_map_fst 0 (presentSymbols input)]
  rw [leafNodes, List.map_map, List.map_map]
  exact List.map_congr_left fun p _ => hfg p.1 p.2

/-! The lowest node and one merge (44_huffman R163). -/

theorem before_eq_false_iff (a b : HuffNode) :
    a.before b = false ↔ b.weight < a.weight ∨ b.weight = a.weight ∧ b.seq ≤ a.seq := by
  rw [HuffNode.before, decide_eq_false_iff_not]
  omega

theorem before_iff (a b : HuffNode) : a.before b = true ↔ a.weight < b.weight ∨ a.weight = b.weight ∧ a.seq < b.seq := decide_eq_true_iff

theorem takeLowest_eq_none_iff (pool : List HuffNode) : takeLowest pool = none ↔ pool = [] := by
  cases pool with
  | nil => simp [takeLowest]
  | cons n ns =>
    rw [takeLowest]
    split
    · simp
    · split <;> simp

theorem exists_takeLowest {pool : List HuffNode} (h : pool ≠ []) : ∃ a rest, takeLowest pool = some (a, rest) := by
  obtain ⟨⟨a, rest⟩, ha⟩ := Option.ne_none_iff_exists'.mp (mt (takeLowest_eq_none_iff pool).mp h)
  exact ⟨a, rest, ha⟩

/-- What a pool gives up and what it keeps. -/
theorem takeLowest_spec {pool rest : List HuffNode} {a : HuffNode} (h : takeLowest pool = some (a, rest)) :
    pool.Perm (a :: rest) ∧ ∀ b ∈ rest, b.before a = false := by
  induction pool generalizing a rest with
  | nil => simp [takeLowest] at h
  | cons n ns ih =>
    rw [takeLowest] at h
    split at h
    · rename_i hnone
      obtain ⟨rfl, rfl⟩ : n = a ∧ [] = rest := by simpa using h
      simp [(takeLowest_eq_none_iff ns).mp hnone]
    · rename_i m rest' hm
      obtain ⟨hperm, hlow⟩ := ih hm
      split at h
      · rename_i hn
        obtain ⟨rfl, rfl⟩ : n = a ∧ ns = rest := by simpa using h
        refine ⟨.refl _, fun b hb => ?_⟩
        rw [before_iff] at hn
        rcases List.mem_cons.mp (hperm.mem_iff.mp hb) with rfl | hb
        · rw [before_eq_false_iff]
          omega
        · have := (before_eq_false_iff b m).mp (hlow b hb)
          rw [before_eq_false_iff]
          omega
      · rename_i hn
        obtain ⟨rfl, rfl⟩ : m = a ∧ n :: rest' = rest := by simpa using h
        exact ⟨(hperm.cons n).trans (.swap m n rest'), List.forall_mem_cons.mpr ⟨by simpa using hn, hlow⟩⟩

/-- The node that a merge of `a` and `b` adds to the pool (44_huffman R163). -/
def mergedNode (next : Nat) (a b : HuffNode) : HuffNode := { weight := a.weight + b.weight, seq := next, tree := .node a.tree b.tree }

theorem mergePool_succ {pool rest rest2 : List HuffNode} {a b : HuffNode} (ha : takeLowest pool = some (a, rest))
    (hb : takeLowest rest = some (b, rest2)) (fuel next : Nat) :
    mergePool (fuel + 1) next pool = mergePool fuel (next + 1) (mergedNode next a b :: rest2) := by
  simp only [mergePool, ha, hb, mergedNode]

theorem mergePool_singleton (fuel next : Nat) (root : HuffNode) : mergePool fuel next [root] = [root] := by
  cases fuel <;> rfl

/-- With enough merges one node is left. -/
theorem mergePool_ends (fuel next : Nat) {pool : List HuffNode} (hne : pool ≠ []) (hlen : pool.length ≤ fuel + 1) :
    ∃ root, mergePool fuel next pool = [root] := by
  induction fuel generalizing next pool with
  | zero =>
    obtain ⟨root, rfl⟩ := List.length_eq_one_iff.mp (Nat.le_antisymm hlen (List.length_pos_iff.mpr hne))
    exact ⟨root, rfl⟩
  | succ fuel ih =>
    obtain ⟨a, rest, ha⟩ := exists_takeLowest hne
    have hperm := (takeLowest_spec ha).1
    by_cases hrest : rest = []
    · obtain rfl : pool = [a] := List.perm_singleton.mp (hrest ▸ hperm)
      exact ⟨a, mergePool_singleton _ _ a⟩
    · obtain ⟨b, rest2, hb⟩ := exists_takeLowest hrest
      rw [mergePool_succ ha hb]
      have h1 := hperm.length_eq
      have h2 := (takeLowest_spec hb).1.length_eq
      simp only [List.length_cons] at h1 h2
      exact ih _ (by simp) (by simp only [List.length_cons]; omega)

/-- What every merge keeps holds of the pool the merging ends with. A merge takes two nodes, of which none left is lighter. -/
theorem mergePool_keeps {P : List HuffNode → Prop}
    (hmerge : ∀ next a b pool rest, pool.Perm (a :: b :: rest) → (∀ m ∈ rest, a.weight ≤ m.weight ∧ b.weight ≤ m.weight) → P pool →
      P (mergedNode next a b :: rest))
    (fuel next : Nat) {pool : List HuffNode} (h : P pool) : P (mergePool fuel next pool) := by
  induction fuel generalizing next pool with
  | zero => exact h
  | succ fuel ih =>
    cases ha : takeLowest pool with
    | none => simpa only [mergePool, ha] using h
    | some p =>
      obtain ⟨a, rest⟩ := p
      obtain ⟨hpa, hla⟩ := takeLowest_spec ha
      cases hb : takeLowest rest with
      | none => simpa only [mergePool, ha, hb] using h
      | some q =>
        obtain ⟨b, rest2⟩ := q
        obtain ⟨hpb, hlb⟩ := takeLowest_spec hb
        rw [mergePool_succ ha hb]
        refine ih _ (hmerge next a b pool rest2 (hpa.trans (hpb.cons a)) (fun m hm => ?_) h)
        have h1 := (before_eq_false_iff m a).mp (hla m (hpb.mem_iff.mpr (List.mem_cons_of_mem b hm)))
        have h2 := (before_eq_false_iff m b).mp (hlb m hm)
        omega

/-! Paths and codes of a tree (44_huffman R164, R165). -/

theorem mem_treePaths_node {a b : HuffTree} {s : Byte} {p : List Bool} : (s, p) ∈ treePaths (.node a b) ↔
    ∃ q, (p = false :: q ∧ (s, q) ∈ treePaths a) ∨ (p = true :: q ∧ (s, q) ∈ treePaths b) := by
  simp only [treePaths, List.mem_append, List.mem_map, Prod.exists, Prod.mk.injEq]
  constructor
  · rintro (⟨s', q, hq, rfl, rfl⟩ | ⟨s', q, hq, rfl, rfl⟩)
    · exact ⟨q, .inl ⟨rfl, hq⟩⟩
    · exact ⟨q, .inr ⟨rfl, hq⟩⟩
  · rintro ⟨q, ⟨rfl, hq⟩ | ⟨rfl, hq⟩⟩
    · exact .inl ⟨s, q, hq, rfl, rfl⟩
    · exact .inr ⟨s, q, hq, rfl, rfl⟩

theorem symbolCodes_of_mergePool {input : List Byte} {root : HuffNode}
    (h : mergePool (leafNodes input).length (leafNodes input).length (leafNodes input) = [root]) :
    symbolCodes input = treeCodes root.tree := by simp only [symbolCodes, h]

/-- Settles O26: the leaves by the symbols' ranks, the lowest node by `takeLowest_spec`, the end of merging by `mergePool_ends`. -/
theorem lowestNodeIsTaken : Obligations.LowestNodeIsTaken := by
  refine ⟨fun _ _ => mem_leafNodes, fun input => .of_map HuffNode.seq (map_seq_leafNodes input ▸ List.nodup_range'),
    fun _ => exists_takeLowest, fun _ _ _ => takeLowest_spec, fun fuel next _ _ _ _ _ ha hb => mergePool_succ ha hb fuel next,
    mergePool_singleton, fun fuel next _ => mergePool_ends fuel next, fun _ => rfl, fun _ _ _ _ => mem_treePaths_node,
    fun input root h => ?_⟩
  rw [symbolCodes_of_mergePool h]
  exact ⟨fun s hs => by rw [hs, treeCodes], fun a b hab => by rw [hab, treeCodes]⟩

/-! The merge tree of an input: its leaves, its weight and its depth (44_huffman R162, R163, R168). -/

/-- The symbols of a tree's leaves. -/
def treeSymbols (t : HuffTree) : List Byte := (treePaths t).map Prod.fst

@[simp] theorem treeSymbols_leaf (s : Byte) : treeSymbols (.leaf s) = [s] := rfl

@[simp] theorem treeSymbols_node (a b : HuffTree) : treeSymbols (.node a b) = treeSymbols a ++ treeSymbols b := by
  simp [treeSymbols, treePaths, Function.comp_def]

theorem treeSymbols_ne_nil (t : HuffTree) : treeSymbols t ≠ [] := by
  induction t with
  | leaf s => simp
  | node a b iha => simp [iha]

/-- What holds of the pool throughout the merging. The two Fibonacci bounds are the induction of 44_huffman R168: a node that ends a path of length L
weighs at least Fib(L + 2), and whatever it can be merged with weighs at least as much as its own heavier child, Fib(L + 1). -/
structure MergeInv (input : List Byte) (pool : List HuffNode) : Prop where
  symbols : (pool.flatMap fun n => treeSymbols n.tree).Perm (presentSymbols input)
  weights : (pool.map HuffNode.weight).sum = input.length
  weight_ge : ∀ n ∈ pool, ∀ p ∈ treePaths n.tree, Nat.fib (p.2.length + 2) ≤ n.weight
  partner_ge : ∀ n ∈ pool, ∀ p ∈ treePaths n.tree, ∀ m ∈ pool, Nat.fib (p.2.length + 1) ≤ m.weight

theorem mergeInv_leafNodes (input : List Byte) : MergeInv input (leafNodes input) := by
  have hpath {n : HuffNode} (hn : n ∈ leafNodes input) {p : Byte × List Bool} (hp : p ∈ treePaths n.tree) : p.2 = [] := by
    obtain ⟨b, -, rfl⟩ := mem_leafNodes.mp hn
    obtain rfl := List.mem_singleton.mp hp
    rfl
  have hweight {n : HuffNode} (hn : n ∈ leafNodes input) : 1 ≤ n.weight := by
    obtain ⟨b, hb, rfl⟩ := mem_leafNodes.mp hn
    exact List.count_pos_iff.mpr hb
  refine ⟨?_, ?_, fun n hn p hp => ?_, fun n hn p hp m hm => ?_⟩
  · rw [List.flatMap_def, map_leafNodes input _ (fun b => [b]) fun _ _ => rfl, ← List.flatMap_def, List.flatMap_singleton']
  · rw [map_leafNodes input _ (input.count ·) fun _ _ => rfl, ((presentSymbols_perm_dedup input).map _).sum_eq,
      List.sum_map_count_dedup_eq_length]
  · rw [hpath hn hp]
    exact hweight hn
  · rw [hpath hn hp]
    exact hweight hm

theorem fib_le_add {l v w : Nat} (hv : Nat.fib (l + 2) ≤ v) (hw : Nat.fib (l + 1) ≤ w) : Nat.fib (l + 1 + 2) ≤ v + w := by
  rw [Nat.fib_add_two, Nat.add_comm v w]
  exact Nat.add_le_add hw hv

theorem mergeInv_merge {input : List Byte} (next : Nat) (a b : HuffNode) (pool rest : List HuffNode) (hperm : pool.Perm (a :: b :: rest))
    (hlow : ∀ m ∈ rest, a.weight ≤ m.weight ∧ b.weight ≤ m.weight) (h : MergeInv input pool) :
    MergeInv input (mergedNode next a b :: rest) := by
  have hold {m : HuffNode} (hm : m ∈ a :: b :: rest) : m ∈ pool := hperm.mem_iff.mpr hm
  have ha := hold (m := a) (by simp)
  have hb := hold (m := b) (by simp)
  have hrest {m : HuffNode} (hm : m ∈ rest) := hold (m := m) (by simp [hm])
  refine ⟨?_, ?_, List.forall_mem_cons.mpr ⟨fun p hp => ?_, fun n hn => h.weight_ge n (hrest hn)⟩,
    List.forall_mem_cons.mpr ⟨fun p hp => ?_, fun n hn p hp => List.forall_mem_cons.mpr
      ⟨?_, fun m hm => h.partner_ge n (hrest hn) p hp m (hrest hm)⟩⟩⟩
  · refine .trans ?_ h.symbols
    simpa [mergedNode] using (hperm.flatMap_right fun n => treeSymbols n.tree).symm
  · rw [← h.weights, (hperm.map _).sum_eq]
    simp [mergedNode, Nat.add_assoc]
  · obtain ⟨q, ⟨hpq, hq⟩ | ⟨hpq, hq⟩⟩ := mem_treePaths_node.mp hp
    · rw [hpq, List.length_cons]
      exact fib_le_add (h.weight_ge a ha _ hq) (h.partner_ge a ha _ hq b hb)
    · rw [hpq, List.length_cons]
      exact (fib_le_add (h.weight_ge b hb _ hq) (h.partner_ge b hb _ hq a ha)).trans_eq (Nat.add_comm ..)
  · obtain ⟨q, ⟨hpq, hq⟩ | ⟨hpq, hq⟩⟩ := mem_treePaths_node.mp hp
    · have h1 := h.weight_ge a ha _ hq
      rw [hpq, List.length_cons]
      exact List.forall_mem_cons.mpr ⟨h1.trans (Nat.le_add_right ..), fun m hm => h1.trans (hlow m hm).1⟩
    · have h1 := h.weight_ge b hb _ hq
      rw [hpq, List.length_cons]
      exact List.forall_mem_cons.mpr ⟨h1.trans (Nat.le_add_left ..), fun m hm => h1.trans (hlow m hm).2⟩
  · exact (h.partner_ge n (hrest hn) p hp a ha).trans (Nat.le_add_right ..)

/-- The codes of an input that is not empty are those of a tree whose leaves are the present symbols, and whose depth is bounded by its weight. -/
theorem exists_codeTree {input : List Byte} (h : input ≠ []) : ∃ t, symbolCodes input = treeCodes t
    ∧ (treeSymbols t).Perm (presentSymbols input) ∧ ∀ p ∈ treePaths t, Nat.fib (p.2.length + 2) ≤ input.length := by
  have hne : leafNodes input ≠ [] := by
    obtain ⟨b, hb⟩ := List.exists_mem_of_ne_nil input h
    exact List.ne_nil_of_mem (mem_leafNodes.mpr ⟨b, hb, rfl⟩)
  obtain ⟨root, hroot⟩ := mergePool_ends (leafNodes input).length (leafNodes input).length hne (Nat.le_succ _)
  have hinv : MergeInv input [root] := hroot ▸ mergePool_keeps mergeInv_merge _ _ (mergeInv_leafNodes input)
  refine ⟨root.tree, symbolCodes_of_mergePool hroot, by simpa using hinv.symbols, fun p hp => ?_⟩
  have hw : root.weight = input.length := by simpa using hinv.weights
  exact hw ▸ hinv.weight_ge root (by simp) p hp

theorem symbolCodes_nil : symbolCodes [] = [] := by
  have hleaves : leafNodes [] = [] := List.eq_nil_iff_forall_not_mem.mpr fun n hn => by simpa using mem_leafNodes.mp hn
  simp only [symbolCodes, hleaves, List.length_nil, mergePool]

/-! The codes of an input (44_huffman R164, R165, R168, R169). -/

theorem map_fst_treeCodes (t : HuffTree) : (treeCodes t).map Prod.fst = treeSymbols t := by cases t <;> rfl

theorem map_fst_symbolCodes_perm (input : List Byte) : ((symbolCodes input).map Prod.fst).Perm (presentSymbols input) := by
  by_cases h : input = []
  · subst h
    simp [symbolCodes_nil, presentSymbols]
  · obtain ⟨t, hcodes, hsymbols, -⟩ := exists_codeTree h
    rwa [hcodes, map_fst_treeCodes]

theorem nodup_map_fst_symbolCodes (input : List Byte) : ((symbolCodes input).map Prod.fst).Nodup :=
  (map_fst_symbolCodes_perm input).nodup_iff.mpr (nodup_presentSymbols input)

theorem exists_code_iff {input : List Byte} {b : Byte} : (∃ p, (b, p) ∈ symbolCodes input) ↔ b ∈ input := by
  rw [← mem_presentSymbols, ← (map_fst_symbolCodes_perm input).mem_iff]
  simp

theorem exists_codeTree_of_mem {input : List Byte} {c : Byte × List Bool} (h : c ∈ symbolCodes input) : ∃ t, symbolCodes input = treeCodes t
    ∧ (treeSymbols t).Perm (presentSymbols input) ∧ ∀ p ∈ treePaths t, Nat.fib (p.2.length + 2) ≤ input.length :=
  exists_codeTree (List.ne_nil_of_mem (exists_code_iff.mp ⟨c.2, h⟩))

/-- Fib(48) is above 2^32, so a tree of fewer than 2^32 symbols has no path longer than 45. -/
theorem le_45_of_fib_le {n l : Nat} (hn : n < 2 ^ 32) (h : Nat.fib (l + 2) ≤ n) : l ≤ 45 := by
  by_contra hl
  have hmono : Nat.fib 48 ≤ Nat.fib (l + 2) := Nat.fib_mono (by omega)
  have hfib : Nat.fib 48 = 4807526976 := by norm_num
  omega

/-- Settles O30: the tree's depth is bounded by its weight, by way of the Fibonacci numbers. -/
theorem codeLengthsAtMost45 : Obligations.CodeLengthsAtMost45 := by
  intro input hn p hp
  obtain ⟨t, hcodes, -, hdepth⟩ := exists_codeTree_of_mem hp
  rw [hcodes] at hp
  cases t with
  | leaf s =>
    obtain rfl := List.mem_singleton.mp hp
    simp
  | node a b => exact le_45_of_fib_le hn (hdepth p hp)

theorem code_ne_nil {input : List Byte} {c : Byte × List Bool} (h : c ∈ symbolCodes input) : c.2 ≠ [] := by
  obtain ⟨t, hcodes, -⟩ := exists_codeTree_of_mem h
  rw [hcodes] at h
  cases t with
  | leaf s =>
    obtain rfl := List.mem_singleton.mp h
    simp
  | node a b =>
    obtain ⟨q, ⟨hq, -⟩ | ⟨hq, -⟩⟩ := mem_treePaths_node.mp h <;> simp [hq]

/-- No path of a tree starts another one: they part at the node where their leaves do. -/
theorem eq_of_treePaths_prefix {t : HuffTree} {b d : Byte} {p q : List Bool} (hp : (b, p) ∈ treePaths t) (hq : (d, q) ∈ treePaths t)
    (h : p.IsPrefix q) : b = d := by
  induction t generalizing p q with
  | leaf s =>
    rw [treePaths, List.mem_singleton, Prod.mk.injEq] at hp hq
    rw [hp.1, hq.1]
  | node t0 t1 ih0 ih1 =>
    obtain ⟨p', ⟨rfl, hp'⟩ | ⟨rfl, hp'⟩⟩ := mem_treePaths_node.mp hp <;>
      obtain ⟨q', ⟨rfl, hq'⟩ | ⟨rfl, hq'⟩⟩ := mem_treePaths_node.mp hq
    · exact ih0 hp' hq' (List.cons_prefix_cons.mp h).2
    · cases (List.cons_prefix_cons.mp h).1
    · cases (List.cons_prefix_cons.mp h).1
    · exact ih1 hp' hq' (List.cons_prefix_cons.mp h).2

theorem eq_of_code_prefix {input : List Byte} {b d : Byte} {p q : List Bool} (hp : (b, p) ∈ symbolCodes input) (hq : (d, q) ∈ symbolCodes input)
    (h : p.IsPrefix q) : b = d := by
  obtain ⟨t, hcodes, -⟩ := exists_codeTree_of_mem hp
  rw [hcodes] at hp hq
  cases t with
  | leaf s =>
    rw [treeCodes, List.mem_singleton, Prod.mk.injEq] at hp hq
    rw [hp.1, hq.1]
  | node t0 t1 => exact eq_of_treePaths_prefix hp hq h

/-- Kraft's equality for the paths of a tree, times 2^depth: each node halves the share of its subtrees. -/
theorem kraft_treePaths {t : HuffTree} {depth : Nat} (h : ∀ p ∈ treePaths t, p.2.length ≤ depth) :
    ((treePaths t).map fun p => 2 ^ (depth - p.2.length)).sum = 2 ^ depth := by
  induction t generalizing depth with
  | leaf s => simp [treePaths]
  | node t0 t1 ih0 ih1 =>
    simp only [treePaths, List.forall_mem_append, List.forall_mem_map, List.length_cons] at h
    obtain ⟨h0, h1⟩ := h
    cases depth with
    | zero =>
      obtain ⟨p, hp⟩ := List.exists_mem_of_ne_nil _ (mt List.map_eq_nil_iff.mpr (treeSymbols_ne_nil t0))
      exact absurd (h0 p hp) (by omega)
    | succ depth =>
      simp only [treePaths, List.map_append, List.map_map, List.sum_append, Function.comp_def, List.length_cons, Nat.add_sub_add_right]
      rw [ih0 fun p hp => Nat.le_of_succ_le_succ (h0 p hp), ih1 fun p hp => Nat.le_of_succ_le_succ (h1 p hp)]
      omega

/-! A bit string as a number, and the code of an entry (44_huffman R164, R166). -/

theorem bitsValue_concat (p : List Bool) (b : Bool) : bitsValue (p ++ [b]) = 2 * bitsValue p + b.toNat := by simp [bitsValue]

theorem bitsValue_lt (p : List Bool) : bitsValue p < 2 ^ p.length := by
  induction p using List.reverseRecOn with
  | nil => simp [bitsValue]
  | append_singleton p b ih =>
    rw [bitsValue_concat, List.length_append, List.length_singleton, Nat.pow_succ]
    have := b.toNat_lt
    omega

/-- The last bit is bit 0 of the number. -/
theorem testBit_bitsValue (p : List Bool) (i : Nat) : (bitsValue p).testBit i = p.reverse.getD i false := by
  induction p using List.reverseRecOn generalizing i with
  | nil => simp [bitsValue]
  | append_singleton p b ih =>
    rw [bitsValue_concat, List.reverse_concat]
    cases i with
    | zero => cases b <;> simp [Nat.testBit_zero, Nat.add_mod]
    | succ i =>
      have hhalf : (2 * bitsValue p + b.toNat) / 2 = bitsValue p := by
        have := b.toNat_lt
        omega
      rw [Nat.testBit_succ, hhalf, ih, List.getD_cons_succ]

theorem testBit_bitsValue_of_lt {p : List Bool} {i : Nat} (h : i < p.length) : (bitsValue p).testBit i = p[p.length - 1 - i] := by
  rw [testBit_bitsValue, List.getD_eq_getElem?_getD, List.getElem?_reverse h, List.getElem?_eq_getElem, Option.getD_some]

/-- The first bit is the most significant one (44_huffman R164). -/
theorem testBit_bitsValue_reverse {p : List Bool} {i : Nat} (h : i < p.length) : (bitsValue p).testBit (p.length - 1 - i) = p[i] := by
  rw [testBit_bitsValue_of_lt (by omega)]
  congr
  omega

theorem getElem_codeBits {e : HtEntry} {i : Nat} (h : i < (codeBits e).length) :
    (codeBits e)[i] = e.pattern.getLsbD (e.len.toNat - 1 - i) := by simp [codeBits]

/-- An entry that the decoder matches with the bits read so far, by length and value, has those bits as its code (44_huffman R178). -/
theorem codeBits_of_match {e : HtEntry} {p : List Bool} (hlen : e.len.toNat = p.length) (hpat : e.pattern.toNat = bitsValue p) :
    codeBits e = p := by
  refine List.ext_getElem (by rw [length_codeBits, hlen]) fun i _ hi => ?_
  rw [getElem_codeBits, hlen, ← BitVec.testBit_toNat, hpat, testBit_bitsValue_reverse hi]

theorem entryWellFormed_iff (e : HtEntry) : entryWellFormed e = true ↔ e.len.toNat ≤ 48 ∧ e.pattern.toNat < 2 ^ e.len.toNat :=
  decide_eq_true_iff

/-- The code of a well-formed entry has the value of its PATTERN. -/
theorem bitsValue_codeBits {e : HtEntry} (h : e.pattern.toNat < 2 ^ e.len.toNat) : bitsValue (codeBits e) = e.pattern.toNat := by
  have hlt := bitsValue_lt (codeBits e)
  rw [length_codeBits] at hlt
  refine Nat.eq_of_testBit_eq fun i => ?_
  by_cases hi : i < e.len.toNat
  · rw [testBit_bitsValue_of_lt (by rwa [length_codeBits]), getElem_codeBits, BitVec.testBit_toNat, length_codeBits,
      show e.len.toNat - 1 - (e.len.toNat - 1 - i) = i by omega]
  · have hpow : 2 ^ e.len.toNat ≤ 2 ^ i := Nat.pow_le_pow_right (by decide) (by omega)
    rw [Nat.testBit_lt_two_pow (hlt.trans_le hpow), Nat.testBit_lt_two_pow (h.trans_le hpow)]

/-! The table HUFF_ENC writes (44_huffman R164, R168, R169). -/

/-- The table for an input. -/
def encoderTable (input : List Byte) : Vector HtEntry 256 := codeTable (symbolCodes input)

/-- HT does not cut a code of at most 48 bits. -/
theorem entryOfCode_toNat {p : List Bool} (h : p.length ≤ 48) :
    (entryOfCode p).len.toNat = p.length ∧ (entryOfCode p).pattern.toNat = bitsValue p := by
  have hval : bitsValue p < 2 ^ 48 := (bitsValue_lt p).trans_le (Nat.pow_le_pow_right (by decide) h)
  refine ⟨?_, ?_⟩
  · rw [entryOfCode, BitVec.toNat_ofNat, Nat.mod_eq_of_lt (by omega)]
  · rw [entryOfCode, BitVec.toNat_ofNat, Nat.mod_eq_of_lt hval]

theorem at8_encoderTable {input : List Byte} {b : Byte} {p : List Bool} (h : (b, p) ∈ symbolCodes input) :
    at8 (encoderTable input) b = entryOfCode p := by
  rw [encoderTable, at8_codeTable, entryOfSymbol]
  split
  · rename_i c hfind
    have hb : c.1 = b := by simpa using List.find?_some hfind
    obtain rfl : c = (b, p) := List.inj_on_of_nodup_map (nodup_map_fst_symbolCodes input) (List.mem_of_find?_eq_some hfind) h hb
    rfl
  · rename_i hfind
    simpa using List.find?_eq_none.mp hfind _ h

theorem at8_encoderTable_of_absent {input : List Byte} {b : Byte} (h : b ∉ input) : at8 (encoderTable input) b = { len := 0, pattern := 0 } := by
  rw [encoderTable, at8_codeTable, entryOfSymbol]
  split
  · rename_i c hfind
    have hb : c.1 = b := by simpa using List.find?_some hfind
    exact absurd (exists_code_iff.mp ⟨c.2, hb ▸ List.mem_of_find?_eq_some hfind⟩) h
  · rfl

/-- A symbol of the input has its code as its entry, uncut. -/
theorem encoderTable_entry {input : List Byte} (hn : input.length < 2 ^ 32) {b : Byte} {p : List Bool} (h : (b, p) ∈ symbolCodes input) :
    (at8 (encoderTable input) b).len.toNat = p.length ∧ (at8 (encoderTable input) b).pattern.toNat = bitsValue p
    ∧ codeBits (at8 (encoderTable input) b) = p := by
  have h45 : p.length ≤ 45 := codeLengthsAtMost45 input hn _ h
  obtain ⟨hlen, hpat⟩ := entryOfCode_toNat (p := p) (by omega)
  rw [at8_encoderTable h]
  exact ⟨hlen, hpat, codeBits_of_match hlen hpat⟩

theorem encoderTable_len_pos_iff {input : List Byte} (hn : input.length < 2 ^ 32) (b : Byte) :
    0 < (at8 (encoderTable input) b).len.toNat ↔ b ∈ input := by
  by_cases hb : b ∈ input
  · obtain ⟨p, hp⟩ := exists_code_iff.mpr hb
    simpa [(encoderTable_entry hn hp).1, hb, List.length_pos_iff] using code_ne_nil hp
  · simp [at8_encoderTable_of_absent hb, hb]

theorem encoderTable_prefixFree {input : List Byte} (hn : input.length < 2 ^ 32) {b d : Byte} (hb : b ∈ input) (hd : d ∈ input) (hne : b ≠ d) :
    ¬ (codeBits (at8 (encoderTable input) b)).IsPrefix (codeBits (at8 (encoderTable input) d)) := by
  obtain ⟨p, hp⟩ := exists_code_iff.mpr hb
  obtain ⟨q, hq⟩ := exists_code_iff.mpr hd
  rw [(encoderTable_entry hn hp).2.2, (encoderTable_entry hn hq).2.2]
  exact fun h => hne (eq_of_code_prefix hp hq h)

/-- Every code the encoder writes has at most 45 bits, and an absent symbol has none. -/
theorem encoderTable_len_le {input : List Byte} (hn : input.length < 2 ^ 32) (b : Byte) : (at8 (encoderTable input) b).len.toNat ≤ 45 := by
  by_cases hb : b ∈ input
  · obtain ⟨p, hp⟩ := exists_code_iff.mpr hb
    rw [(encoderTable_entry hn hp).1]
    exact codeLengthsAtMost45 input hn _ hp
  · simp [at8_encoderTable_of_absent hb]

/-- HUFF_DEC's table check passes on the encoder's table (44_huffman R176). -/
theorem encoderTable_wellFormed {input : List Byte} (hn : input.length < 2 ^ 32) (b : Byte) :
    entryWellFormed (at8 (encoderTable input) b) = true := by
  refine (entryWellFormed_iff _).mpr ⟨(encoderTable_len_le hn b).trans (by decide), ?_⟩
  by_cases hb : b ∈ input
  · obtain ⟨p, hp⟩ := exists_code_iff.mpr hb
    obtain ⟨hlen, hpat, -⟩ := encoderTable_entry hn hp
    rw [hlen, hpat]
    exact bitsValue_lt p
  · simp [at8_encoderTable_of_absent hb]

/-- Settles O31: the codes are the paths to different leaves of one tree. -/
theorem encoderCodesArePrefixFree : Obligations.EncoderCodesArePrefixFree := fun _ hn =>
  ⟨encoderTable_len_pos_iff hn, fun _ _ hb hd => encoderTable_prefixFree hn hb hd⟩

/-- Settles O32: with two or more leaves the codes are the paths of a tree, for which `kraft_treePaths` holds. -/
theorem encoderCodesMeetKraftEquality : Obligations.EncoderCodesMeetKraftEquality := by
  intro input hn htwo
  have hne : input ≠ [] := by
    rintro rfl
    simp [presentSymbols] at htwo
  obtain ⟨t, hcodes, hsymbols, hdepth⟩ := exists_codeTree hne
  cases t with
  | leaf s =>
    rw [← hsymbols.length_eq] at htwo
    exact absurd htwo (by simp)
  | node a b =>
    have hshare : ∀ c ∈ treePaths (.node a b), 2 ^ (48 - (at8 (encoderTable input) c.1).len.toNat) = 2 ^ (48 - c.2.length) := fun c hc => by
      rw [(encoderTable_entry hn (p := c.2) (hcodes ▸ hc)).1]
    calc ((presentSymbols input).map fun b => 2 ^ (48 - (at8 (encoderTable input) b).len.toNat)).sum
        = ((treeSymbols (.node a b)).map fun b => 2 ^ (48 - (at8 (encoderTable input) b).len.toNat)).sum := (hsymbols.map _).sum_eq.symm
      _ = ((treePaths (.node a b)).map fun c => 2 ^ (48 - c.2.length)).sum := by
        rw [treeSymbols, List.map_map]
        exact congrArg List.sum (List.map_congr_left hshare)
      _ = 2 ^ 48 := kraft_treePaths fun c hc => (le_45_of_fib_le hn (hdepth c hc)).trans (by decide)

/-! The packed stream (44_huffman R166, R167). -/

theorem le_bytesFor (bits : Nat) : bits ≤ 8 * bytesFor bits := by
  rw [bytesFor]
  omega

theorem getLsbD_packByte (stream : List Bool) (i : Nat) {j : Nat} (hj : j < 8) :
    (packByte stream i).getLsbD (7 - j) = stream.getD (8 * i + j) false := by
  have hbit := testBit_bitsValue_reverse (p := (List.range 8).map fun j => stream.getD (8 * i + j) false) (i := j) (by simpa using hj)
  simp only [List.length_map, List.length_range, List.getElem_map, List.getElem_range] at hbit
  rw [packByte, BitVec.getLsbD_ofNat, hbit, decide_eq_true (by omega), Bool.true_and]

/-- The bits of BITS are those of the stream that was packed there, and the pad bits 0. -/
theorem streamBit_writeBytes_packStream {m : Memory} (h : m.wf) (stream : List Bool) {i : Nat} (hi : i < 8 * bytesFor stream.length) :
    streamBit (m.writeBytes 0 (packStream stream)) i = stream.getD i false := by
  have hbyte : i / 8 < bytesFor stream.length := by omega
  have hread : Memory.read (m.writeBytes 0 (packStream stream)) (i / 8) = packByte stream (i / 8) := by
    rw [Memory.read_writeBytes h, if_pos ⟨Nat.zero_le _, by rwa [length_packStream, Nat.zero_add]⟩]
    simp [packStream, hbyte]
  rw [streamBit, hread, getLsbD_packByte stream _ (Nat.mod_lt i (by decide)), Nat.div_add_mod]

/-! HUFF_ENC (44_huffman R170, R171). -/

/-- T, the number of code bits of the input (44_huffman R167). -/
def inputBits (s : State) : Nat := totalBits (encoderTable (huffInput s)) (huffInput s)

/-- What HUFF_ENC writes when neither check fails (44_huffman R170). -/
def encodedState (s : State) : State := { s with
  ht := encoderTable (huffInput s)
  bits := s.bits.writeBytes 0 (packStream (codeStream (encoderTable (huffInput s)) (huffInput s)))
  bitCount := BitVec.ofNat 64 (inputBits s)
  bitLen := BitVec.ofNat 32 (bytesFor (inputBits s)) }

theorem length_huffInput_lt (s : State) : (huffInput s).length < 2 ^ 32 := by
  rw [length_huffInput]
  exact s.symCount.isLt

theorem not_capLt {a cap : BitVec 32} (h : a.toNat ≤ cap.toNat) : ¬ cap < a := Nat.not_lt.mpr h

theorem exec_huffEnc_of_symCount {s : State} (h : s.params.symCap.toNat < s.symCount.toNat) :
    exec .huffEnc s = .next (s.record .symCount (s.symCount.setWidth 64)).finish := by
  have hover : s.params.symCap < s.symCount := h
  rw [exec, execHuffEnc, if_pos hover, raiseError_eq]

theorem exec_huffEnc_of_overflow {s : State} (hsym : s.symCount.toNat ≤ s.params.symCap.toNat)
    (hbits : s.params.bitCap.toNat < bytesFor (inputBits s)) :
    exec .huffEnc s = .next (s.record .bitCap (BitVec.ofNat 64 (inputBits s))).finish := by
  rw [exec, execHuffEnc, if_neg (not_capLt hsym)]
  exact if_pos hbits

theorem exec_huffEnc_of_fits {s : State} (hsym : s.symCount.toNat ≤ s.params.symCap.toNat)
    (hbits : bytesFor (inputBits s) ≤ s.params.bitCap.toNat) : exec .huffEnc s = .next (encodedState s).finish := by
  rw [exec, execHuffEnc, if_neg (not_capLt hsym)]
  exact if_neg (Nat.not_lt.mpr hbits)

/-- A stream that fits BITS has fewer than 2^35 bits, so BIT_COUNT and BIT_LEN hold its counts. -/
theorem encodedState_counts {s : State} (hbits : bytesFor (inputBits s) ≤ s.params.bitCap.toNat) :
    (encodedState s).bitCount.toNat = inputBits s ∧ (encodedState s).bitLen.toNat = bytesFor (inputBits s) := by
  have hcap := s.params.bitCap.isLt
  have htotal := le_bytesFor (inputBits s)
  rw [encodedState, BitVec.toNat_ofNat, BitVec.toNat_ofNat, Nat.mod_eq_of_lt (by omega), Nat.mod_eq_of_lt (by omega)]
  exact ⟨rfl, rfl⟩

theorem streamBit_encodedState {s : State} (h : s.bits.wf) {i : Nat} (hi : i < 8 * bytesFor (inputBits s)) :
    streamBit (encodedState s).bits i = (codeStream (encoderTable (huffInput s)) (huffInput s)).getD i false :=
  streamBit_writeBytes_packStream h _ (by rwa [length_codeStream])

/-- The first T of them are the codes of the input. -/
theorem some_streamBit_encodedState {s : State} (h : s.bits.wf) {i : Nat} (hi : i < inputBits s) :
    some (streamBit (encodedState s).bits i) = (codeStream (encoderTable (huffInput s)) (huffInput s))[i]? := by
  have hin : i < (codeStream (encoderTable (huffInput s)) (huffInput s)).length := hi.trans_eq (length_codeStream _ _).symm
  rw [streamBit_encodedState h (hi.trans_le (le_bytesFor _)), List.getElem?_eq_getElem hin, List.getD_eq_getElem _ _ hin]

/-- With 45 bits for each symbol of the input the stream fits BITS (44_huffman R168, R171). -/
theorem inputBits_fit {s : State} (h : 45 * s.symCount.toNat ≤ 8 * s.params.bitCap.toNat) :
    bytesFor (inputBits s) ≤ s.params.bitCap.toNat := by
  have hsum : inputBits s ≤ ((huffInput s).map fun b => (at8 (encoderTable (huffInput s)) b).len.toNat).length • 45 :=
    List.sum_le_card_nsmul _ _ (List.forall_mem_map.mpr fun b _ => encoderTable_len_le (length_huffInput_lt s) b)
  rw [List.length_map, length_huffInput, smul_eq_mul] at hsum
  rw [bytesFor]
  omega

/-- Settles O27: the next state is `encodedState`, whose table holds the codes and whose BITS hold the packed stream. -/
theorem huffEncWritesTableAndStream : Obligations.HuffEncWritesTableAndStream := by
  intro s hwf hsym hfit
  obtain ⟨hcount, hlen⟩ := encodedState_counts hfit
  have hstream := length_codeStream (encoderTable (huffInput s)) (huffInput s)
  refine ⟨_, exec_huffEnc_of_fits hsym hfit, rfl, fun b hb => exists_code_iff.mpr hb, fun b p hp => ?_, hcount, ?_, fun i hi => ?_,
    fun i hi hpad => ?_, fun a ha => ?_, fun b hb => at8_encoderTable_of_absent hb, rfl⟩
  · obtain ⟨hplen, hpat, -⟩ := encoderTable_entry (length_huffInput_lt s) hp
    refine ⟨hplen, fun i hi => ?_⟩
    rw [List.getElem?_eq_getElem hi, ← testBit_bitsValue_reverse hi, ← hpat, BitVec.testBit_toNat]
    rfl
  · exact hlen.trans (congrArg bytesFor hcount.symm)
  · exact some_streamBit_encodedState hwf (hcount ▸ hi)
  · have hi : inputBits s ≤ i := hcount ▸ hi
    rw [State.finish_bits, streamBit_encodedState hwf (hlen ▸ hpad), List.getD_eq_default _ _ (hstream ▸ hi)]
  · have ha : bytesFor (inputBits s) ≤ a := hlen ▸ ha
    rw [State.finish_bits, encodedState, Memory.read_writeBytes hwf, if_neg]
    rw [length_packStream, hstream]
    exact fun h => absurd (h.2.trans_eq (Nat.zero_add _)) (Nat.not_lt.mpr ha)

/-- An input of one repeated symbol has the one code 0 (44_huffman R165): its tree has no room for two leaves. -/
theorem symbolCodes_of_repeated {input : List Byte} {b : Byte} (hne : input ≠ []) (h : ∀ d ∈ input, d = b) :
    symbolCodes input = [(b, [false])] := by
  obtain ⟨t, hcodes, hsymbols, -⟩ := exists_codeTree hne
  have hb : ∀ d ∈ treeSymbols t, d = b := fun d hd => h d (mem_presentSymbols.mp (hsymbols.mem_iff.mp hd))
  have hnodup := hsymbols.nodup_iff.mpr (nodup_presentSymbols input)
  cases t with
  | leaf s => rw [hcodes, treeCodes, hb s (by simp)]
  | node t0 t1 =>
    rw [treeSymbols_node] at hb hnodup
    obtain ⟨c, hc⟩ := List.exists_mem_of_ne_nil _ (treeSymbols_ne_nil t0)
    obtain ⟨d, hd⟩ := List.exists_mem_of_ne_nil _ (treeSymbols_ne_nil t1)
    have hcd : c = d := (hb c (by simp [hc])).trans (hb d (by simp [hd])).symm
    exact absurd hcd ((List.nodup_append.mp hnodup).2.2 c hc d hd)

theorem encoderTable_nil : encoderTable [] = Vector.replicate 256 { len := 0, pattern := 0 } :=
  Vector.ext fun k hk => by simp [encoderTable, symbolCodes_nil, codeTable, entryOfSymbol]

/-- Settles O28: the empty input has no codes; a repeated symbol has the one-bit code of `symbolCodes_of_repeated`. -/
theorem huffEncDegenerateInputs : Obligations.HuffEncDegenerateInputs := by
  refine fun s => ⟨fun hzero => ?_, fun b hpos hsym hfit hall => ?_⟩
  · have hinput : huffInput s = [] := List.eq_nil_of_length_eq_zero (by rw [length_huffInput, hzero]; rfl)
    have hnone : inputBits s = 0 := by rw [inputBits, hinput]; rfl
    rw [exec_huffEnc_of_fits (by simp [hzero]) (by simp [hnone, bytesFor]), encodedState, hnone, hinput, encoderTable_nil]
    rfl
  · have hlen := length_huffInput s
    have hmem : ∀ d ∈ huffInput s, d = b := by
      intro d hd
      obtain ⟨i, hi, rfl⟩ := List.mem_iff_getElem.mp hd
      simpa [huffInput] using hall i (hlen ▸ hi)
    have hne : huffInput s ≠ [] := List.ne_nil_of_length_pos (hlen ▸ hpos)
    have hcode : (b, [false]) ∈ symbolCodes (huffInput s) := by simp [symbolCodes_of_repeated hne hmem]
    have hentry : at8 (encoderTable (huffInput s)) b = { len := 1, pattern := 0 } := at8_encoderTable hcode
    have hbits : inputBits s = s.symCount.toNat := by
      rw [inputBits, totalBits, List.map_congr_left fun d hd => by rw [hmem d hd, hentry]]
      simp
    have hfits : bytesFor (inputBits s) ≤ s.params.bitCap.toNat := hbits ▸ hfit
    exact ⟨_, exec_huffEnc_of_fits hsym hfits, hentry, fun d hd => at8_encoderTable_of_absent fun hin => hd (hmem d hin),
      (encodedState_counts hfits).1.trans hbits⟩

/-- Settles O29: each check that fails ends the command, and a code of at most 45 bits for each symbol passes both. -/
theorem huffEncCapacityErrors : Obligations.HuffEncCapacityErrors := by
  refine fun s => ⟨fun h => exec_huffEnc_of_symCount h, ?_, fun hsym h45 => ⟨_, exec_huffEnc_of_fits hsym (inputBits_fit h45), rfl⟩⟩
  rintro hsym _ rfl hbits
  exact exec_huffEnc_of_overflow hsym hbits

/-! The decoder's table: the lowest match, the lowest malformed entry and the longest LEN (44_huffman R176 to R178). -/

theorem find?_allBytes_eq_some_iff {f : Byte → Bool} {b : Byte} :
    allBytes.find? f = some b ↔ f b = true ∧ ∀ d < b, f d = false := by
  have hval (d : Byte) : ∃ h : d.toNat < allBytes.length, allBytes[d.toNat] = d :=
    ⟨by rw [length_allBytes]; exact d.isLt, by rw [getElem_allBytes, BitVec.ofNat_toNat, BitVec.setWidth_eq]⟩
  rw [List.find?_eq_some_iff_getElem]
  refine and_congr_right fun _ => ⟨?_, fun hlow => ?_⟩
  · rintro ⟨i, hi, rfl, hlow⟩ d hd
    obtain ⟨hdl, hdv⟩ := hval d
    have := hlow d.toNat ((getElem_allBytes_lt hdl hi).mp (hdv.symm ▸ hd))
    simpa [hdv] using this
  · obtain ⟨hbl, hbv⟩ := hval b
    refine ⟨b.toNat, hbl, hbv, fun j hj => ?_⟩
    have hlt := (getElem_allBytes_lt (hj.trans hbl) hbl).mpr hj
    rw [hbv] at hlt
    simp [hlow _ hlt]

theorem matchCode_eq_some_iff {t : Vector HtEntry 256} {plen pat : Nat} {b : Byte} :
    matchCode t plen pat = some b ↔ IsLowestMatch t plen pat b := by
  simp [matchCode, find?_allBytes_eq_some_iff, IsLowestMatch, and_assoc]

theorem matchCode_eq_none_iff {t : Vector HtEntry 256} {plen pat : Nat} :
    matchCode t plen pat = none ↔ ∀ b : Byte, ¬ ((at8 t b).len.toNat = plen ∧ (at8 t b).pattern.toNat = pat) := by
  simp [matchCode, mem_allBytes]

theorem firstMalformed_eq_some {t : Vector HtEntry 256} {b : Byte} (hb : entryWellFormed (at8 t b) = false)
    (hlow : ∀ d < b, entryWellFormed (at8 t d) = true) : firstMalformed t = some b :=
  find?_allBytes_eq_some_iff.mpr ⟨by simp [hb], fun d hd => by simp [hlow d hd]⟩

theorem firstMalformed_eq_none {t : Vector HtEntry 256} (h : ∀ b, entryWellFormed (at8 t b) = true) : firstMalformed t = none :=
  List.find?_eq_none.mpr fun b _ => by simp [h b]

theorem max?_map_len (t : Vector HtEntry 256) : (allBytes.map fun b => (at8 t b).len.toNat).max? = some (maxLen t) := by
  obtain ⟨m, hm⟩ := Option.isSome_iff_exists.mp
    (List.isSome_max?_of_mem (List.mem_map_of_mem (f := fun b => (at8 t b).len.toNat) (mem_allBytes 0)))
  have hfold : maxLen t = (allBytes.map fun b => (at8 t b).len.toNat).foldl max 0 := List.foldl_map.symm
  rw [hfold, List.foldl_max, hm, Option.getD_some, Nat.zero_max]

theorem len_le_maxLen (t : Vector HtEntry 256) (b : Byte) : (at8 t b).len.toNat ≤ maxLen t :=
  (List.max?_eq_some_iff.mp (max?_map_len t)).2 _ (List.mem_map_of_mem (mem_allBytes b))

theorem exists_len_eq_maxLen (t : Vector HtEntry 256) : ∃ b : Byte, (at8 t b).len.toNat = maxLen t := by
  obtain ⟨b, -, hb⟩ := List.mem_map.mp (List.max?_mem (max?_map_len t))
  exact ⟨b, hb⟩

/-! One turn of the decoder, and the turns of its loop (44_huffman R177, R179). -/

section Walk

variable {t : Vector HtEntry 256} {stream : Nat → Bool} {symCap longest : Nat} {bit : Bool} {k : Walk}

theorem walkBit_noMatch (hm : matchCode t (k.plen + 1) (2 * k.pat + bit.toNat) = none) (hl : longest ≤ k.plen + 1) :
    walkBit t symCap longest bit k = .error (.noMatch, BitVec.ofNat 64 (k.pos + 1)) := by simp only [walkBit, hm, if_pos hl]

theorem walkBit_goesOn (hm : matchCode t (k.plen + 1) (2 * k.pat + bit.toNat) = none) (hl : k.plen + 1 < longest) :
    walkBit t symCap longest bit k = .ok ⟨k.out, k.plen + 1, 2 * k.pat + bit.toNat, k.pos + 1⟩ := by
  simp only [walkBit, hm, if_neg (Nat.not_le.mpr hl)]

theorem walkBit_symCap {b : Byte} (hm : matchCode t (k.plen + 1) (2 * k.pat + bit.toNat) = some b) (hfull : k.out.length = symCap) :
    walkBit t symCap longest bit k = .error (.symCap, BitVec.ofNat 64 (k.pos + 1)) := by simp only [walkBit, hm, if_pos hfull]

theorem walkBit_putsOut {b : Byte} (hm : matchCode t (k.plen + 1) (2 * k.pat + bit.toNat) = some b) (hroom : k.out.length ≠ symCap) :
    walkBit t symCap longest bit k = .ok ⟨b :: k.out, 0, 0, k.pos + 1⟩ := by simp only [walkBit, hm, if_neg hroom]

/-- Turns after turns that went on. -/
theorem walkStream_add {m : Nat} {k' : Walk} (h : walkStream t stream symCap longest m k = .ok k') (n : Nat) :
    walkStream t stream symCap longest (m + n) k = walkStream t stream symCap longest n k' := by
  induction n with
  | zero => exact h
  | succ n ih => rw [← Nat.add_assoc, walkStream_succ, walkStream_succ, ih]

end Walk

/-! HUFF_DEC's checks (44_huffman R174 to R176), and its ends after them. -/

theorem exec_huffDec_of_bitLen {s : State} (h : s.params.bitCap.toNat < s.bitLen.toNat) :
    exec .huffDec s = .next (s.record .bitLen (s.bitLen.setWidth 64)).finish := by
  have hlen : s.params.bitCap < s.bitLen := h
  rw [exec, execHuffDec, if_pos hlen, raiseError_eq]

theorem exec_huffDec_of_trunc {s : State} (hlen : s.bitLen.toNat ≤ s.params.bitCap.toNat) (h : 8 * s.bitLen.toNat < s.bitCount.toNat) :
    exec .huffDec s = .next (s.record .trunc s.bitCount).finish := by
  rw [exec, execHuffDec, if_neg (not_capLt hlen), if_pos h, raiseError_eq]

theorem exec_huffDec_of_malformed {s : State} {b : Byte} (hlen : s.bitLen.toNat ≤ s.params.bitCap.toNat)
    (hcount : s.bitCount.toNat ≤ 8 * s.bitLen.toNat) (h : firstMalformed s.ht = some b) :
    exec .huffDec s = .next (s.record .table (b.setWidth 64)).finish := by
  rw [exec, execHuffDec, if_neg (not_capLt hlen), if_neg (Nat.not_lt.mpr hcount), h]
  rfl

/-- Settles O35: each check that fails ends the command with its record. -/
theorem huffDecChecksInOrder : Obligations.HuffDecChecksInOrder := by
  refine fun s => ⟨exec_huffDec_of_bitLen, exec_huffDec_of_trunc, fun hlen hcount b hb hlow => ?_⟩
  refine exec_huffDec_of_malformed hlen hcount (firstMalformed_eq_some ?_ fun d hd => (entryWellFormed_iff _).mpr (hlow d hd))
  rwa [← entryWellFormed_iff, Bool.not_eq_true] at hb

/-- What the decoder's walk ends with, once the checks have passed. -/
def walkResult (s : State) : Except (ErrorCode × Word) (List Byte) :=
  decodeStream s.ht (streamBit s.bits) s.params.symCap.toNat s.bitCount.toNat

/-- What HUFF_DEC writes after a walk with no error (44_huffman R177). -/
def decodedState (s : State) (out : List Byte) : State :=
  { s with sym := s.sym.writeBytes 0 out, symCount := BitVec.ofNat 32 out.length }

theorem checksPass_firstMalformed {s : State} (h : s.DecodeChecksPass) : firstMalformed s.ht = none :=
  firstMalformed_eq_none fun b => (entryWellFormed_iff _).mpr (h.table_ok b)

theorem exec_huffDec_of_error {s : State} (h : s.DecodeChecksPass) {c : ErrorCode} {info : Word} (hres : walkResult s = .error (c, info)) :
    exec .huffDec s = .next (s.record c info).finish := by
  rw [walkResult] at hres
  rw [exec, execHuffDec, if_neg (not_capLt h.length_ok), if_neg (Nat.not_lt.mpr h.count_ok), checksPass_firstMalformed h, hres]
  rfl

theorem exec_huffDec_of_ok {s : State} (h : s.DecodeChecksPass) {out : List Byte} (hres : walkResult s = .ok out) :
    exec .huffDec s = .next (decodedState s out).finish := by
  rw [walkResult] at hres
  rw [exec, execHuffDec, if_neg (not_capLt h.length_ok), if_neg (Nat.not_lt.mpr h.count_ok), checksPass_firstMalformed h, hres]
  rfl

/-- A command that raises an error adds to the ghost log. -/
theorem errorLog_of_raiseError {s t : State} {c : ErrorCode} {info : Word} (h : raiseError s c info = .next t) : t.errorLog ≠ s.errorLog := by
  rw [raiseError_eq, Host.Outcome.next.injEq] at h
  simp [← h]

/-- HUFF_DEC records no error only if its walk ends with none. -/
theorem walkResult_of_no_error {s t : State} (hexec : exec .huffDec s = .next t) (hlog : t.errorLog = s.errorLog) :
    ∃ out, walkResult s = .ok out ∧ t = (decodedState s out).finish := by
  rw [exec, execHuffDec] at hexec
  split at hexec
  · exact absurd hlog (errorLog_of_raiseError hexec)
  · split at hexec
    · exact absurd hlog (errorLog_of_raiseError hexec)
    · split at hexec
      · exact absurd hlog (errorLog_of_raiseError hexec)
      · split at hexec
        · exact absurd hlog (errorLog_of_raiseError hexec)
        · rename_i out hout
          rw [succeed_eq, Host.Outcome.next.injEq] at hexec
          exact ⟨out, hout, hexec.symm⟩

/-- SYM_COUNT holds a number of symbols within SYM_CAP. -/
theorem symCount_decodedState {s : State} {out : List Byte} (h : out.length ≤ s.params.symCap.toNat) :
    (decodedState s out).symCount.toNat = out.length := by
  have hcap := s.params.symCap.isLt
  rw [decodedState, BitVec.toNat_ofNat, Nat.mod_eq_of_lt (by omega)]

/-! The ends of the walk (44_huffman R177, R179). -/

/-- Where the walk begins. -/
def walkStart : Walk := { out := [], plen := 0, pat := 0, pos := 0 }

theorem decodeStream_of_walk {t : Vector HtEntry 256} {stream : Nat → Bool} {symCap n : Nat} {k : Walk}
    (h : walkStream t stream symCap (maxLen t) n walkStart = .ok k) : decodeStream t stream symCap n
      = if k.plen = 0 then .ok k.out.reverse else .error (.partialCode, BitVec.ofNat 64 (k.pos - k.plen)) := by
  rw [walkStart] at h
  rw [decodeStream, h]

theorem pos_of_standsAt {s : State} {n : Nat} {k : Walk} (h : s.DecoderStandsAt n k) : k.pos = n :=
  (walkStream_pos h).trans (Nat.zero_add n)

theorem standsAt_succ {s : State} {n : Nat} {k k' : Walk} (h : s.DecoderStandsAt n k)
    (hbit : walkBit s.ht s.params.symCap.toNat (maxLen s.ht) (streamBit s.bits n) k = .ok k') : s.DecoderStandsAt (n + 1) k' := by
  rw [State.DecoderStandsAt, walkStream_succ, h, ← hbit]
  simp only [pos_of_standsAt h]

/-- An error at one turn is the walk's result. -/
theorem walkResult_of_walkBit_error {s : State} {n : Nat} {k : Walk} {e : ErrorCode × Word} (hn : n < s.bitCount.toNat)
    (h : s.DecoderStandsAt n k) (hbit : walkBit s.ht s.params.symCap.toNat (maxLen s.ht) (streamBit s.bits n) k = .error e) :
    walkResult s = .error e := by
  have hturn : walkStream s.ht (streamBit s.bits) s.params.symCap.toNat (maxLen s.ht) (n + 1) walkStart = .error e := by
    rw [walkStream_succ, walkStart, h, ← hbit]
    simp only [pos_of_standsAt h]
  have hall := walkStream_error hturn (s.bitCount.toNat - (n + 1))
  rw [Nat.add_sub_cancel' hn, walkStart] at hall
  rw [walkResult, decodeStream, hall]

theorem exec_huffDec_of_walkBit_error {s : State} (hpass : s.DecodeChecksPass) {n : Nat} {k : Walk} (hn : n < s.bitCount.toNat)
    (h : s.DecoderStandsAt n k) {c : ErrorCode}
    (hbit : walkBit s.ht s.params.symCap.toNat (maxLen s.ht) (streamBit s.bits n) k = .error (c, BitVec.ofNat 64 (k.pos + 1))) :
    exec .huffDec s = .next (s.record c (BitVec.ofNat 64 (n + 1))).finish :=
  exec_huffDec_of_error hpass (pos_of_standsAt h ▸ walkResult_of_walkBit_error hn h hbit)

/-- The end of the walk after BIT_COUNT bits. -/
theorem exec_huffDec_of_walked {s : State} (hpass : s.DecodeChecksPass) {k : Walk} (h : s.DecoderStandsAt s.bitCount.toNat k) :
    (k.plen ≠ 0 → exec .huffDec s = .next (s.record .partialCode (BitVec.ofNat 64 (s.bitCount.toNat - k.plen))).finish)
    ∧ (k.plen = 0 → exec .huffDec s = .next (decodedState s k.out.reverse).finish) := by
  have hres : walkResult s = _ := decodeStream_of_walk h
  refine ⟨fun hk => exec_huffDec_of_error hpass ?_, fun hk => exec_huffDec_of_ok hpass (hres.trans (if_pos hk))⟩
  rw [hres, if_neg hk, pos_of_standsAt h]

/-- Settles O36: a turn is one of the four cases of `walkBit`, and after the last bit the walk's end is HUFF_DEC's. -/
theorem decoderWalkMatchesAndStops : Obligations.DecoderWalkMatchesAndStops := by
  refine ⟨fun t plen pat => ⟨fun b => matchCode_eq_some_iff, matchCode_eq_none_iff⟩,
    fun t symCap longest bit k => ⟨walkBit_noMatch, fun d => walkBit_symCap⟩,
    fun t stream symCap n k h hk => (decodeStream_of_walk h).trans (if_neg hk),
    fun t => ⟨len_le_maxLen t, exists_len_eq_maxLen t⟩, fun s hpass => ⟨rfl, fun n k hn h => ?_, fun k h => ?_⟩⟩
  · obtain rfl := pos_of_standsAt h
    rintro _ _ rfl rfl
    refine ⟨fun hnone hlong => ?_, fun hnone hlong => ?_, fun b hb hfull => ?_, fun b hb hroom => ?_⟩
    · obtain ⟨b, hb⟩ := exists_len_eq_maxLen s.ht
      exact exec_huffDec_of_walkBit_error hpass hn h (walkBit_noMatch (matchCode_eq_none_iff.mpr hnone) (hb ▸ hlong b))
    · obtain ⟨b, hb⟩ := hlong
      exact standsAt_succ h (walkBit_goesOn (matchCode_eq_none_iff.mpr hnone) (hb.trans_le (len_le_maxLen s.ht b)))
    · exact exec_huffDec_of_walkBit_error hpass hn h (walkBit_symCap (matchCode_eq_some_iff.mpr hb) hfull)
    · exact standsAt_succ h (walkBit_putsOut (matchCode_eq_some_iff.mpr hb) hroom)
  · obtain ⟨hpartial, hdone⟩ := exec_huffDec_of_walked hpass h
    refine ⟨hpartial, fun hk => ⟨_, hdone hk, rfl, ?_⟩⟩
    have hout : k.out.reverse.length ≤ s.params.symCap.toNat := by
      rw [List.length_reverse]
      exact walkStream_out_le (Nat.zero_le _) h
    exact (symCount_decodedState hout).trans List.length_reverse

/-! What the walk has read (44_huffman R177, R178). -/

/-- From position `pos` on, the stream reads `bits`. -/
def ReadsAt (stream : Nat → Bool) (pos : Nat) (bits : List Bool) : Prop := (List.range' pos bits.length).map stream = bits

theorem readsAt_cons {stream : Nat → Bool} {pos : Nat} {bit : Bool} {bits : List Bool} :
    ReadsAt stream pos (bit :: bits) ↔ stream pos = bit ∧ ReadsAt stream (pos + 1) bits := by simp [ReadsAt, List.range'_succ]

theorem readsAt_append {stream : Nat → Bool} {pos : Nat} {bits more : List Bool} :
    ReadsAt stream pos (bits ++ more) ↔ ReadsAt stream pos bits ∧ ReadsAt stream (pos + bits.length) more := by
  induction bits generalizing pos with
  | nil => simp [ReadsAt]
  | cons bit bits ih =>
    rw [List.cons_append, readsAt_cons, readsAt_cons, ih, and_assoc, List.length_cons, Nat.add_assoc, Nat.add_comm 1]

theorem readsAt_zero_iff {stream : Nat → Bool} {bits : List Bool} :
    ReadsAt stream 0 bits ↔ ∀ i, i < bits.length → some (stream i) = bits[i]? := by
  rw [ReadsAt, List.ext_getElem_iff]
  simp only [List.length_map, List.length_range', List.getElem_map, List.getElem_range', true_and, Nat.zero_add, Nat.one_mul]
  refine forall_congr' fun i => ⟨fun h hi => ?_, fun h hi _ => ?_⟩
  · rw [List.getElem?_eq_getElem hi, h hi hi]
  · rw [← Option.some_inj, h hi, List.getElem?_eq_getElem hi]

/-- The codes of a sequence of symbols, with no separator (44_huffman R167). -/
theorem codeStream_cons (t : Vector HtEntry 256) (b : Byte) (out : List Byte) :
    codeStream t (b :: out) = codeBits (at8 t b) ++ codeStream t out := rfl

theorem codeStream_concat (t : Vector HtEntry 256) (out : List Byte) (b : Byte) :
    codeStream t (out ++ [b]) = codeStream t out ++ codeBits (at8 t b) := by
  simp [codeStream]

/-- The walk at `k` has read `bits`: the codes of the symbols put out, and then the bits of a code in progress. -/
def HasRead (t : Vector HtEntry 256) (k : Walk) (bits : List Bool) : Prop :=
  ∃ pre, bits = codeStream t k.out.reverse ++ pre ∧ pre.length = k.plen ∧ bitsValue pre = k.pat

theorem hasRead_walkStart (t : Vector HtEntry 256) : HasRead t walkStart [] := ⟨[], rfl, rfl, rfl⟩

theorem hasRead_walkBit {t : Vector HtEntry 256} {symCap longest : Nat} {bit : Bool} {k k' : Walk} {bits : List Bool} (h : HasRead t k bits)
    (hbit : walkBit t symCap longest bit k = .ok k') : HasRead t k' (bits ++ [bit]) := by
  obtain ⟨pre, rfl, hlen, hpat⟩ := h
  have hlen' : (pre ++ [bit]).length = k.plen + 1 := by simp [hlen]
  have hpat' : bitsValue (pre ++ [bit]) = 2 * k.pat + bit.toNat := by rw [bitsValue_concat, hpat]
  obtain ⟨b, hm, -, rfl⟩ | ⟨-, -, rfl⟩ := walkBit_ok hbit
  · obtain ⟨hl, hp, -⟩ := matchCode_eq_some_iff.mp hm
    have hcode : codeBits (at8 t b) = pre ++ [bit] := codeBits_of_match (hl.trans hlen'.symm) (hp.trans hpat'.symm)
    exact ⟨[], by simp [codeStream_concat, hcode], rfl, rfl⟩
  · exact ⟨pre ++ [bit], by simp, hlen', hpat'⟩

theorem hasRead_walkStream {t : Vector HtEntry 256} {stream : Nat → Bool} {symCap longest n : Nat} {k k' : Walk} {bits : List Bool}
    (h : HasRead t k bits) (hwalk : walkStream t stream symCap longest n k = .ok k') :
    ∃ more, more.length = n ∧ ReadsAt stream k.pos more ∧ HasRead t k' (bits ++ more) := by
  induction n generalizing k bits with
  | zero =>
    cases hwalk
    exact ⟨[], rfl, rfl, by simpa using h⟩
  | succ n ih =>
    rw [walkStream] at hwalk
    split at hwalk
    · cases hwalk
    · rename_i k1 hbit
      obtain ⟨more, hlen, hreads, hread⟩ := ih (hasRead_walkBit h hbit) hwalk
      have hpos : k1.pos = k.pos + 1 := walkStream_pos (n := 1) (by rw [walkStream, hbit]; rfl)
      exact ⟨_ :: more, by simp [hlen], readsAt_cons.mpr ⟨rfl, hpos ▸ hreads⟩, by simpa using hread⟩

/-- A walk with no error has read exactly the codes of its output. -/
theorem codeStream_of_walkResult {s : State} {out : List Byte} (h : walkResult s = .ok out) :
    (codeStream s.ht out).length = s.bitCount.toNat ∧ ReadsAt (streamBit s.bits) 0 (codeStream s.ht out) := by
  rw [walkResult, decodeStream] at h
  split at h
  · cases h
  · rename_i k hwalk
    split at h
    · rename_i hplen
      cases h
      obtain ⟨more, hlen, hreads, pre, hmore, hpre, -⟩ := hasRead_walkStream (hasRead_walkStart s.ht) hwalk
      obtain rfl := List.eq_nil_of_length_eq_zero (hpre.trans hplen)
      rw [List.nil_append, List.append_nil] at hmore
      subst hmore
      exact ⟨hlen, hreads⟩
    · cases h

theorem readBytes_writeBytes {m : Memory} (h : m.wf) (bs : List Byte) : (m.writeBytes 0 bs).readBytes 0 bs.length = bs :=
  List.ext_getElem (by simp) fun i hi _ => by
    rw [Memory.length_readBytes] at hi
    rw [Memory.getElem_readBytes, Memory.read_writeBytes h]
    simp [hi]

/-- Settles O34: a walk with no error has read the codes of its output, which HUFF_DEC writes to SYM. -/
theorem huffDecOutputExplainsStream : Obligations.HuffDecOutputExplainsStream := by
  intro s t hwf hexec hlog
  obtain ⟨out, hres, rfl⟩ := walkResult_of_no_error hexec hlog
  have hout : out.length ≤ s.params.symCap.toNat := length_le_of_decodeStream hres
  have hcount : (decodedState s out).finish.symCount.toNat = out.length := symCount_decodedState hout
  obtain ⟨hlen, hreads⟩ := codeStream_of_walkResult hres
  have hbytes : (decodedState s out).finish.sym.readBytes 0 out.length = out := readBytes_writeBytes hwf out
  rw [hcount, hbytes]
  exact ⟨hout, hlen, hlen ▸ readsAt_zero_iff.mp hreads⟩

/-! Decoding a sequence of codes (44_huffman R177, R178). -/

/-- A table that HUFF_DEC's check accepts and in which no code starts another one. -/
structure PrefixFreeTable (t : Vector HtEntry 256) : Prop where
  wellFormed : ∀ b : Byte, entryWellFormed (at8 t b) = true
  prefixFree : ∀ b d : Byte, b ≠ d → 0 < (at8 t b).len.toNat → 0 < (at8 t d).len.toNat →
    ¬ (codeBits (at8 t b)).IsPrefix (codeBits (at8 t d))

section Decode

variable {t : Vector HtEntry 256} {stream : Nat → Bool} {symCap : Nat}

/-- Inside the code of `b` nothing matches, and at its end `b` does. -/
theorem matchCode_inside_code (ht : PrefixFreeTable t) {b : Byte} {pre rest : List Bool}
    (hcode : codeBits (at8 t b) = pre ++ rest) (hpre : pre ≠ []) :
    matchCode t pre.length (bitsValue pre) = if rest = [] then some b else none := by
  have hlen : (at8 t b).len.toNat = pre.length + rest.length := by rw [← length_codeBits, hcode, List.length_append]
  have hpos := List.length_pos_iff.mpr hpre
  have honly : ∀ d : Byte, (at8 t d).len.toNat = pre.length → (at8 t d).pattern.toNat = bitsValue pre → d = b := fun d hl hp => by
    by_contra hne
    refine ht.prefixFree d b hne (by omega) (by omega) ?_
    rw [codeBits_of_match hl hp, hcode]
    exact List.prefix_append pre rest
  split
  · rename_i hrest
    subst hrest
    rw [List.append_nil] at hcode
    refine matchCode_eq_some_iff.mpr ⟨hlen, ?_, fun d hd hmatch => BitVec.ne_of_lt hd (honly d hmatch.1 hmatch.2)⟩
    rw [← hcode, bitsValue_codeBits ((entryWellFormed_iff _).mp (ht.wellFormed b)).2]
  · rename_i hrest
    refine matchCode_eq_none_iff.mpr fun d hmatch => ?_
    obtain rfl := honly d hmatch.1 hmatch.2
    have := List.length_pos_iff.mpr hrest
    omega

/-- From inside the code of `b` the walk reads the rest of it and puts `b` out. -/
theorem walkStream_code (ht : PrefixFreeTable t) {b : Byte} {pre rest : List Bool} {k : Walk} (hcode : codeBits (at8 t b) = pre ++ rest)
    (hrest : rest ≠ []) (hplen : k.plen = pre.length) (hpat : k.pat = bitsValue pre) (hroom : k.out.length < symCap)
    (hreads : ReadsAt stream k.pos rest) :
    walkStream t stream symCap (maxLen t) rest.length k = .ok ⟨b :: k.out, 0, 0, k.pos + rest.length⟩ := by
  induction rest generalizing pre k with
  | nil => exact absurd rfl hrest
  | cons bit rest ih =>
    obtain ⟨hbit, hreads⟩ := readsAt_cons.mp hreads
    have hcode' : codeBits (at8 t b) = (pre ++ [bit]) ++ rest := by simpa using hcode
    have hmatch := matchCode_inside_code ht hcode' (by simp)
    rw [List.length_append, List.length_singleton, ← hplen, bitsValue_concat, ← hpat] at hmatch
    rw [List.length_cons, walkStream, hbit]
    by_cases hend : rest = []
    · rw [if_pos hend] at hmatch
      rw [walkBit_putsOut hmatch (Nat.ne_of_lt hroom), hend]
      rfl
    · rw [if_neg hend] at hmatch
      have hlong : k.plen + 1 < maxLen t := by
        have hle := len_le_maxLen t b
        have hpos := List.length_pos_iff.mpr hend
        rw [← length_codeBits, hcode, List.length_append, List.length_cons] at hle
        omega
      rw [walkBit_goesOn hmatch hlong]
      have hon := ih (k := ⟨k.out, k.plen + 1, 2 * k.pat + bit.toNat, k.pos + 1⟩) hcode' hend (by simp [hplen])
        (by rw [bitsValue_concat, hpat]) hroom hreads
      refine hon.trans ?_
      rw [Nat.add_assoc, Nat.add_comm 1]

/-- The walk decodes the codes of a sequence of symbols to that sequence. -/
theorem walkStream_codeStream (ht : PrefixFreeTable t) {out : List Byte} (hcoded : ∀ b ∈ out, 0 < (at8 t b).len.toNat)
    {before : List Byte} {pos : Nat} (hroom : before.length + out.length ≤ symCap) (hreads : ReadsAt stream pos (codeStream t out)) :
    walkStream t stream symCap (maxLen t) (codeStream t out).length ⟨before, 0, 0, pos⟩
      = .ok ⟨out.reverse ++ before, 0, 0, pos + (codeStream t out).length⟩ := by
  induction out generalizing before pos with
  | nil => rfl
  | cons b out ih =>
    obtain ⟨hb, hcoded⟩ := List.forall_mem_cons.mp hcoded
    rw [codeStream_cons, readsAt_append] at hreads
    rw [List.length_cons] at hroom
    have hfirst := walkStream_code ht (pre := []) (rest := codeBits (at8 t b)) (k := ⟨before, 0, 0, pos⟩) rfl
      (List.ne_nil_of_length_pos (by rwa [length_codeBits])) rfl rfl (Nat.lt_of_lt_of_le (Nat.lt_add_of_pos_right (Nat.succ_pos _)) hroom) hreads.1
    rw [codeStream_cons, List.length_append, walkStream_add hfirst,
      ih hcoded (before := b :: before) (by rw [List.length_cons]; omega) hreads.2]
    simp [Nat.add_assoc]

end Decode

/-- HUFF_DEC on the codes of a sequence of symbols. -/
theorem exec_huffDec_of_codeStream {s : State} {out : List Byte} (hlen : s.bitLen.toNat ≤ s.params.bitCap.toNat)
    (hcount : s.bitCount.toNat ≤ 8 * s.bitLen.toNat) (ht : PrefixFreeTable s.ht) (hroom : out.length ≤ s.params.symCap.toNat)
    (hcoded : ∀ b ∈ out, 0 < (at8 s.ht b).len.toNat) (hbits : s.bitCount.toNat = (codeStream s.ht out).length)
    (hreads : ReadsAt (streamBit s.bits) 0 (codeStream s.ht out)) : exec .huffDec s = .next (decodedState s out).finish := by
  have hwalk := walkStream_codeStream ht hcoded (symCap := s.params.symCap.toNat) (before := []) (by rwa [List.length_nil, Nat.zero_add]) hreads
  rw [← hbits, List.append_nil] at hwalk
  refine exec_huffDec_of_ok ⟨hlen, hcount, fun b => (entryWellFormed_iff _).mp (ht.wellFormed b)⟩ ?_
  rw [walkResult, decodeStream_of_walk hwalk, if_pos rfl, List.reverse_reverse]

/-- Settles O33: the walk of `walkStream_codeStream`, and the bytes written to SYM. -/
theorem huffDecReadsCodeSequence : Obligations.HuffDecReadsCodeSequence := by
  intro s out hwf hlen hcount hwell hfree hroom hcoded hbits hreads
  refine ⟨_, exec_huffDec_of_codeStream hlen hcount ⟨hwell, hfree⟩ hroom hcoded hbits (readsAt_zero_iff.mpr (hbits ▸ hreads)),
    symCount_decodedState hroom, fun a ha => ?_, fun a ha => ?_, rfl⟩
  · rw [State.finish_sym, decodedState, Memory.read_writeBytes hwf]
    simp [ha]
  · rw [State.finish_sym, decodedState, Memory.read_writeBytes hwf, if_neg (by omega)]

/-! The round trip (44_huffman R180). -/

theorem writeBytes_readBytes {m : Memory} (h : m.wf) (n : Nat) : m.writeBytes 0 (m.readBytes 0 n) = m := by
  refine Memory.ext (Memory.wf_writeBytes h _ _) h fun a => ?_
  rw [Memory.read_writeBytes h, Memory.length_readBytes, Nat.zero_add]
  split
  · rename_i ha
    rw [Nat.sub_zero, List.getD_eq_getElem _ _ (by simpa using ha.2), Memory.getElem_readBytes, Nat.zero_add]
  · rfl

theorem prefixFreeTable_encoderTable {input : List Byte} (hn : input.length < 2 ^ 32) : PrefixFreeTable (encoderTable input) where
  wellFormed := encoderTable_wellFormed hn
  prefixFree _ _ hne hb hd :=
    encoderTable_prefixFree hn ((encoderTable_len_pos_iff hn _).mp hb) ((encoderTable_len_pos_iff hn _).mp hd) hne

/-- HUFF_DEC on what HUFF_ENC leaves puts the input out. -/
theorem exec_huffDec_encodedState {s : State} (hwf : s.bits.wf) (hsym : s.symCount.toNat ≤ s.params.symCap.toNat)
    (hfits : bytesFor (inputBits s) ≤ s.params.bitCap.toNat) :
    exec .huffDec (encodedState s).finish = .next (decodedState (encodedState s).finish (huffInput s)).finish := by
  have hn := length_huffInput_lt s
  obtain ⟨hcount, hlen⟩ := encodedState_counts hfits
  have hbits : (encodedState s).bitCount.toNat = (codeStream (encoderTable (huffInput s)) (huffInput s)).length :=
    hcount.trans (length_codeStream _ _).symm
  refine exec_huffDec_of_codeStream (hlen.trans_le hfits) ?_ (prefixFreeTable_encoderTable hn) ((length_huffInput s).trans_le hsym)
    (fun b hb => (encoderTable_len_pos_iff hn b).mpr hb) hbits
    (readsAt_zero_iff.mpr fun i hi => some_streamBit_encodedState hwf (hi.trans_eq (length_codeStream _ _)))
  rw [State.finish_bitCount, State.finish_bitLen, hcount, hlen]
  exact le_bytesFor _

/-- Settles O37: HUFF_ENC's stream fits BITS, HUFF_DEC puts the input out, and writing it over itself leaves SYM as it was. -/
theorem huffmanRoundTrip : Obligations.HuffmanRoundTrip := by
  intro s hsymwf hbitswf hsym h45
  have hfits := inputBits_fit h45
  have hroom : (huffInput s).length ≤ (encodedState s).finish.params.symCap.toNat := (length_huffInput s).trans_le hsym
  exact ⟨_, _, exec_huffEnc_of_fits hsym hfits, exec_huffDec_encodedState hbitswf hsym hfits, writeBytes_readBytes hsymwf _,
    BitVec.eq_of_toNat_eq ((symCount_decodedState hroom).trans (length_huffInput s)), rfl⟩

end Sys2Proof.Proofs
end

section
/-! SUPPORT. Proofs of 45_orchestration: NOP (R190), the level shifts (R192, R193), a run moved between QB and SYM (R194 to R196), and the constant
block (R202). -/

namespace Sys2Proof.Proofs

open Sys2Proof.Machine

/-! NOP and the level shifts. -/

theorem exec_nop (s : State) : exec .nop s = .next s.finish := by rw [exec, execNop, succeed_eq]

/-- Settles O38: the word 0 is NOP's, and NOP only finishes. -/
theorem nopOnlySetsDone : Obligations.NopOnlySetsDone := ⟨rfl, exec_nop⟩

theorem exec_lshiftDn (s : State) :
    exec .lshiftDn s = .next ({ s with blk := tab fun k => subF s.blk[k] f128 } : State).finish := by
  rw [exec, execLshiftDn, succeed_eq]

theorem exec_lshiftUp (s : State) :
    exec .lshiftUp s = .next ({ s with blk := tab fun k => addF s.blk[k] f128 } : State).finish := by
  rw [exec, execLshiftUp, succeed_eq]

/-- Settles O14: the new block is the table of the shifted elements. -/
theorem levelShiftsMoveEverySample : Obligations.LevelShiftsMoveEverySample := fun s =>
  ⟨⟨_, exec_lshiftDn s, fun k => getElem_tab _ k.val k.isLt, rfl⟩, ⟨_, exec_lshiftUp s, fun k => getElem_tab _ k.val k.isLt, rfl⟩⟩

/-! A run moved between QB and SYM. -/

theorem runInRange_iff (s : State) (r : Nat) : runInRange s r = true ↔ 64 * r + 64 ≤ s.params.symCap.toNat := decide_eq_true_iff

theorem not_runInRange {s : State} {r : Nat} (h : s.params.symCap.toNat < 64 * r + 64) : ¬ runInRange s r = true :=
  fun hin => h.not_ge ((runInRange_iff s r).mp hin)

theorem exec_runPut_of_inRange {s : State} {r : Nat} (h : 64 * r + 64 ≤ s.params.symCap.toNat) :
    exec (.runPut r) s = .next ({ s with sym := s.sym.writeBytes (64 * r) s.qb.toList } : State).finish := by
  rw [exec, execRunPut, if_pos ((runInRange_iff s r).mpr h), succeed_eq, runBase]

theorem exec_runPut_of_outOfRange {s : State} {r : Nat} (h : s.params.symCap.toNat < 64 * r + 64) :
    exec (.runPut r) s = .next (s.record .range (BitVec.ofNat 64 r)).finish := by
  rw [exec, execRunPut, if_neg (not_runInRange h), raiseError_eq]

theorem exec_runGet_of_inRange {s : State} {r : Nat} (h : 64 * r + 64 ≤ s.params.symCap.toNat) :
    exec (.runGet r) s = .next ({ s with qb := tab fun k => s.sym.read (64 * r + k.val) } : State).finish := by
  rw [exec, execRunGet, if_pos ((runInRange_iff s r).mpr h), succeed_eq, runBase]

theorem exec_runGet_of_outOfRange {s : State} {r : Nat} (h : s.params.symCap.toNat < 64 * r + 64) :
    exec (.runGet r) s = .next (s.record .range (BitVec.ofNat 64 r)).finish := by
  rw [exec, execRunGet, if_neg (not_runInRange h), raiseError_eq]

/-- The bytes of a buffer written to memory stand there at ascending addresses. -/
theorem read_writeBytes_toList {m : Memory} (h : m.wf) {n : Nat} (a : Nat) (v : Vector Byte n) (k : Fin n) :
    (m.writeBytes a v.toList).read (a + k.val) = v[k] := by
  have hin : a ≤ a + k.val ∧ a + k.val < a + v.toList.length := by simp
  rw [Memory.read_writeBytes h, if_pos hin]
  simp

theorem read_writeBytes_of_outside {m : Memory} (h : m.wf) {a b : Nat} {vs : List Byte} (hb : b < a ∨ a + vs.length ≤ b) :
    (m.writeBytes a vs).read b = m.read b := by
  rw [Memory.read_writeBytes h, if_neg (by omega)]

/-- Settles O39: the run is a write of QB's 64 bytes from 64r on; a run out of range ends with its record and DONE. -/
theorem runPutStoresRun : Obligations.RunPutStoresRun := by
  refine fun s r => ⟨fun hwf hin => ⟨_, exec_runPut_of_inRange hin, fun k => ?_, fun a ha => ?_, rfl⟩, exec_runPut_of_outOfRange⟩
  · exact read_writeBytes_toList hwf (64 * r) s.qb k
  · exact read_writeBytes_of_outside hwf (by rwa [Vector.length_toList])

/-- Settles O40: the new QB is the table of the run's bytes; a run out of range ends with its record and DONE. -/
theorem runGetLoadsRun : Obligations.RunGetLoadsRun := fun _ _ =>
  ⟨fun hin => ⟨_, exec_runGet_of_inRange hin, fun k => getElem_tab _ k.val k.isLt, rfl⟩, exec_runGet_of_outOfRange⟩

/-! The constant block: every stage between the two level shifts takes zeros to zeros. -/

theorem exec_fdct (s : State) : exec .fdct s = .next ({ s with blk := fdctRef s.blk } : State).finish := by
  rw [exec, execFdct, succeed_eq]

theorem exec_idct (s : State) : exec .idct s = .next ({ s with blk := idctRef s.blk } : State).finish := by
  rw [exec, execIdct, succeed_eq]

/-- FDCT and IDCT of +0.0 everywhere (41_transform R119). -/
theorem transforms_of_plusZero {b : Vector Word 64} (h : ∀ k : Fin 64, b[k] = plusZero) (k : Fin 64) :
    (fdctRef b)[k] = plusZero ∧ (idctRef b)[k] = plusZero := (transformOfZerosAndNaNs b).1 (fun k => .inl (h k)) k

/-- `128.0 − 128.0 = +0.0` (45_orchestration R192). -/
theorem shiftedDown_of_f128 {b : Vector Word 64} (h : ∀ k : Fin 64, b[k] = f128) (k : Fin 64) :
    (tab fun k => subF b[k] f128 : Vector Word 64)[k] = plusZero :=
  calc (tab fun k => subF b[k] f128 : Vector Word 64)[k] = subF b[k] f128 := getElem_tab _ k.val k.isLt
    _ = subF f128 f128 := by rw [h]
    _ = plusZero := by decide +kernel

/-- `+0.0 + 128.0 = 128.0` (45_orchestration R193). -/
theorem shiftedUp_of_plusZero {b : Vector Word 64} (h : ∀ k : Fin 64, b[k] = plusZero) (k : Fin 64) :
    (tab fun k => addF b[k] f128 : Vector Word 64)[k] = f128 :=
  calc (tab fun k => addF b[k] f128 : Vector Word 64)[k] = addF b[k] f128 := getElem_tab _ k.val k.isLt
    _ = addF plusZero f128 := by rw [h]
    _ = f128 := by decide +kernel

theorem truncF_plusZero : truncF plusZero = 0 := by
  rw [truncF, show units plusZero = 0 by decide, Int.zero_tdiv]

theorem not_outOfRange_plusZero : ¬ OutOfRange plusZero := by
  refine not_outOfRange (by decide) ?_ ?_ <;> rw [truncF_plusZero] <;> decide

/-- The truncated quotient of a zero by any entry is 0 (42_quantizer R135). -/
theorem qElem_plusZero (m : Nat) : qElem plusZero m = (0x00#8, false) := by
  rw [qElem_of_not_outOfRange not_outOfRange_plusZero, truncF_plusZero, Int.zero_tdiv]
  rfl

theorem quantBytes_of_plusZero {s : State} (h : ∀ k : Fin 64, s.blk[k] = plusZero) (k : Fin 64) : (quantBytes s)[k] = 0x00#8 := by
  rw [quantBytes_getElem, h, qElem_plusZero]

theorem quantOutOfRange_of_plusZero {s : State} (h : ∀ k : Fin 64, s.blk[k] = plusZero) : quantOutOfRange s = false := by
  rw [Bool.eq_false_iff, Ne, quantOutOfRange_iff]
  rintro ⟨k, hk⟩
  rw [h] at hk
  exact not_outOfRange_plusZero hk

/-- QUANT of +0.0 everywhere leaves QOOR as it was (42_quantizer R136). -/
theorem exec_quant_of_plusZero {s : State} (hvalid : s.qmValid = true) (h : ∀ k : Fin 64, s.blk[k] = plusZero) :
    exec .quant s = .next ({ s with qb := quantBytes s } : State).finish := by
  rw [exec_quant_of_valid hvalid, quantOutOfRange_of_plusZero h, stickyQoor, Bool.or_false]

/-- The product of a zero byte with any entry is 0 (42_quantizer R139). -/
theorem dqElem_zero (m : Nat) : dqElem 0x00#8 m = plusZero := by
  rw [dqElem, BitVec.toInt_zero, Int.zero_mul, toF_zero]

theorem dequantBlock_of_zero {s : State} (h : ∀ k : Fin 64, s.qb[k] = 0x00#8) (k : Fin 64) : (dequantBlock s)[k] = plusZero := by
  rw [dequantBlock_getElem, h, dqElem_zero]

theorem zzScanned_of_zero {q : Vector Byte 64} (h : ∀ k : Fin 64, q[k] = 0x00#8) : ∀ k : Fin 64, (zzScanned q)[k] = 0x00#8 :=
  zzTable_surjective.forall.mpr fun k => (zzScanned_getElem q k).trans (h k)

theorem zzUnscanned_of_zero {q : Vector Byte 64} (h : ∀ k : Fin 64, q[k] = 0x00#8) (k : Fin 64) : (zzUnscanned q)[k] = 0x00#8 :=
  (zzUnscanned_getElem q k).trans (h _)

/-- LSHIFT_DN, FDCT, QUANT and ZZ_SCAN of a block of 128.0. -/
theorem constantBlock_compresses {s : State} (hvalid : s.qmValid = true) (h128 : ∀ k : Fin 64, s.blk[k] = f128) :
    ∃ s1 s2 s3 s4, exec .lshiftDn s = .next s1 ∧ exec .fdct s1 = .next s2 ∧ exec .quant s2 = .next s3 ∧ exec .zzScan s3 = .next s4
      ∧ (∀ k : Fin 64, s4.qb[k] = 0x00#8) ∧ s4.qoor = s.qoor ∧ s4.qmValid = true := by
  have hfdct := fun k => (transforms_of_plusZero (shiftedDown_of_f128 h128) k).1
  exact ⟨_, _, _, _, exec_lshiftDn s, exec_fdct _, exec_quant_of_plusZero hvalid hfdct, exec_zzScan _,
    zzScanned_of_zero (quantBytes_of_plusZero hfdct), rfl, hvalid⟩

/-- ZZ_UNSCAN, DEQUANT, IDCT and LSHIFT_UP of zero bytes. -/
theorem zeroBytes_decompress {s : State} (hvalid : s.qmValid = true) (hzero : ∀ k : Fin 64, s.qb[k] = 0x00#8) :
    ∃ s1 s2 s3 s4, exec .zzUnscan s = .next s1 ∧ exec .dequant s1 = .next s2 ∧ exec .idct s2 = .next s3 ∧ exec .lshiftUp s3 = .next s4
      ∧ ∀ k : Fin 64, s4.blk[k] = f128 := by
  refine ⟨_, _, _, _, exec_zzUnscan s, exec_dequant_of_valid hvalid, exec_idct _, exec_lshiftUp _, shiftedUp_of_plusZero fun k => ?_⟩
  exact (transforms_of_plusZero (dequantBlock_of_zero (zzUnscanned_of_zero hzero)) k).2

/-- Settles O41: the level shift down leaves zeros, which every stage keeps until the level shift up. -/
theorem constantBlockRoundTrip : Obligations.ConstantBlockRoundTrip := by
  intro s hvalid h128
  obtain ⟨s1, s2, s3, s4, h1, h2, h3, h4, hzero, hqoor, hvalid4⟩ := constantBlock_compresses hvalid h128
  obtain ⟨s5, s6, s7, s8, h5, h6, h7, h8, hback⟩ := zeroBytes_decompress hvalid4 hzero
  exact ⟨s1, s2, s3, s4, s5, s6, s7, s8, h1, h2, h3, h4, h5, h6, h7, h8, hzero, hqoor, hback⟩

end Sys2Proof.Proofs
end

section
/-! SUPPORT. Proofs of 60_exceptions: the error that is held (R213), the two ends of a command (R214), and the interrupt output (R220). -/

namespace Sys2Proof.Proofs

open Sys2Proof.Machine

/-! The error record (R211, R213, R226). -/

theorem record_of_err_eq_true {s : State} (h : s.err = true) (c : ErrorCode) (info : Word) :
    s.record c info = { s with errorLog := s.errorLog ++ [(c, info)] } := if_pos h

/-- Settles O42: the two branches of the record, and the codes by evaluation. -/
theorem firstErrorIsHeld : Obligations.FirstErrorIsHeld :=
  ⟨fun _ c info => ⟨fun h => record_of_err_eq_false h c info, fun h => record_of_err_eq_true h c info⟩, by decide⟩

/-! The completion of a command (R214, R220). -/

/-- No command faults or is refused. -/
theorem exists_exec_eq_next (i : Instr) (s : State) : ∃ t, exec i s = .next t := by
  have hend := exec_end i s
  generalize exec i s = o at hend ⊢
  cases hend with
  | raised c info => exact ⟨_, raiseError_eq s c info⟩
  | succeeded hu => exact ⟨_, succeed_eq _⟩

theorem commandEffect_keeps_record {s u : State} {i : Instr} (h : CommandEffect s i u) :
    u.errorLog = s.errorLog ∧ u.err = s.err ∧ u.errCode = s.errCode ∧ u.errInfo = s.errInfo := by
  cases h <;> exact ⟨rfl, rfl, rfl, rfl⟩

theorem commandEffect_keeps_enables {s u : State} {i : Instr} (h : CommandEffect s i u) : u.doneEn = s.doneEn ∧ u.errEn = s.errEn := by
  cases h <;> exact ⟨rfl, rfl⟩

/-- Settles O43: of the two ends of a command, success keeps the record and an error is the record alone. -/
theorem commandsCompleteAtomically : Obligations.CommandsCompleteAtomically := by
  intro i s
  obtain ⟨t, ht⟩ := exists_exec_eq_next i s
  refine ⟨t, ht, ?_⟩
  obtain ⟨c, info, rfl⟩ | ⟨u, hu, rfl⟩ := exec_cases ht
  · exact ⟨rfl, rfl, .inr ⟨c, info, rfl⟩⟩
  · exact ⟨rfl, rfl, .inl (commandEffect_keeps_record (u := u) hu)⟩

theorem irq_finish (s : State) : s.finish.irq = (s.doneEn || (s.err && s.errEn)) := by simp [State.irq]

/-- Settles O45: both ends of a command set DONE and keep the enables. -/
theorem irqFollowsPendingBits : Obligations.IrqFollowsPendingBits := by
  refine ⟨fun s => rfl, fun i s t ht => ?_⟩
  obtain ⟨c, info, rfl⟩ | ⟨u, hu, rfl⟩ := exec_cases ht
  · rw [irq_finish, State.record_doneEn, State.record_errEn, State.finish_err]
  · obtain ⟨hdone, herr⟩ := commandEffect_keeps_enables hu
    rw [irq_finish, hdone, herr, State.finish_err]

end Sys2Proof.Proofs
end

section
/-! SUPPORT. Proofs of 70_reset_and_hazards: the reset state (R240 to R243), what the host can change in a busy period and why a command's result does
not depend on it (R252), and the completion of a command in flight (R253). -/

namespace Sys2Proof.Proofs

open Sys2Proof.Machine

/-! Reset. -/

/-- A CTRL write is accepted in every state, busy or not (10_state R24). -/
theorem hostWrite_ctrl (s : State) (w : Word) : s.hostWrite .ctrl w = if w.getLsbD 0 then s.softReset else s :=
  hostWrite_of_writable rfl s w

/-- Settles O11: a CTRL write is never refused, and bit 0 decides between `softReset` and nothing. -/
theorem softResetClearsAllState : Obligations.SoftResetClearsAllState := fun s w =>
  ⟨fun h => by rw [hostWrite_ctrl, if_pos h, State.softReset], fun h => by rw [hostWrite_ctrl, h, if_neg Bool.false_ne_true]⟩

/-- No memory cell, no error and no valid matrix: of the invariant only the bounds of the parameters are left (00_scope R7). -/
theorem inv_resetWith {p : Params} (h : p.Ok) : (State.resetWith p).Inv where
  params_ok := h
  sym_wf := (resetWith_memory_wf p).1
  sym_below _ hc := nomatch hc
  bits_wf := (resetWith_memory_wf p).2
  bits_below _ hc := nomatch hc
  no_record _ := ⟨rfl, rfl⟩
  record_logged he := nomatch he
  matrix_valid hv := nomatch hv
  matrix_reset _ := ⟨rfl, rfl⟩
  in_flight _ hp := nomatch hp

theorem params_vectors_ok : Params.vectors.Ok := by constructor <;> decide

/-- Settles O54: `State.reset` is the power-on state of parameters within the bounds. -/
theorem resetSatisfiesInvariant : Obligations.ResetSatisfiesInvariant := ⟨inv_resetWith params_vectors_ok, fun _ => inv_resetWith⟩

theorem sequencerStep_of_init {s : State} (h : s.pending = .init) : sequencerStep s = .next { s with pending := .none } := by
  simp only [sequencerStep, h]

/-- Completing the reset initialisation makes the block Clean (70_reset R245). -/
theorem resetWith_initialised_clean (p : Params) : ({ State.resetWith p with pending := .none } : State).Clean :=
  ⟨rfl, rfl, rfl, rfl, rfl, rfl, rfl, rfl⟩

/-- After power-on STATUS shows BUSY alone. -/
theorem resetWith_statusWord (p : Params) : (State.resetWith p).statusWord = 1#64 := by
  simp [State.statusWord, State.busy, State.resetWith]

theorem resetWith_buffers_zero (p : Params) (k : Fin 64) :
    (State.resetWith p).blk[k] = 0 ∧ (State.resetWith p).qb[k] = 0 ∧ (State.resetWith p).qm[k] = 0 := by
  simp [State.resetWith]

theorem resetWith_table_zero (p : Params) (b : BitVec 8) : at8 (State.resetWith p).ht b = { len := 0, pattern := 0 } := by
  simp [at8_eq, State.resetWith]

/-- Settles O10: a power-on state is `resetWith`, read field by field; Init completes in one turn, and the platform's reset is `powerOn`. -/
theorem powerOnState : Obligations.PowerOnState := by
  refine ⟨?_, fun s => sequencerStep_of_init, fun s es => step_platformReset⟩
  rintro p s rfl
  exact ⟨rfl, resetWith_statusWord p, rfl, rfl, rfl, rfl, rfl, rfl, rfl, rfl, rfl, rfl, rfl, rfl, rfl, rfl, rfl, rfl, rfl, rfl, rfl, rfl, rfl,
    resetWith_buffers_zero p, fun _ => ⟨rfl, rfl⟩, resetWith_table_zero p, rfl, rfl, rfl, rfl, rfl,
    _, sequencerStep_of_init rfl, resetWith_initialised_clean p⟩

/-! What the host can change in a busy period (20_memory R67). -/

/-- `s` with the fields that host accesses other than a soft reset can change while BUSY taken from `u`: the flags and the error record, the interrupt
enables, the ghost log, and the model's notes of the host's transactions and draws. No buffer, count or index is among them. -/
def withHostSideOf (s u : State) : State :=
  { s with
    done := u.done, err := u.err, qoor := u.qoor, errCode := u.errCode, errInfo := u.errInfo, doneEn := u.doneEn, errEn := u.errEn
    errorLog := u.errorLog, history := u.history, draws := u.draws }

@[simp] theorem withHostSideOf_params (s u : State) : (withHostSideOf s u).params = s.params := rfl

@[simp] theorem withHostSideOf_bitCount (s u : State) : (withHostSideOf s u).bitCount = s.bitCount := rfl

@[simp] theorem withHostSideOf_bits (s u : State) : (withHostSideOf s u).bits = s.bits := rfl

@[simp] theorem withHostSideOf_ht (s u : State) : (withHostSideOf s u).ht = s.ht := rfl

/-- `u` differs from `s` only in the host's side of the busy period. -/
def SameApartFromHostSide (s u : State) : Prop := withHostSideOf s u = u

theorem SameApartFromHostSide.eq {s u : State} (h : SameApartFromHostSide s u) : withHostSideOf s u = u := h

theorem SameApartFromHostSide.symm {s u : State} (h : SameApartFromHostSide s u) : SameApartFromHostSide u s := by
  rw [← h.eq]
  rfl

theorem SameApartFromHostSide.trans {s t u : State} (hst : SameApartFromHostSide s t) (htu : SameApartFromHostSide t u) :
    SameApartFromHostSide s u :=
  calc withHostSideOf s u = withHostSideOf (withHostSideOf s t) u := rfl
    _ = withHostSideOf t u := by rw [hst.eq]
    _ = u := htu

theorem SameApartFromHostSide.pending_eq {s u : State} (h : SameApartFromHostSide s u) : u.pending = s.pending := h ▸ rfl

theorem SameApartFromHostSide.params_eq {s u : State} (h : SameApartFromHostSide s u) : u.params = s.params := h ▸ rfl

theorem SameApartFromHostSide.events_eq {s u : State} (h : SameApartFromHostSide s u) : u.events = s.events := h ▸ rfl

theorem SameApartFromHostSide.noteTransaction {s u : State} (h : SameApartFromHostSide s u) (n : Transaction) :
    SameApartFromHostSide s (u.noteTransaction n) := h.trans rfl

theorem SameApartFromHostSide.finish {s u : State} (h : SameApartFromHostSide s u) : SameApartFromHostSide s.finish u.finish := by
  rw [← h.eq]
  rfl

theorem sameApartFromHostSide_record (s : State) (c : ErrorCode) (info : Word) : SameApartFromHostSide s (s.record c info) := by
  unfold State.record
  split <;> rfl

/-- A read while BUSY advances the count of draws at most. -/
theorem hostRead_keeps {s : State} (hbusy : s.busy = true) (r : Reg) : SameApartFromHostSide s (s.hostRead r).2 := by
  by_cases hr : r.readableWhileBusy = true
  · rw [hostRead_of_readable hr, readReg_snd_of_readable hr]
    rfl
  · rw [hostRead_of_unreadable hbusy hr]
    rfl

/-- A write while BUSY, a soft reset aside, is refused with a record, or reaches STATUS or IRQ_EN, or has no effect. -/
theorem hostWrite_keeps {s : State} (hbusy : s.busy = true) {r : Reg} {w : Word} (hreset : r = .ctrl → w.getLsbD 0 = false) :
    SameApartFromHostSide s (s.hostWrite r w) := by
  by_cases hr : r.writableWhileBusy = true
  · rw [hostWrite_of_writable hr]
    obtain rfl | rfl | rfl | ⟨k, rfl⟩ := (writableWhileBusy_iff r).mp hr
    · rw [State.writeReg, hreset rfl, if_neg Bool.false_ne_true]
      rfl
    · rw [State.writeReg, writeStatus_eq]
      rfl
    · rfl
    · rfl
  · rw [hostWrite_of_unwritable hbusy hr]
    exact sameApartFromHostSide_record s _ _

/-- An access that is admitted and no soft reset. -/
def KeepsBusyPeriod (p : Params) (a : Access) : Prop := (∃ r, a.reg? p = some r) ∧ a.isSoftReset p = false

/-- Such an access while BUSY has a step, which changes the host's side only. -/
theorem hostStep_keeps {s : State} (hbusy : s.busy = true) {a : Access} (ha : KeepsBusyPeriod s.params a) :
    ∃ t, hostStep a s = .next t ∧ SameApartFromHostSide s t := by
  obtain ⟨⟨r, hr⟩, hreset⟩ := ha
  simp only [hostStep, hr]
  cases hk : a.kind with
  | read => exact ⟨_, rfl, (hostRead_keeps hbusy r).noteTransaction _⟩
  | write w =>
    refine ⟨_, rfl, (hostWrite_keeps hbusy ?_).noteTransaction _⟩
    rintro rfl
    simpa only [Access.isSoftReset, hr, hk] using hreset

/-- The busy period lasts through such accesses, and they change the host's side only. -/
theorem afterAccesses_keeps {s : State} (hbusy : s.busy = true) {as : List Access} (has : ∀ a ∈ as, KeepsBusyPeriod s.params a) :
    ∃ u, afterAccesses as s = .next u ∧ SameApartFromHostSide s u := by
  induction as generalizing s with
  | nil => exact ⟨s, rfl, rfl⟩
  | cons a as ih =>
    obtain ⟨ha, has⟩ := List.forall_mem_cons.mp has
    obtain ⟨t, ht, hst⟩ := hostStep_keeps hbusy ha
    have hbusy' : t.busy = true := by rwa [busy_iff, hst.pending_eq, ← busy_iff]
    obtain ⟨u, hu, htu⟩ := ih hbusy' (by rwa [hst.params_eq])
    exact ⟨u, by simp only [afterAccesses, ht, hu], hst.trans htu⟩

/-! The result of a command (70_reset R252). -/

/-- Two ends of one command, from `s` and from `u`: both raise the same error, or both succeed with the same data and log nothing. -/
inductive EndAlike (s u : State) : Host.Outcome State Fault Refusal → Host.Outcome State Fault Refusal → Prop
  | raised (c : ErrorCode) (info : Word) : EndAlike s u (raiseError s c info) (raiseError u c info)
  | succeeded {t t' : State} (h : SameApartFromHostSide t t') (hs : t.errorLog = s.errorLog) (hu : t'.errorLog = u.errorLog) :
      EndAlike s u (succeed t) (succeed t')

/-- Two ends chosen by one check are alike if each pair is. -/
theorem EndAlike.ite {s u : State} {c : Prop} [Decidable c] {o o' p p' : Host.Outcome State Fault Refusal} (ho : EndAlike s u o o')
    (hp : EndAlike s u p p') : EndAlike s u (if c then o else p) (if c then o' else p') := by
  split
  · exact ho
  · exact hp

/-- The table, the stream and the capacity that HUFF_DEC reads are no part of the host's side. -/
theorem execHuffDec_endAlike (s u : State) : EndAlike s (withHostSideOf s u) (execHuffDec s) (execHuffDec (withHostSideOf s u)) := by
  refine .ite (.raised ..) (.ite (.raised ..) ?_)
  rw [withHostSideOf_ht, withHostSideOf_bits, withHostSideOf_params, withHostSideOf_bitCount]
  split
  · exact .raised ..
  · split
    · exact .raised ..
    · exact .succeeded rfl rfl rfl

/-- No command reads the host's side, except that QUANT leaves QOOR set if it was. -/
theorem exec_endAlike {s u : State} (h : SameApartFromHostSide s u) (i : Instr) : EndAlike s u (exec i s) (exec i u) := by
  rw [← h.eq]
  cases i with
  | nop | fdct | idct | lshiftDn | lshiftUp | zzScan | zzUnscan => exact .succeeded rfl rfl rfl
  | qmBuild | quant | dequant | runPut | runGet => exact .ite (.succeeded rfl rfl rfl) (.raised ..)
  | huffEnc => exact .ite (.raised ..) (.ite (.raised ..) (.succeeded rfl rfl rfl))
  | huffDec => exact execHuffDec_endAlike s u

/-- The same for a word in flight: an illegal one raises E_ILLEGAL with the word (30_encoding R97). -/
theorem completeWord_endAlike {s u : State} (h : SameApartFromHostSide s u) (w : Word) :
    EndAlike s u (completeWord w s) (completeWord w u) := by
  unfold completeWord
  split
  · exact exec_endAlike h _
  · exact .raised ..

/-- Both ends answer a next state, with the same data and the same errors logged. -/
theorem EndAlike.results {s u : State} (h : SameApartFromHostSide s u) {o o' : Host.Outcome State Fault Refusal} (ho : EndAlike s u o o') :
    ∃ t t', o = .next t ∧ o' = .next t' ∧ SameApartFromHostSide t t'
      ∧ ∃ es, t.errorLog = s.errorLog ++ es ∧ t'.errorLog = u.errorLog ++ es := by
  cases ho with
  | raised c info =>
    have hrecords : SameApartFromHostSide (s.record c info) (u.record c info) :=
      ((sameApartFromHostSide_record s c info).symm.trans h).trans (sameApartFromHostSide_record u c info)
    exact ⟨_, _, raiseError_eq s c info, raiseError_eq u c info, hrecords.finish, [(c, info)], by simp⟩
  | succeeded ht hs hu => exact ⟨_, _, succeed_eq _, succeed_eq _, ht.finish, [], by simp [hs, hu]⟩

/-- What R252 compares of two results is no part of the host's side. -/
theorem SameApartFromHostSide.data {t t' : State} (h : SameApartFromHostSide t t') :
    t'.blk = t.blk ∧ t'.qb = t.qb ∧ t'.qm = t.qm ∧ t'.sym = t.sym ∧ t'.bits = t.bits ∧ t'.ht = t.ht
      ∧ t'.symCount = t.symCount ∧ t'.bitCount = t.bitCount ∧ t'.bitLen = t.bitLen ∧ t'.quality = t.quality ∧ t'.qmValid = t.qmValid := by
  rw [← h.eq]
  exact ⟨rfl, rfl, rfl, rfl, rfl, rfl, rfl, rfl, rfl, rfl, rfl⟩

theorem busy_of_cmd {s : State} {w : Word} (h : s.pending = .cmd w) : s.busy = true := by simp [busy_iff, h]

/-- Settles O59: the accesses change the host's side only, which no command's result depends on. -/
theorem resultIsIndependentOfTiming : Obligations.ResultIsIndependentOfTiming := by
  intro s w as hp has
  obtain ⟨u, hu, hsu⟩ := afterAccesses_keeps (busy_of_cmd hp) has
  obtain ⟨t, t', ht, ht', hdata, hlog⟩ := (completeWord_endAlike hsu w).results hsu
  obtain ⟨hblk, hqb, hqm, hsym, hbits, hht, hsymCount, hbitCount, hbitLen, hquality, hqmValid⟩ := hdata.data
  exact ⟨u, t, t', hu, hsu.pending_eq.trans hp, ht, ht', hblk, hqb, hqm, hsym, hbits, hht, hsymCount, hbitCount, hbitLen,
    hquality, hqmValid, hlog⟩

/-! The completion of a command in flight (70_reset R253). -/

theorem run_succ_of_step {s t : State} (h : step s = .next t) (n : Nat) : Host.Core.run core (n + 1) s = Host.Core.run core n t := by
  simp only [Host.Core.run, show core.step s = .next t from h]

/-- The sequencer's turn ends the busy period of a command and sets DONE (20_memory R70). -/
theorem sequencerStep_completes {s : State} {w : Word} (hp : s.pending = .cmd w) :
    ∃ t, sequencerStep s = .next t ∧ t.pending = .none ∧ t.done = true := by
  obtain ⟨t, ht⟩ := sequencerStep_answers s
  refine ⟨t, ht, ?_⟩
  cases sequencerStep_effect ht with
  | idle h => simp [hp] at h
  | initDone h => simp [hp] at h
  | raised c info => exact ⟨rfl, rfl⟩
  | succeeded _ _ _ => exact ⟨rfl, rfl⟩

/-- Settles O60, by induction on the host's accesses: each keeps the command in flight, and then the turn is the sequencer's. -/
theorem commandInFlightCompletes : Obligations.CommandInFlightCompletes := by
  intro s w as hp hev has
  induction as generalizing s with
  | nil =>
    obtain ⟨t, ht, hend⟩ := sequencerStep_completes hp
    exact ⟨t, run_succ_of_step ((step_of_no_events hev).trans ht) 0, hend⟩
  | cons a as ih =>
    obtain ⟨ha, has⟩ := List.forall_mem_cons.mp has
    have hbusy : ({ s with events := as.map .host } : State).busy = true := busy_of_cmd hp
    obtain ⟨t, ht, hst⟩ := hostStep_keeps hbusy ha
    have hstep : step s = .next t := by simp only [step, hev, List.map_cons, ht]
    rw [List.length_cons, run_succ_of_step hstep]
    exact ih t (hst.pending_eq.trans hp) hst.events_eq (by rwa [hst.params_eq])

end Sys2Proof.Proofs
end
